-- ==== Sys2Proof/Word.lean ====
section
/-! DEFINITION. The widths that 00_scope.md R8 fixes, and the word types of the block: every one is an unsigned
integer of a stated width, bit 0 the least significant (R10). The declarations of Syntax, Decode and State take
their widths from here. -/

namespace Sys2Proof

/-! ## Configuration fields of R8 with the range "fixed" -/

/-- INSTR_BITS (R8). -/
abbrev Config.instrBits : Nat := 16

/-- DELAY_BITS: a delay is 0 to 15 (R8). -/
abbrev Config.delayBits : Nat := 4

/-- SIDESET_BITS, not optional (R8). -/
abbrev Config.sidesetBits : Nat := 1

/-- FCLK_BITS, unsigned Hz (R8). -/
abbrev Config.fclkBits : Nat := 32

/-- CLKDIV_BITS (R8). -/
abbrev Config.clkdivBits : Nat := 16

/-- The width of X (R8). -/
abbrev Config.xBits : Nat := 32

/-- The width of OSR (R8). -/
abbrev Config.osrBits : Nat := 32

/-! ## Word types -/

/-- A host bus word and a FIFO word (ColorWord): 32 bits (R20, R30). OSR and X have the same width by R8. -/
abbrev Word := BitVec 32

/-- An instruction-memory word: 16 bits, one micro-op (R29, R80). -/
abbrev MicroWord := BitVec Config.instrBits

/-- A FIFO pointer or its Gray code. PW = log2(FIFO_DEPTH) + 1 is 3 for this hardware and at most 4 for a
legal build (R31); every pointer is held in 4 bits, and `Inv` says that the bits above PW are 0
(DEDUCED, log 5). -/
abbrev Ptr := BitVec 4

end Sys2Proof
end

