-- ==== Sys2Proof/Config.lean ====
section
/-! DEFINITION. What is fixed for the machine (the parameters of 00_scope.md R7 and R8; the widths among them are
`Config.instrBits` to `Config.osrBits` in Word.lean, because the word types are made of them), the ports the
environment drives (10_state.md R20), and the free values: which event comes next (R17, R19) and the two
parameters the spec leaves OPEN (R9). -/

namespace Sys2Proof

/-! ## Parameters fixed by the source (R7) and by the spec (R8) -/

/-- BIT_FREQ, the target bit frequency in Hz (R7). -/
def Config.bitFreq : Nat := 800000

/-- CYCLES_PER_BIT, the ticks of one bit period (R7). -/
def Config.cyclesPerBit : Nat := 10

/-- WORD_BITS, the bits shifted out per FIFO word (R7). -/
def Config.wordBits : Nat := 32

/-- IMEM_DEPTH, the words of instruction memory (R8). -/
def Config.imemDepth : Nat := 32

/-- KDIV = BIT_FREQ × CYCLES_PER_BIT = 8000000, the divisor's denominator (R8, R100). -/
def Config.kdiv : Nat := Config.bitFreq * Config.cyclesPerBit

/-- SHIFT_DIR: which end of the output shift register leaves first (R8, R64). -/
inductive ShiftDir
  | msbFirst
  | lsbFirst
  deriving DecidableEq, Repr, Inhabited

/-- The build-time generics (R7, R8). -/
structure BuildParams where
  shiftDir   : ShiftDir
  fifoDepth  : Nat
  syncStages : Nat
  t1         : Nat
  t2         : Nat
  t3         : Nat
  deriving DecidableEq, Repr

/-- The legal ranges of R8: FIFO_DEPTH a power of two from 1 to 8, SYNC_STAGES from 2 to 15, each Ti from 1
to 16, and T1 + T2 + T3 = CYCLES_PER_BIT. -/
def BuildParams.ok (p : BuildParams) : Bool :=
  (p.fifoDepth == 1 || p.fifoDepth == 2 || p.fifoDepth == 4 || p.fifoDepth == 8) &&
  decide (2 ≤ p.syncStages) && decide (p.syncStages ≤ 15) &&
  decide (1 ≤ p.t1) && decide (p.t1 ≤ 16) && decide (1 ≤ p.t2) && decide (p.t2 ≤ 16) &&
  decide (1 ≤ p.t3) && decide (p.t3 ≤ 16) &&
  (p.t1 + p.t2 + p.t3 == Config.cyclesPerBit)

/-- A build that exists: "A build that violates either does not exist: elaboration fails" (R8), so the
parameters carry the proof that they are legal. -/
structure Build extends BuildParams where
  legal : toBuildParams.ok = true
  deriving DecidableEq, Repr

/-- The parameters of this hardware (R7, R8): MSB_FIRST, depth 4, two stages, T1 = 2, T2 = 5, T3 = 3. -/
def Config.thisHardware : Build :=
  { shiftDir := .msbFirst, fifoDepth := 4, syncStages := 2, t1 := 2, t2 := 5, t3 := 3, legal := by decide }

/-! ## The ports the environment drives, and the events -/

/-- The bus port's inputs at one host edge (R20): `bus_addr`, `bus_we`, `bus_wdata`, and `pin_grant`, which
is sampled at the same edge. -/
structure BusIn where
  addr     : BitVec 6
  we       : Bool
  wdata    : Word
  pinGrant : Bool
  deriving DecidableEq, Repr, Inhabited

/-- The push port's inputs at one host edge (R20): `tx_push` and `tx_data`. -/
structure TxIn where
  push : Bool
  data : Word
  deriving DecidableEq, Repr, Inhabited

/-- Everything the host presents at one host edge (R20). -/
structure HostIn where
  bus : BusIn
  tx  : TxIn
  deriving DecidableEq, Repr, Inhabited

/-- One event of a run: a host edge with its inputs, an engine edge, or a reset (R16, R17, R200). Each is
atomic. -/
inductive Event
  | hostEdge (ports : HostIn)
  | engineEdge
  | reset
  deriving DecidableEq, Repr, Inhabited

/-! ## Free values -/

/-- Which event comes next when State lists none: the schedule, the host's inputs and the reset event are
the model's three sources of nondeterminism (R17, R19), so nothing constrains this value
(DESIGN CHOICE, log 2; safe). -/
opaque Config.freeEvent : Nat → Event

/-- F_ENG, the real frequency of `clk_eng` in Hz: OPEN, and no state transition reads it (R9, I14). -/
opaque Config.fEng : Nat

/-- T_LATCH, the LOW duration that a receiver takes as end-of-frame: OPEN, and no state transition reads it
(R9, I15). The unit, nanoseconds, is the model's (DESIGN CHOICE, log 12). -/
opaque Config.tLatchNs : Nat

end Sys2Proof
end

