-- ==== Sys2Proof/Syntax.lean ====
section
/-! DEFINITION. The instructions: one constructor per row of spec/opcode_table.json. The four micro-ops are
executed by the engine at a tick (30_encoding.md R87); the five host operations are presented at the ports
at a host edge (R95). -/

namespace Sys2Proof

/-- An instruction. The operands are the fields of its encoding, already taken apart; `side` is the one side-set
bit (SIDESET_BITS, R8). -/
inductive Instr
  /-- `JMP target` (R118). -/
  | jmp (side : Bool) (delay : BitVec Config.delayBits) (target : BitVec 5)
  /-- `JMP !X, target` (R119). -/
  | jmpNotX (side : Bool) (delay : BitVec Config.delayBits) (target : BitVec 5)
  /-- `OUT X, 1` (R117). -/
  | outX (side : Bool) (delay : BitVec Config.delayBits)
  /-- `NOP` (R120). -/
  | nop (side : Bool) (delay : BitVec Config.delayBits)
  /-- REG_READ of register `index` (R163). -/
  | regRead (index : BitVec 6)
  /-- REG_WRITE of `wdata` to register `index` (R162), with the level of `pin_grant` at that edge. A write
  of CTRL with a command bit set is CONFIGURE or START, not this (log 7). -/
  | regWrite (index : BitVec 6) (wdata : Word) (pinGrant : Bool)
  /-- CONFIGURE: a write of CTRL with bit 0 = 1 (R166). `startBit` is bit 1 of the same write (R170) and
  `reserved` its bits 31:2 (R46). -/
  | configure (startBit : Bool) (reserved : BitVec 30) (pinGrant : Bool)
  /-- START: a write of CTRL with bit 0 = 0 and bit 1 = 1 (R169). `reserved` is its bits 31:2 (R46). -/
  | start (reserved : BitVec 30)
  /-- PUSH of `data` (R140). -/
  | push (data : Word)
  deriving DecidableEq, Repr

/-- True of the four micro-ops, which the engine fetches from IMEM; false of the five host operations. -/
def Instr.isMicroOp : Instr → Bool
  | .jmp _ _ _ | .jmpNotX _ _ _ | .outX _ _ | .nop _ _ => true
  | .regRead _ | .regWrite _ _ _ | .configure _ _ _ | .start _ | .push _ => false

end Sys2Proof
end

