-- ==== Sys2Proof/WellFormed.lean ====
section
/-! DEFINITION. When a term of `Instr` stands for one encoding. Every operand's range is its type's, so one
check remains: a REG_WRITE term is not a write that 30_encoding.md R95 names CONFIGURE or START. -/

namespace Sys2Proof

/-- A REG_WRITE of CTRL (index 0) has both command bits clear; with one set the port values are those of
CONFIGURE or START (R46, R95; log 7). -/
def Instr.wellFormed : Instr → Bool
  | .jmp _ _ _ => true
  | .jmpNotX _ _ _ => true
  | .outX _ _ => true
  | .nop _ _ => true
  | .regRead _ => true
  | .regWrite index wdata _ => !(index == 0 && (wdata[0] || wdata[1]))
  | .configure _ _ _ => true
  | .start _ => true
  | .push _ => true

end Sys2Proof
end

