-- ==== Sys2Proof/Decode.lean ====
section
/-! DEFINITION. Decoding (30_encoding.md R80 to R91, R95), total and rejecting by name; then the encoder
written from the same tables (R87, R94, R95). A micro-op is one 16-bit word of IMEM. A host operation is the
port values of a host edge: the bus port always presents one operation, the push port one or none. -/

namespace Sys2Proof

/-! ## The micro-op word -/

/-- `op = w[15:13]` (R81). -/
def opField (w : MicroWord) : BitVec 3 := w.extractLsb' 13 3

/-- `side = w[12]` (R82). -/
def sideField (w : MicroWord) : Bool := w[12]

/-- `delay = w[11:8]`, unsigned and not scaled (R83). -/
def delayField (w : MicroWord) : BitVec Config.delayBits := w.extractLsb' 8 4

/-- `f1 = w[7:5]`: a JMP's condition, an OUT's or a MOV's destination (R81). -/
def f1Field (w : MicroWord) : BitVec 3 := w.extractLsb' 5 3

/-- `f2 = w[4:0]`: a JMP's absolute target, an OUT's count, a MOV's operation and source (R81, R84). -/
def f2Field (w : MicroWord) : BitVec 5 := w.extractLsb' 0 5

/-- Why a code is no instruction: the kinds of reserved word of R89, and an idle push port. -/
inductive DecodeError
  /-- `op` is 001, 010, 100, 110 or 111 (R89). -/
  | reservedOpcode (op : BitVec 3)
  /-- A JMP with condition 010 to 111 (R84, R89). -/
  | reservedCondition (cond : BitVec 3)
  /-- An OUT whose destination is not X or whose count is not 1 (R85, R89). -/
  | reservedOut (dest : BitVec 3) (count : BitVec 5)
  /-- A MOV other than `MOV Y, Y` (R86, R89). -/
  | reservedMov (dest : BitVec 3) (source : BitVec 5)
  /-- `tx_push = 0`: the push port presents no operation (R95). -/
  | idlePushPort
  deriving DecidableEq, Repr

/-- Which kind of reserved word a word that matches no row of R87 is (R89). -/
def reservedKind (w : MicroWord) : DecodeError :=
  if opField w = 0b000#3 then .reservedCondition (f1Field w)
  else if opField w = 0b011#3 then .reservedOut (f1Field w) (f2Field w)
  else if opField w = 0b101#3 then .reservedMov (f1Field w) (f2Field w)
  else .reservedOpcode (opField w)

/-- The masks and matches of R87, in its order. -/
def jmpMask : MicroWord := 0xE0E0#16
def jmpMatch : MicroWord := 0x0000#16
def jmpNotXMask : MicroWord := 0xE0E0#16
def jmpNotXMatch : MicroWord := 0x0020#16
def outXMask : MicroWord := 0xE0FF#16
def outXMatch : MicroWord := 0x6021#16
def nopMask : MicroWord := 0xE0FF#16
def nopMatch : MicroWord := 0xA042#16

/-- `decode` of R88, total on all 65536 words. -/
def decodeMicro (w : MicroWord) : Except DecodeError Instr :=
  if w &&& jmpMask = jmpMatch then .ok (.jmp (sideField w) (delayField w) (f2Field w))
  else if w &&& jmpNotXMask = jmpNotXMatch then .ok (.jmpNotX (sideField w) (delayField w) (f2Field w))
  else if w &&& outXMask = outXMatch then .ok (.outX (sideField w) (delayField w))
  else if w &&& nopMask = nopMatch then .ok (.nop (sideField w) (delayField w))
  else .error (reservedKind w)

/-- `admitted(w)` of R88. -/
def admitted (w : MicroWord) : Bool :=
  match decodeMicro w with
  | .ok _ => true
  | .error _ => false

/-! ## The ports -/

/-- The operation the bus port presents at a host edge (R95). With `bus_we = 0` it is a read of `bus_addr`.
A write of CTRL is CONFIGURE when bit 0 is set, START when only bit 1 of the two is set (R46), and a
REG_WRITE otherwise. -/
def decodeBus (p : BusIn) : Instr :=
  if p.we then
    if p.addr = 0#6 ∧ p.wdata[0] then
      .configure p.wdata[1] (p.wdata.extractLsb' 2 30) p.pinGrant
    else if p.addr = 0#6 ∧ p.wdata[1] then .start (p.wdata.extractLsb' 2 30)
    else .regWrite p.addr p.wdata p.pinGrant
  else .regRead p.addr

/-- The operation the push port presents at a host edge, if any (R95). -/
def decodeTx (p : TxIn) : Except DecodeError Instr :=
  if p.push then .ok (.push p.data) else .error .idlePushPort

/-! ## Codes -/

/-- The code of one instruction: a word of IMEM, or the values at one of the two host ports. -/
inductive Code
  | imem (w : MicroWord)
  | bus (p : BusIn)
  | tx (p : TxIn)
  deriving DecidableEq, Repr

/-- The decoder of every code. -/
def decode : Code → Except DecodeError Instr
  | .imem w => decodeMicro w
  | .bus p => .ok (decodeBus p)
  | .tx p => decodeTx p

/-! ## The encoder -/

/-- A word from its match, its side-set bit, its delay and its low field (R94). -/
def microWord (base : MicroWord) (side : Bool) (delay : BitVec Config.delayBits) (f2 : BitVec 5) : MicroWord :=
  base ||| ((BitVec.ofBool side : BitVec Config.sidesetBits).setWidth 16 <<< 12) ||| (delay.setWidth 16 <<< 8) ||| f2.setWidth 16

/-- The write data of a CTRL write from its bits 31:2, 1 and 0 (R46). -/
def ctrlWord (reserved : BitVec 30) (startBit configureBit : Bool) : Word :=
  reserved ++ BitVec.ofBool startBit ++ BitVec.ofBool configureBit

/-- The code of an instruction (R87, R94, R95). A port value that the operation does not read is 0. -/
def encode : Instr → Code
  | .jmp side delay target => .imem (microWord jmpMatch side delay target)
  | .jmpNotX side delay target => .imem (microWord jmpNotXMatch side delay target)
  | .outX side delay => .imem (microWord outXMatch side delay 0#5)
  | .nop side delay => .imem (microWord nopMatch side delay 0#5)
  | .regRead index => .bus { addr := index, we := false, wdata := 0#32, pinGrant := false }
  | .regWrite index wdata pinGrant => .bus { addr := index, we := true, wdata := wdata, pinGrant := pinGrant }
  | .configure startBit reserved pinGrant =>
      .bus { addr := 0#6, we := true, wdata := ctrlWord reserved startBit true, pinGrant := pinGrant }
  | .start reserved =>
      .bus { addr := 0#6, we := true, wdata := ctrlWord reserved true false, pinGrant := false }
  | .push data => .tx { push := true, data := data }

/-! ## One number per instruction

The opcode table numbers the bits of a micro-op; it gives the host operations port values and no numbering.
The model numbers the ports of one host edge as `bus_addr` 5:0, `bus_we` 6, `bus_wdata` 38:7, `pin_grant` 39,
`tx_push` 40, `tx_data` 72:41 (DESIGN CHOICE, log 8). -/

/-- The values of all the ports at one host edge, as one number. -/
abbrev PortWord := BitVec 73

/-- The ports a port word stands for. -/
def portsOfWord (w : PortWord) : HostIn :=
  { bus := { addr := w.extractLsb' 0 6, we := w[6], wdata := w.extractLsb' 7 32, pinGrant := w[39] }
    tx := { push := w[40], data := w.extractLsb' 41 32 } }

/-- The port word of the ports. -/
def wordOfPorts (p : HostIn) : PortWord :=
  p.tx.data ++ BitVec.ofBool p.tx.push ++ BitVec.ofBool p.bus.pinGrant ++ p.bus.wdata
    ++ BitVec.ofBool p.bus.we ++ p.bus.addr

/-- The ports of a host edge that presents one operation of one port and leaves the other port idle. An idle
bus port reads register 0, which has no side effect (R58). -/
def portsOfBus (p : BusIn) : HostIn := { bus := p, tx := { push := false, data := 0#32 } }
def portsOfTx (p : TxIn) : HostIn :=
  { bus := { addr := 0#6, we := false, wdata := 0#32, pinGrant := false }, tx := p }

/-- The code that `nbits` bits of value `w` stand for: up to 16 bits an IMEM word, above that a port word,
which is the push port's operation if it presents one and the bus port's otherwise. -/
def codeOfTableWord (nbits w : Nat) : Code :=
  if nbits ≤ 16 then .imem (BitVec.ofNat 16 (w % 2 ^ nbits))
  else
    let ports := portsOfWord (BitVec.ofNat 73 (w % 2 ^ nbits))
    if ports.tx.push then .tx ports.tx else .bus ports.bus

/-- The table's number of an instruction: how many bits, in whole bytes, and their value. -/
def tableWordOf (i : Instr) : Nat × Nat :=
  match encode i with
  | .imem w => (16, w.toNat)
  | .bus p => (80, (wordOfPorts (portsOfBus p)).toNat)
  | .tx p => (80, (wordOfPorts (portsOfTx p)).toNat)

/-- The instruction the decoder reads from an instruction whose bits are `w`, the bits above `nbits` being 0;
none where it refuses. -/
def decodeTableWord (nbits w : Nat) : Option Instr :=
  match decode (codeOfTableWord nbits w) with
  | .ok i => some i
  | .error _ => none

end Sys2Proof
end

