-- ==== Sys2Proof/Machine/State.lean ====
section
/-! DEFINITION. The machine's state as plain data: every register of 10_state.md, grouped by the clock domain
that writes it (R16, R59), with the machine's fixed build parameters and the model's own fields for the
environment. -/

namespace Sys2Proof.Machine

/-- A storage space as (index, word) pairs, in one canonical form (`Memory.wf`): indices strictly rising and
no listed word 0. An unlisted index reads as 0, which is the reset contents of IMEM and of FIFO_MEM (R59).
The unit is the whole word, because no space has bytes (R60, R65; log 6). -/
abbrev Memory (width : Nat) := List (Nat × BitVec width)

/-- LIFE, the lifecycle (R24). -/
inductive Life
  | uninit
  | configured
  | running
  | fault
  deriving DecidableEq, Repr

/-- What the host-domain logic holds (R16): the registers of R24 to R32. -/
structure HostSide where
  /-- LIFE (R24). -/
  life    : Life
  /-- ERR, the configuration-error code (R25). -/
  err     : BitVec 4
  /-- ERR_ADDR, the IMEM index of the error (R25). -/
  errAddr : BitVec 5
  /-- FCLK, the engine clock frequency in Hz as the host wrote it (R26). -/
  fclk    : BitVec Config.fclkBits
  /-- CLKDIV, the clock divisor (R27). -/
  clkdiv  : BitVec Config.clkdivBits
  /-- LEN, the number of instruction words (R28). -/
  len     : BitVec 6
  /-- IMEM, written here and read by the engine (R29). -/
  imem    : Memory Config.instrBits
  /-- FIFO_MEM, written here and read by the engine (R30). -/
  fifoMem : Memory 32
  /-- The FIFO write pointer (R31). -/
  wptr    : Ptr
  /-- The Gray write pointer, a register of its own (R31). -/
  wgray   : Ptr
  /-- rs[1..SYNC_STAGES], the read-pointer synchroniser, stage 1 first (R32). -/
  rs      : List Ptr
  deriving DecidableEq, Repr

/-- What the engine-domain logic holds (R16): the registers of R33 to R42. -/
structure EngineSide where
  /-- run_s[1..SYNC_STAGES], the run synchroniser, stage 1 first (R33). -/
  runS     : List Bool
  /-- ws[1..SYNC_STAGES], the write-pointer synchroniser, stage 1 first (R34). -/
  ws       : List Ptr
  /-- div_cnt, the divider counter (R35). -/
  divCnt   : BitVec Config.clkdivBits
  /-- pc, an IMEM index (R36). -/
  pc       : BitVec 5
  /-- delay_cnt, the idle ticks left (R37). -/
  delayCnt : BitVec Config.delayBits
  /-- OSR, the output shift register (R38). -/
  osr      : BitVec Config.osrBits
  /-- osr_cnt, the bits already shifted out of OSR (R39). -/
  osrCnt   : BitVec 6
  /-- X, the scratch register (R40). -/
  x        : BitVec Config.xBits
  /-- The output level: true is HIGH (R41). -/
  dout     : Bool
  /-- The FIFO read pointer (R42). -/
  rptr     : Ptr
  /-- The Gray read pointer, a register of its own (R42). -/
  rgray    : Ptr
  deriving DecidableEq, Repr

/-- What the block shows the host at a host edge, before the edge (R18, R20). -/
structure HostOut where
  busRdata : Word
  txOk     : Bool
  pinClaim : Bool
  deriving DecidableEq, Repr

/-- The model's own fields: what the environment will do and has read. -/
structure Env where
  /-- The events to come, the next one first (R17; log 2). -/
  inputs  : List Event
  /-- How many free events have been taken: the argument of the next one (log 2). -/
  inputNo : Nat
  /-- The outputs at the last host edge, as the host read them (R18; log 3). -/
  lastOut : HostOut
  deriving DecidableEq, Repr

/-- The state of the machine. -/
structure State where
  build : Build
  host  : HostSide
  eng   : EngineSide
  env   : Env
  deriving DecidableEq, Repr

/-- Why the machine stops. -/
inductive Fault
  /-- The engine fetched the reserved word `word` at `pc` (R121, I3). Raised by the Issue of an engine edge
  only. Safe: the spec makes the fetch unreachable (R124), and a run that met it would stop here. -/
  | reservedFetched (pc : BitVec 5) (word : MicroWord)
  deriving DecidableEq, Repr

/-- Why an instruction has no meaning. -/
inductive Refusal
  /-- An arm of `exec` that has no meaning yet. Safe; no arm raises it now. -/
  | notModelled (mnemonic : String)
  deriving DecidableEq, Repr

/-- The host domain after reset (R59, R200). -/
def HostSide.resetOf (b : Build) : HostSide :=
  { life := .uninit, err := 0, errAddr := 0, fclk := 0, clkdiv := 0, len := 0, imem := [], fifoMem := []
    wptr := 0, wgray := 0, rs := List.replicate b.syncStages 0 }

/-- The engine domain after reset (R59, R200): everything 0 but `osr_cnt`, which is WORD_BITS. -/
def EngineSide.resetOf (b : Build) : EngineSide :=
  { runS := List.replicate b.syncStages false, ws := List.replicate b.syncStages 0, divCnt := 0, pc := 0
    delayCnt := 0, osr := 0, osrCnt := BitVec.ofNat 6 Config.wordBits, x := 0, dout := false, rptr := 0
    rgray := 0 }

/-- The environment's fields at the start of a run (DESIGN CHOICE, log 2 and 3). -/
def Env.start : Env :=
  { inputs := [], inputNo := 0, lastOut := { busRdata := 0, txOk := false, pinClaim := false } }

/-- The machine right after reset, for a build. -/
def State.resetOf (b : Build) : State :=
  { build := b, host := HostSide.resetOf b, eng := EngineSide.resetOf b, env := Env.start }

/-- The machine right after reset: this hardware's build (R8, R59). -/
def State.reset : State := State.resetOf Config.thisHardware

/-- The state with another host side. -/
def State.withHost (s : State) (h : HostSide) : State := { s with host := h }

/-- The state with another engine side. -/
def State.withEng (s : State) (e : EngineSide) : State := { s with eng := e }

/-- The state with other outputs last read by the host. -/
def State.withLastOut (s : State) (o : HostOut) : State := { s with env := { s.env with lastOut := o } }

/-- The state with other events to come. -/
def State.withInputs (s : State) (es : List Event) : State := { s with env := { s.env with inputs := es } }

end Sys2Proof.Machine
end

