-- ==== Sys2Proof/Machine/Ops.lean ====
section
/-! DEFINITION. The named operations: the storage spaces, the Gray code and the pointers, the synchronisers,
the FIFO's push and pop, the shift of OSR, and taking a ConfigFault. -/

namespace Sys2Proof.Machine

/-! ## Outcomes -/

/-- Apply a function to the next state, if there is one. -/
def mapNext (f : State → State) : Host.Outcome State Fault Refusal → Host.Outcome State Fault Refusal
  | .next s => .next (f s)
  | .fault r => .fault r
  | .refused r => .refused r

/-- Go on with the next state, if there is one. -/
def bindNext (o : Host.Outcome State Fault Refusal) (f : State → Host.Outcome State Fault Refusal) :
    Host.Outcome State Fault Refusal :=
  match o with
  | .next s => f s
  | .fault r => .fault r
  | .refused r => .refused r

/-! ## Storage spaces (20_memory.md R60) -/

/-- The word at an index; an unlisted index reads as 0 (R59). -/
def Memory.read {w : Nat} : Memory w → Nat → BitVec w
  | [], _ => 0
  | (b, v) :: m, a => if a = b then v else Memory.read m a

/-- Write one whole word (R67), keeping the canonical form: a word of 0 is not listed. -/
def Memory.write {w : Nat} : Memory w → Nat → BitVec w → Memory w
  | [], a, v => if v = 0 then [] else [(a, v)]
  | (b, u) :: m, a, v =>
    if a < b then (if v = 0 then (b, u) :: m else (a, v) :: (b, u) :: m)
    else if a = b then (if v = 0 then m else (a, v) :: m)
    else (b, u) :: Memory.write m a v

/-- Every listed index is above `lo` or equal to it, indices strictly rise, and no listed word is 0. -/
def Memory.wfFrom {w : Nat} : Nat → Memory w → Bool
  | _, [] => true
  | lo, (a, v) :: m => decide (lo ≤ a) && decide (v ≠ 0) && Memory.wfFrom (a + 1) m

/-- The canonical form. -/
def Memory.wf {w : Nat} (m : Memory w) : Bool := Memory.wfFrom 0 m

/-- Every listed index is below `n`: the space has `n` words. -/
def Memory.below {w : Nat} (m : Memory w) (n : Nat) : Bool := m.all fun c => decide (c.1 < n)

/-! ## Gray code (10_state.md R44) -/

/-- `bin2gray(b) = b XOR (b >> 1)`. -/
def bin2gray (b : Ptr) : Ptr := b ^^^ (b >>> 1)

/-- `gray2bin(g)`: bit i is the XOR of the bits of g from i up, which is R44's bit by bit rule. -/
def gray2bin (g : Ptr) : Ptr := g ^^^ (g >>> 1) ^^^ (g >>> 2) ^^^ (g >>> 3)

/-! ## FIFO pointers (10_state.md R30, R31, R42) -/

/-- The pointers count modulo 2·FIFO_DEPTH. -/
def ptrModulus (b : Build) : Nat := 2 * b.fifoDepth

/-- `(p + 1) mod (2·FIFO_DEPTH)`. -/
def ptrNext (b : Build) (p : Ptr) : Ptr := BitVec.ofNat 4 ((p.toNat + 1) % ptrModulus b)

/-- The slot of a pointer, `p mod FIFO_DEPTH`. -/
def slotOf (b : Build) (p : Ptr) : Nat := p.toNat % b.fifoDepth

/-- `(to − from) mod (2·FIFO_DEPTH)`: how many words lie from one pointer up to another. -/
def ptrDist (b : Build) (p q : Ptr) : Nat := (q.toNat + ptrModulus b - p.toNat) % ptrModulus b

/-! ## Synchronisers (10_state.md R32 to R34) -/

/-- One edge of a synchroniser: stage 1 takes the source's value and every other stage the one before it. -/
def shiftIn {α : Type} (v : α) (stages : List α) : List α := (v :: stages).take stages.length

/-- The last stage, the one that logic reads. -/
def lastStage {α : Type} (dflt : α) (stages : List α) : α := stages.getLastD dflt

/-! ## The push and the pop (42_transmit_queue.md R140, R144) -/

/-- Store a word at the write pointer and advance it with its Gray code (R140's accepted branch). -/
def HostSide.enqueue (b : Build) (data : Word) (h : HostSide) : HostSide :=
  { h with
    fifoMem := h.fifoMem.write (slotOf b h.wptr) data
    wptr := ptrNext b h.wptr
    wgray := bin2gray (ptrNext b h.wptr) }

/-- Load OSR from the read pointer's slot and advance the pointer with its Gray code: the refill of
41_timing_program.md R117, which leaves no bit shifted out. -/
def EngineSide.load (b : Build) (fifoMem : Memory 32) (e : EngineSide) : EngineSide :=
  { e with
    osr := fifoMem.read (slotOf b e.rptr)
    osrCnt := 0
    rptr := ptrNext b e.rptr
    rgray := bin2gray (ptrNext b e.rptr) }

/-! ## The shift (41_timing_program.md R117) -/

/-- The bit that leaves first: bit 31 for MSB_FIRST, bit 0 for LSB_FIRST (20_memory.md R64). -/
def frontBit (dir : ShiftDir) (w : BitVec Config.osrBits) : Bool :=
  match dir with
  | .msbFirst => w[31]
  | .lsbFirst => w[0]

/-- OSR after its front bit has left; a 0 comes in. -/
def shiftedOut (dir : ShiftDir) (w : BitVec Config.osrBits) : BitVec Config.osrBits :=
  match dir with
  | .msbFirst => w <<< 1
  | .lsbFirst => w >>> 1

/-- `zext_32(bit)`. -/
def wordOfBit (bit : Bool) : BitVec Config.xBits := (BitVec.ofBool bit).setWidth 32

/-- Shift one bit of OSR into X and count it. -/
def EngineSide.shiftBit (dir : ShiftDir) (e : EngineSide) : EngineSide :=
  { e with osr := shiftedOut dir e.osr, osrCnt := e.osrCnt + 1, x := wordOfBit (frontBit dir e.osr) }

/-! ## Issue (41_timing_program.md R115) -/

/-- The side-set: drive the output level. -/
def EngineSide.drive (side : Bool) (e : EngineSide) : EngineSide := { e with dout := side }

/-- What every micro-op that does not stall does: drive the level, load the delay, set pc. -/
def EngineSide.issued (side : Bool) (delay : BitVec Config.delayBits) (pc : BitVec 5) (e : EngineSide) : EngineSide :=
  { e with dout := side, delayCnt := delay, pc := pc }

/-! ## Taking a configuration fault (60_exceptions.md R181 to R183) -/

/-- The configuration faults (R181). -/
inductive ConfigError
  | divZero
  | progSize
  | progIllegal
  | progTarget
  | pin
  deriving DecidableEq, Repr

/-- The code STATUS.ERR records (R181). -/
def configErrorCode : ConfigError → BitVec 4
  | .divZero => 1
  | .progSize => 2
  | .progIllegal => 3
  | .progTarget => 4
  | .pin => 5

/-- `raise ConfigFault(code, addr)`: ERR, ERR_ADDR and LIFE are written and nothing else (R167, R183). There
is no vector, no saved register and no return but reset (R183, R184). -/
def HostSide.configFault (code : ConfigError) (addr : BitVec 5) (h : HostSide) : HostSide :=
  { h with err := configErrorCode code, errAddr := addr, life := .fault }

end Sys2Proof.Machine
end

