-- ==== Sys2Proof/Machine/Flags.lean ====
section
/-! DEFINITION. The block has no status flag and no condition code (10_state.md R43). What stands in their
place is computed here from the state: the condition of JMP !X, the full and empty views of the FIFO, the
outputs `tx_ok` and `pin_claim`, and the fields of STATUS. -/

namespace Sys2Proof.Machine

/-- The one condition a micro-op tests: X = 0 (R43, R119). -/
def xIsZero (e : EngineSide) : Bool := e.x == 0

/-- `osr_cnt = WORD_BITS`: the loaded word is exhausted (R39). -/
def osrExhausted (e : EngineSide) : Bool := e.osrCnt.toNat == Config.wordBits

/-! ## The host view of the FIFO (42_transmit_queue.md R142) -/

/-- `rptr_h = gray2bin(rs[SYNC_STAGES])`. -/
def rptrH (h : HostSide) : Ptr := gray2bin (lastStage 0 h.rs)

/-- `occ_h = (wptr − rptr_h) mod (2·FIFO_DEPTH)`. -/
def occH (b : Build) (h : HostSide) : Nat := ptrDist b (rptrH h) h.wptr

/-- `full_h = (occ_h = FIFO_DEPTH)`. -/
def fullH (b : Build) (h : HostSide) : Bool := occH b h == b.fifoDepth

/-! ## The engine view of the FIFO (R143) -/

/-- `wptr_e = gray2bin(ws[SYNC_STAGES])`. -/
def wptrE (e : EngineSide) : Ptr := gray2bin (lastStage 0 e.ws)

/-- `occ_e = (wptr_e − rptr) mod (2·FIFO_DEPTH)`. -/
def occE (b : Build) (e : EngineSide) : Nat := ptrDist b e.rptr (wptrE e)

/-- `empty_e = (rptr = wptr_e)` (R117), which is `occ_e = 0` (R143). -/
def emptyE (e : EngineSide) : Bool := e.rptr == wptrE e

/-! ## The run level and the tick (10_state.md R33, 41_timing_program.md R112) -/

/-- `run_e = run_s[SYNC_STAGES]`. -/
def runE (e : EngineSide) : Bool := lastStage false e.runS

/-- The next engine edge is a tick: the run level has crossed and `div_cnt = 0`. -/
def tickDue (e : EngineSide) : Bool := runE e && e.divCnt == 0

/-! ## The outputs (10_state.md R56, R57) -/

/-- LIFE is CONFIGURED or RUNNING: the queue exists and the pin is owned. -/
def lifeActive : Life → Bool
  | .configured | .running => true
  | .uninit | .fault => false

/-- `tx_ok`. -/
def txOk (b : Build) (h : HostSide) : Bool := lifeActive h.life && !fullH b h

/-- `pin_claim`. -/
def pinClaim (h : HostSide) : Bool := lifeActive h.life

/-! ## STATUS (10_state.md R47) -/

/-- LIFE as its two bits (R24). -/
def lifeBits : Life → BitVec 2
  | .uninit => 0
  | .configured => 1
  | .running => 2
  | .fault => 3

/-- `{zeros(19), ERR_ADDR, ERR, 0b0, full_h, LIFE}`. -/
def statusWord (b : Build) (h : HostSide) : Word :=
  0#19 ++ h.errAddr ++ h.err ++ 0#1 ++ BitVec.ofBool (fullH b h) ++ lifeBits h.life

end Sys2Proof.Machine
end

