-- ==== Sys2Proof/Machine/Operands.lean ====
section
/-! DEFINITION. What the operands of an instruction name: the sequential successor of pc, the registers
behind a bus index with their read values, the constants of the build, and the program a CONFIGURE
validates. -/

namespace Sys2Proof.Machine

/-- `next(pc)`: 0 after the last word of the program, else pc + 1 in 5 bits (41_timing_program.md R116). -/
def nextPc (len : BitVec 6) (pc : BitVec 5) : BitVec 5 :=
  if pc.toNat + 1 = len.toNat then 0 else pc + 1

/-! ## The divisor (40_divisor.md) -/

/-- DIVCALC: `zext_16(floor(FCLK / KDIV))` (R101). -/
def divCalc (fclk : BitVec Config.fclkBits) : BitVec Config.clkdivBits := BitVec.ofNat 16 (fclk.toNat / Config.kdiv)

/-! ## The constant registers (10_state.md R51 to R53) -/

/-- 1 for LSB_FIRST, 0 for MSB_FIRST (R52). -/
def shiftDirBit : ShiftDir → BitVec 1
  | .msbFirst => 0
  | .lsbFirst => 1

/-- TIMING: T1 in 4:0, T2 in 12:8, T3 in 20:16, CYCLES_PER_BIT in 29:24 (R51). -/
def timingWord (b : Build) : Word :=
  0#2 ++ BitVec.ofNat 6 Config.cyclesPerBit ++ 0#3 ++ BitVec.ofNat 5 b.t3 ++ 0#3 ++ BitVec.ofNat 5 b.t2 ++ 0#3
    ++ BitVec.ofNat 5 b.t1

/-- PARAM: SHIFT_DIR in 0, FIFO_DEPTH in 11:8, WORD_BITS in 21:16, SYNC_STAGES in 27:24 (R52). -/
def paramWord (b : Build) : Word :=
  0#4 ++ BitVec.ofNat 4 b.syncStages ++ 0#2 ++ BitVec.ofNat 6 Config.wordBits ++ 0#4 ++ BitVec.ofNat 4 b.fifoDepth
    ++ 0#7 ++ shiftDirBit b.shiftDir

/-- KDIV (R53). -/
def kdivWord : Word := BitVec.ofNat 32 Config.kdiv

/-! ## The register space (10_state.md R45) -/

/-- What a bus index names (R45). -/
inductive HostReg
  | ctrl
  | status
  | fclk
  | clkdiv
  | progcfg
  | timing
  | param
  | kdiv
  | reserved
  | imem (a : Nat)
  deriving DecidableEq, Repr

/-- The register map, all 64 indices (R45). -/
def hostRegOf (i : BitVec 6) : HostReg :=
  if 32 ≤ i.toNat then .imem (i.toNat - 32)
  else
    match i.toNat with
    | 0 => .ctrl
    | 1 => .status
    | 2 => .fclk
    | 3 => .clkdiv
    | 4 => .progcfg
    | 5 => .timing
    | 6 => .param
    | 7 => .kdiv
    | _ => .reserved

/-- The read value of a register, from the host-domain state before the edge (R58, 43_engine_control.md
R163). -/
def readReg (b : Build) (h : HostSide) (i : BitVec 6) : Word :=
  match hostRegOf i with
  | .ctrl => 0
  | .status => statusWord b h
  | .fclk => h.fclk
  | .clkdiv => h.clkdiv.setWidth 32
  | .progcfg => h.len.setWidth 32
  | .timing => timingWord b
  | .param => paramWord b
  | .kdiv => kdivWord
  | .reserved => 0
  | .imem a => (h.imem.read a).setWidth 32

/-- The outputs the host reads at a host edge with `bus_addr = i`, from the state before the edge (R18, R56
to R58). -/
def hostOutputs (b : Build) (h : HostSide) (i : BitVec 6) : HostOut :=
  { busRdata := readReg b h i, txOk := txOk b h, pinClaim := pinClaim h }

/-! ## Validate (43_engine_control.md R164) -/

/-- The check of one program word: reserved, or a jump whose target is at or beyond LEN (R164). -/
def checkWord (len : Nat) (w : MicroWord) : Option ConfigError :=
  match decodeMicro w with
  | .error _ => some .progIllegal
  | .ok (.jmp _ _ target) => if len ≤ target.toNat then some .progTarget else none
  | .ok (.jmpNotX _ _ target) => if len ≤ target.toNat then some .progTarget else none
  | .ok _ => none

/-- The first failing word among the `n` words from index `a` up, with its index (R164, R182). -/
def scanProgram (imem : Memory Config.instrBits) (len : Nat) : Nat → Nat → Option (ConfigError × BitVec 5)
  | 0, _ => none
  | n + 1, a =>
    match checkWord len (imem.read a) with
    | some e => some (e, BitVec.ofNat 5 a)
    | none => scanProgram imem len n (a + 1)

/-- `Validate()`: the first failing check in the order PIN, DIV_ZERO, PROG_SIZE, then the words in
increasing index (R164, R182). `none` is R164's (0, 0). -/
def validate (pinGrant : Bool) (h : HostSide) : Option (ConfigError × BitVec 5) :=
  if !pinGrant then some (.pin, 0)
  else if divCalc h.fclk = 0 then some (.divZero, 0)
  else if h.len = 0 ∨ Config.imemDepth < h.len.toNat then some (.progSize, 0)
  else scanProgram h.imem h.len.toNat h.len.toNat 0

end Sys2Proof.Machine
end

