-- ==== Sys2Proof/Machine/Engine.lean ====
section
/-! DEFINITION. The meanings of the four micro-ops (41_timing_program.md R115 to R120). A meaning is what the
engine does on the tick that issues the micro-op, on the state before the edge: the side-set of Issue, then
the micro-op's own effect. None can fault (60_exceptions.md R194). -/

namespace Sys2Proof.Machine

/-- `JMP target`: pc becomes the absolute target (R118). -/
def execJmp (side : Bool) (delay : BitVec Config.delayBits) (target : BitVec 5) (s : State) :
    Host.Outcome State Fault Refusal :=
  .next (s.withEng (s.eng.issued side delay target))

/-- `JMP !X, target`: pc becomes the target if X = 0, its successor otherwise (R119). -/
def execJmpNotX (side : Bool) (delay : BitVec Config.delayBits) (target : BitVec 5) (s : State) :
    Host.Outcome State Fault Refusal :=
  .next (s.withEng (s.eng.issued side delay
    (if xIsZero s.eng then target else nextPc s.host.len s.eng.pc)))

/-- The engine side after `OUT X, 1` (R117): with the word exhausted and the engine view empty it stalls,
and only drives its level; otherwise it refills if the word is exhausted, shifts one bit into X, and
issues. -/
def outStep (b : Build) (fifoMem : Memory 32) (len : BitVec 6) (side : Bool) (delay : BitVec Config.delayBits)
    (e : EngineSide) : EngineSide :=
  if osrExhausted e && emptyE e then e.drive side
  else
    ((if osrExhausted e then e.load b fifoMem else e).shiftBit b.shiftDir).issued side delay (nextPc len e.pc)

/-- `OUT X, 1`: shift one bit into X, with autopull (R117). -/
def execOutX (side : Bool) (delay : BitVec Config.delayBits) (s : State) : Host.Outcome State Fault Refusal :=
  .next (s.withEng (outStep s.build s.host.fifoMem s.host.len side delay s.eng))

/-- `NOP`: drive the side-set level for 1 + delay ticks (R120). -/
def execNop (side : Bool) (delay : BitVec Config.delayBits) (s : State) : Host.Outcome State Fault Refusal :=
  .next (s.withEng (s.eng.issued side delay (nextPc s.host.len s.eng.pc)))

end Sys2Proof.Machine
end

