-- ==== Sys2Proof/Machine/HostPort.lean ====
section
/-! DEFINITION. The meanings of the five host operations (30_encoding.md R95): each is its effect at one host
edge on the state before the edge. None can fault the machine: a failing CONFIGURE records its fault and the
block goes on (60_exceptions.md R180, R183). -/

namespace Sys2Proof.Machine

/-- `Configure()`, run only in UNINIT: CLKDIV is written whether the checks pass or fail; then LIFE becomes
CONFIGURED, or the ConfigFault is taken (43_engine_control.md R166 to R168). -/
def HostSide.configure (pinGrant : Bool) (h : HostSide) : HostSide :=
  let written := { h with clkdiv := divCalc h.fclk }
  match validate pinGrant h with
  | none => { written with life := .configured }
  | some (code, addr) => written.configFault code addr

/-- `Start()`, run only in CONFIGURED (R169). -/
def HostSide.start (h : HostSide) : HostSide := { h with life := .running }

/-- A write of CTRL: CONFIGURE acts in UNINIT if its bit is set, else START acts in CONFIGURED if its bit is
set, else nothing (R162, R170). -/
def HostSide.writeCtrl (configureBit startBit pinGrant : Bool) (h : HostSide) : HostSide :=
  if configureBit ∧ h.life = .uninit then h.configure pinGrant
  else if startBit ∧ h.life = .configured then h.start
  else h

/-- `RegWrite(i, v)` (R162). FCLK, PROGCFG and IMEM are stored only in UNINIT (R161); a write to a read-only
or reserved register does nothing. -/
def HostSide.writeReg (i : BitVec 6) (v : Word) (pinGrant : Bool) (h : HostSide) : HostSide :=
  match hostRegOf i with
  | .ctrl => h.writeCtrl v[0] v[1] pinGrant
  | .fclk => if h.life = .uninit then { h with fclk := v } else h
  | .progcfg => if h.life = .uninit then { h with len := v.setWidth 6 } else h
  | .imem a => if h.life = .uninit then { h with imem := h.imem.write a (v.setWidth 16) } else h
  | .status => h
  | .clkdiv => h
  | .timing => h
  | .param => h
  | .kdiv => h
  | .reserved => h

/-- `Push(tx_data)`: store the word if `tx_ok`, else nothing (42_transmit_queue.md R140). -/
def HostSide.push (b : Build) (data : Word) (h : HostSide) : HostSide :=
  if txOk b h then h.enqueue b data else h

/-- REG_READ: `bus_rdata` is the register's value before the edge; nothing else changes (R163). -/
def execRegRead (index : BitVec 6) (s : State) : Host.Outcome State Fault Refusal :=
  .next (s.withLastOut { s.env.lastOut with busRdata := readReg s.build s.host index })

/-- REG_WRITE (R162). -/
def execRegWrite (index : BitVec 6) (wdata : Word) (pinGrant : Bool) (s : State) :
    Host.Outcome State Fault Refusal :=
  .next (s.withHost (s.host.writeReg index wdata pinGrant))

/-- CONFIGURE: the write of CTRL with bit 0 set (R166). Outside UNINIT its bit 1 may still be START's
(R170); its bits 31:2 are ignored (R46). -/
def execConfigure (startBit : Bool) (_reserved : BitVec 30) (pinGrant : Bool) (s : State) :
    Host.Outcome State Fault Refusal :=
  .next (s.withHost (s.host.writeCtrl true startBit pinGrant))

/-- START: the write of CTRL with bit 1 set and bit 0 clear (R169). Its bits 31:2 are ignored (R46). -/
def execStart (_reserved : BitVec 30) (s : State) : Host.Outcome State Fault Refusal :=
  .next (s.withHost (s.host.writeCtrl false true false))

/-- PUSH: the word is enqueued if `tx_ok` before the edge, and that `tx_ok` is write()'s Boolean result
(R140). -/
def execPush (data : Word) (s : State) : Host.Outcome State Fault Refusal :=
  .next ((s.withHost (s.host.push s.build data)).withLastOut { s.env.lastOut with txOk := txOk s.build s.host })

end Sys2Proof.Machine
end

