-- ==== Sys2Proof/Machine/Dispatch.lean ====
section
/-! DEFINITION. One arm per instruction: which meaning runs it. -/

namespace Sys2Proof.Machine

def exec (i : Instr) (s : State) : Host.Outcome State Fault Refusal :=
  match i with
  -- the micro-ops, executed by the engine at a tick
  | .jmp side delay target => Sys2Proof.Machine.execJmp side delay target s
  | .jmpNotX side delay target => Sys2Proof.Machine.execJmpNotX side delay target s
  | .outX side delay => Sys2Proof.Machine.execOutX side delay s
  | .nop side delay => Sys2Proof.Machine.execNop side delay s
  -- the host operations, executed at a host edge
  | .regRead index => Sys2Proof.Machine.execRegRead index s
  | .regWrite index wdata pinGrant => Sys2Proof.Machine.execRegWrite index wdata pinGrant s
  | .configure startBit reserved pinGrant => Sys2Proof.Machine.execConfigure startBit reserved pinGrant s
  | .start reserved => Sys2Proof.Machine.execStart reserved s
  | .push data => Sys2Proof.Machine.execPush data s

end Sys2Proof.Machine
end

