-- ==== Sys2Proof/Machine/Edges.lean ====
section
/-! DEFINITION. The events: the engine edge (41_timing_program.md R110 to R115), the host edge
(43_engine_control.md R160) and the reset (70_reset_and_hazards.md R200). At an edge every right-hand side
reads the state before the edge and all writes take effect together (00_scope.md R11). -/

namespace Sys2Proof.Machine

/-! ## The engine edge -/

/-- The word the engine fetches, `IMEM[pc]` (R115). -/
def fetchWord (s : State) : MicroWord := s.host.imem.read s.eng.pc.toNat

/-- Issue: fetch, decode and execute one micro-op; a reserved word is the named fault (R115, R121). -/
def issue (s : State) : Host.Outcome State Fault Refusal :=
  match decodeMicro (fetchWord s) with
  | .ok i => exec i s
  | .error _ => .fault (.reservedFetched s.eng.pc (fetchWord s))

/-- `Tick()`: a delay tick only counts down; any other tick issues (R114, R115). -/
def tick (s : State) : Host.Outcome State Fault Refusal :=
  if s.eng.delayCnt = 0 then issue s
  else .next (s.withEng { s.eng with delayCnt := s.eng.delayCnt - 1 })

/-- The divider's next count while the run level is 1: back to 0 after CLKDIV edges, compared without
overflow (R110, R112). -/
def divNext (clkdiv divCnt : BitVec Config.clkdivBits) : BitVec Config.clkdivBits :=
  if divCnt.toNat + 1 = clkdiv.toNat then 0 else divCnt + 1

/-- The writes every engine edge makes, from the state `pre` before the edge: the two synchronisers and,
while the run level has crossed, the divider (R110). They fall on `e`, what the tick made of the engine side;
no tick writes these registers. -/
def clockEngine (pre : State) (e : EngineSide) : EngineSide :=
  { e with
    runS := shiftIn (pre.host.life == .running) pre.eng.runS
    ws := shiftIn pre.host.wgray pre.eng.ws
    divCnt := if runE pre.eng then divNext pre.host.clkdiv pre.eng.divCnt else pre.eng.divCnt }

/-- `EngineEdge()` (R110). -/
def engineEdge (s : State) : Host.Outcome State Fault Refusal :=
  mapNext (fun t => t.withEng (clockEngine s t.eng)) (if tickDue s.eng then tick s else .next s)

/-! ## The host edge -/

/-- The push port's part of a host edge: its operation, or nothing (R141). -/
def runTx (p : TxIn) (s : State) : Host.Outcome State Fault Refusal :=
  match decodeTx p with
  | .ok i => exec i s
  | .error _ => .next s

/-- The joint writes of a host edge. `pre` is the state before the edge, `bus` what the bus port's operation
made of it and `tx` what the push port's operation made of it: FIFO_MEM, wptr and wgray are the push's, every
other host register is the bus operation's, `rs` is the synchroniser's (R160), and the host has read the
outputs of `pre` (R18). -/
def commitHost (addr : BitVec 6) (pre bus tx : State) : State :=
  (pre.withHost
    { bus.host with
      fifoMem := tx.host.fifoMem
      wptr := tx.host.wptr
      wgray := tx.host.wgray
      rs := shiftIn pre.eng.rgray pre.host.rs }).withLastOut (hostOutputs pre.build pre.host addr)

/-- `HostEdge()`: the bus operation and the push, each on the state before the edge, then all writes
together (R160). -/
def hostEdge (ports : HostIn) (s : State) : Host.Outcome State Fault Refusal :=
  bindNext (exec (decodeBus ports.bus) s) fun bus =>
    mapNext (fun tx => commitHost ports.bus.addr s bus tx) (runTx ports.tx s)

/-! ## The reset event -/

/-- Every register of both domains takes its reset value at once (R22, R59, R200). The build and the model's
own fields are not registers of the block and stay (log 4). -/
def resetEvent (s : State) : State :=
  { build := s.build, host := HostSide.resetOf s.build, eng := EngineSide.resetOf s.build, env := s.env }

/-! ## One event -/

/-- What one event does (R16, R17). -/
def runEvent (ev : Event) (s : State) : Host.Outcome State Fault Refusal :=
  match ev with
  | .hostEdge ports => hostEdge ports s
  | .engineEdge => engineEdge s
  | .reset => .next (resetEvent s)

/-- The next event and the state without it: the first one listed, or a free one (R17, R19; log 2). -/
def takeEvent (s : State) : Event × State :=
  match s.env.inputs with
  | ev :: rest => (ev, s.withInputs rest)
  | [] => (Config.freeEvent s.env.inputNo, { s with env := { s.env with inputNo := s.env.inputNo + 1 } })

/-! ## Placing one instruction where the next step finds it -/

/-- Put a micro-op where the very next engine edge issues it: the word at `IMEM[pc]`, the run level crossed
in every stage, the divider at its tick, no delay left, and an engine edge as the next event (log 9). -/
def placeMicro (w : MicroWord) (s : State) : State :=
  { s with
    host := { s.host with imem := s.host.imem.write s.eng.pc.toNat w }
    eng := { s.eng with runS := s.eng.runS.map fun _ => true, divCnt := 0, delayCnt := 0 }
    env := { s.env with inputs := .engineEdge :: s.env.inputs } }

/-- Present the ports at the very next event, a host edge. -/
def placePorts (ports : HostIn) (s : State) : State := s.withInputs (.hostEdge ports :: s.env.inputs)

/-- Place the instruction a code stands for. -/
def placeCode (c : Code) (s : State) : State :=
  match c with
  | .imem w => placeMicro w s
  | .bus p => placePorts (portsOfBus p) s
  | .tx p => placePorts (portsOfTx p) s

end Sys2Proof.Machine
end

