-- ==== Sys2Proof/Machine/Step.lean ====
section
/-! DEFINITION. One step is one event of the schedule (00_scope.md R17): a host edge, an engine edge or a
reset. -/

namespace Sys2Proof.Machine

/-- One step of the machine. -/
def step (s : State) : Host.Outcome State Fault Refusal :=
  let (ev, t) := takeEvent s
  runEvent ev t

/-- The state in which the next step fetches and runs the instruction of `nbits` bits whose bits are `w`
(log 9). -/
def State.withFetchWord (s : State) (nbits w : Nat) : State := placeCode (codeOfTableWord nbits w) s

end Sys2Proof.Machine
end

