-- ==== Sys2Proof/Machine/Assembler.lean ====
section
/-! DEFINITION. The assembler of 30_encoding.md R92 to R94: program text to the words of IMEM, total, with an
error of its own name for each way a text is no program. It is the host's tool, not a part of the block; the
lexical points R92 leaves open are log 16. -/

namespace Sys2Proof.Assembler

/-- A token of one line. -/
inductive Token
  | word (s : String)
  | num (n : Nat)
  | sym (c : Char)
  deriving DecidableEq, Repr

/-- Why a text is no program ("is an assembly error", R92). -/
inductive AsmError
  | badCharacter (c : Char)
  | badToken (s : String)
  /-- A mnemonic other than out, jmp and nop, or a directive other than R92's four. -/
  | notAdmitted (s : String)
  /-- Operands of no admitted form. -/
  | badOperands (s : String)
  /-- `side` is missing or its value is not 0 or 1. -/
  | badSide
  /-- The text after the side value is not `[expr]`, or an expression is none. -/
  | badExpression
  /-- The delay is not 0 to 15. -/
  | delayRange (d : Int)
  /-- A jump target is not 0 to 31. -/
  | targetRange (t : Int)
  | undefinedName (s : String)
  | duplicateName (s : String)
  /-- The program does not open with `.side_set 1`, or opens twice. -/
  | sideSetRequired
  /-- `.wrap_target` after an instruction, or `.wrap` before one. -/
  | misplacedWrap
  deriving DecidableEq, Repr

/-! ## Tokens -/

/-- The characters of a name or a number. -/
def isWordChar (c : Char) : Bool := c.isAlphanum || c == '_' || c == '.'

/-- The symbols of R92's statements and expressions. -/
def isSymbol (c : Char) : Bool := ['[', ']', ',', ':', '!', '+', '-', '*'].contains c

/-- The value of decimal digits. -/
def decimal (ds : List Char) : Nat := ds.foldl (fun n d => 10 * n + (d.toNat - '0'.toNat)) 0

/-- The token of a run of word characters, given last character first. -/
def closeWord (rev : List Char) (rest : List Token) : Except AsmError (List Token) :=
  match rev.reverse with
  | [] => .ok rest
  | c :: cs =>
    if (c :: cs).all Char.isDigit then .ok (.num (decimal (c :: cs)) :: rest)
    else if c.isDigit then .error (.badToken (String.ofList (c :: cs)))
    else .ok (.word (String.ofList (c :: cs)) :: rest)

/-- The tokens of one line, up to a comment; `rev` is the word read so far, last character first. -/
def lexFrom (rev : List Char) : List Char → Except AsmError (List Token)
  | [] => closeWord rev []
  | c :: cs =>
    if c == ';' then closeWord rev []
    else if isWordChar c then lexFrom (c :: rev) cs
    else if c == ' ' || c == '\t' then
      match lexFrom [] cs with
      | .error e => .error e
      | .ok ts => closeWord rev ts
    else if isSymbol c then
      match lexFrom [] cs with
      | .error e => .error e
      | .ok ts => closeWord rev (.sym c :: ts)
    else .error (.badCharacter c)

/-- The lines of a text. -/
def linesFrom (rev : List Char) : List Char → List (List Char)
  | [] => [rev.reverse]
  | c :: cs => if c == '\n' then rev.reverse :: linesFrom [] cs else linesFrom (c :: rev) cs

/-! ## Constants -/

/-- The names with a value, the newest first. -/
abbrev Names := List (String × Int)

/-- The value of a name, if it has one. -/
def Names.find (names : Names) (s : String) : Option Int :=
  match names with
  | [] => none
  | (t, v) :: rest => if s = t then some v else Names.find rest s

/-- The value of one operand of an expression. -/
def factor (names : Names) : Token → Except AsmError Int
  | .num n => .ok n
  | .word s => match names.find s with
    | some v => .ok v
    | none => .error (.undefinedName s)
  | .sym _ => .error .badExpression

/-- The rest of an expression after `sum` and the product `prod`: `+`, `-` and `*` on constants, with `*`
binding tighter. -/
def exprRest (names : Names) (sum prod : Int) : List Token → Except AsmError Int
  | [] => .ok (sum + prod)
  | .sym '+' :: t :: ts => match factor names t with
    | .ok v => exprRest names (sum + prod) v ts
    | .error e => .error e
  | .sym '-' :: t :: ts => match factor names t with
    | .ok v => exprRest names (sum + prod) (-v) ts
    | .error e => .error e
  | .sym '*' :: t :: ts => match factor names t with
    | .ok v => exprRest names sum (prod * v) ts
    | .error e => .error e
  | _ => .error .badExpression

/-- The value of a constant expression (R92). An expression begins with an operand: a leading sign is refused
(DESIGN CHOICE, log 16). -/
def expr (names : Names) : List Token → Except AsmError Int
  | [] => .error .badExpression
  | t :: ts => match factor names t with
    | .ok v => exprRest names 0 v ts
    | .error e => .error e

/-! ## Statements -/

/-- The operation of an instruction statement, a jump's target not yet resolved. -/
inductive Operation
  | outX
  | jmp (target : Token)
  | jmpNotX (target : Token)
  | nop
  deriving DecidableEq, Repr

/-- One statement. -/
inductive Stmt
  | sideSet
  | define (name : String) (value : List Token)
  | wrapTarget
  | wrap
  | label (name : String)
  | instr (op : Operation) (side : Bool) (delay : List Token)
  deriving DecidableEq, Repr

/-- A jump target is a label or an index. -/
def isTarget : Token → Bool
  | .word _ => true
  | .num _ => true
  | .sym _ => false

/-- `side <0|1>` and an optional `[<delay>]`, which defaults to 0 (R92). -/
def sideAndDelay (op : Operation) : List Token → Except AsmError Stmt
  | .word "side" :: .num n :: ts =>
    if 2 ≤ n then .error .badSide
    else
      match ts with
      | [] => .ok (.instr op (n == 1) [.num 0])
      | .sym '[' :: rest =>
        if rest.getLast? = some (.sym ']') then .ok (.instr op (n == 1) rest.dropLast) else .error .badExpression
      | _ => .error .badExpression
  | _ => .error .badSide

/-- An instruction statement or a directive (R92). The comma of `jmp !x, label` is optional (R93). In a `.define`,
`public` is the keyword where a name follows it and the constant's own name elsewhere (DESIGN CHOICE, log 16). -/
def statement : List Token → Except AsmError Stmt
  | .word "out" :: .word "x" :: .sym ',' :: .num 1 :: ts => sideAndDelay .outX ts
  | .word "jmp" :: .sym '!' :: .word "x" :: .sym ',' :: t :: ts =>
    if isTarget t then sideAndDelay (.jmpNotX t) ts else .error (.badOperands "jmp")
  | .word "jmp" :: .sym '!' :: .word "x" :: t :: ts =>
    if isTarget t then sideAndDelay (.jmpNotX t) ts else .error (.badOperands "jmp")
  | .word "jmp" :: t :: ts => if isTarget t then sideAndDelay (.jmp t) ts else .error (.badOperands "jmp")
  | .word "nop" :: ts => sideAndDelay .nop ts
  | [.word ".side_set", .num 1] => .ok .sideSet
  | .word ".define" :: .word "public" :: .word name :: ts => .ok (.define name ts)
  | .word ".define" :: .word name :: ts => .ok (.define name ts)
  | [.word ".wrap_target"] => .ok .wrapTarget
  | [.word ".wrap"] => .ok .wrap
  | .word s :: _ =>
    if ["out", "jmp", ".side_set", ".define", ".wrap_target", ".wrap"].contains s then .error (.badOperands s)
    else .error (.notAdmitted s)
  | .num n :: _ => .error (.badToken (toString n))
  | .sym c :: _ => .error (.badCharacter c)
  | [] => .error .badExpression

/-- The statements of a line: an optional label, then at most one statement. That a line may be blank or hold a
comment alone, and that a label may stand before a directive, is a DESIGN CHOICE (log 16). -/
def lineStmts : List Token → Except AsmError (List Stmt)
  | [] => .ok []
  | [.word l, .sym ':'] => .ok [.label l]
  | .word l :: .sym ':' :: ts => match statement ts with
    | .ok st => .ok [.label l, st]
    | .error e => .error e
  | ts => match statement ts with
    | .ok st => .ok [st]
    | .error e => .error e

/-- The statements of the lines, in order. -/
def parseLines : List (List Char) → Except AsmError (List Stmt)
  | [] => .ok []
  | l :: ls => match lexFrom [] l with
    | .error e => .error e
    | .ok ts => match lineStmts ts with
      | .error e => .error e
      | .ok sts => match parseLines ls with
        | .error e => .error e
        | .ok rest => .ok (sts ++ rest)

/-! ## Two passes -/

/-- The statement is an instruction. -/
def Stmt.isInstr : Stmt → Bool
  | .instr _ _ _ => true
  | .sideSet | .define _ _ | .wrapTarget | .wrap | .label _ => false

/-- First pass: each label names the index of the next instruction, the program starting at index 0 (R92).
`.wrap_target` stands before index 0 and `.wrap` after the last instruction, each any number of times, and
`.side_set` only opens: that the wraps may repeat and `.side_set` may not is a DESIGN CHOICE (log 16). So is the value of a label with no
instruction after it, the number of instructions (log 16). -/
def labelsFrom (index : Nat) (names : Names) : List Stmt → Except AsmError Names
  | [] => .ok names
  | .label l :: sts =>
    if names.find l = none then labelsFrom index ((l, (index : Int)) :: names) sts else .error (.duplicateName l)
  | .instr _ _ _ :: sts => labelsFrom (index + 1) names sts
  | .wrapTarget :: sts => if index = 0 then labelsFrom index names sts else .error .misplacedWrap
  | .wrap :: sts => if sts.any Stmt.isInstr then .error .misplacedWrap else labelsFrom index names sts
  | .sideSet :: _ => .error .sideSetRequired
  | .define _ _ :: sts => labelsFrom index names sts

/-- A delay in 0 to 15 (R92). -/
def delayOf (names : Names) (ts : List Token) : Except AsmError (BitVec Config.delayBits) :=
  match expr names ts with
  | .error e => .error e
  | .ok d => if 0 ≤ d ∧ d ≤ 15 then .ok (BitVec.ofInt 4 d) else .error (.delayRange d)

/-- A target in 0 to 31, the values of its field (R81): a label, a number or the name of a constant, and not
compared with the program's length, which CONFIGURE checks (DESIGN CHOICE, log 16). -/
def targetOf (labels consts : Names) (t : Token) : Except AsmError (BitVec 5) :=
  match factor (labels ++ consts) t with
  | .error e => .error e
  | .ok v => if 0 ≤ v ∧ v ≤ 31 then .ok (BitVec.ofInt 5 v) else .error (.targetRange v)

/-- The instruction of one instruction statement (R94). -/
def instrOf (labels consts : Names) (op : Operation) (side : Bool) (delay : List Token) : Except AsmError Instr :=
  match delayOf consts delay with
  | .error e => .error e
  | .ok d =>
    match op with
    | .outX => .ok (.outX side d)
    | .nop => .ok (.nop side d)
    | .jmp t => match targetOf labels consts t with
      | .error e => .error e
      | .ok a => .ok (.jmp side d a)
    | .jmpNotX t => match targetOf labels consts t with
      | .error e => .error e
      | .ok a => .ok (.jmpNotX side d a)

/-- Second pass: the instructions, each constant defined before its use. -/
def emit (labels consts : Names) : List Stmt → Except AsmError (List Instr)
  | [] => .ok []
  | .define name ts :: sts =>
    if consts.find name = none ∧ labels.find name = none then
      match expr consts ts with
      | .error e => .error e
      | .ok v => emit labels ((name, v) :: consts) sts
    else .error (.duplicateName name)
  | .instr op side delay :: sts => match instrOf labels consts op side delay with
    | .error e => .error e
    | .ok i => match emit labels consts sts with
      | .error e => .error e
      | .ok is => .ok (i :: is)
  | .sideSet :: sts => emit labels consts sts
  | .wrapTarget :: sts => emit labels consts sts
  | .wrap :: sts => emit labels consts sts
  | .label _ :: sts => emit labels consts sts

/-- The program must open with `.side_set 1` (R92). A program with no instruction is no assembly error, and its list
is empty (DESIGN CHOICE, log 16). -/
def assembleStmts : List Stmt → Except AsmError (List Instr)
  | .sideSet :: sts => match labelsFrom 0 [] sts with
    | .error e => .error e
    | .ok labels => emit labels [] sts
  | _ => .error .sideSetRequired

/-- The word of a micro-op; a host operation has none. -/
def wordsOf (i : Instr) : List MicroWord :=
  match encode i with
  | .imem w => [w]
  | .bus _ => []
  | .tx _ => []

/-- Assemble a program text (R92 to R94), of any length: a text of more than 32 instructions is no assembly error
(DESIGN CHOICE, log 16). -/
def assemble (text : String) : Except AsmError (List MicroWord) :=
  match parseLines (linesFrom [] text.toList) with
  | .error e => .error e
  | .ok sts => match assembleStmts sts with
    | .error e => .error e
    | .ok is => .ok (is.flatMap wordsOf)

end Sys2Proof.Assembler
end

