-- ==== Sys2Proof/Safety.lean ====
section
/-! DEFINITION. The terms claims are stated in: runs and schedules (00_scope.md R17, R18), the invariant of
every reachable state (41_timing_program.md R124, 42_transmit_queue.md R145), the queue the FIFO stands for
(R146), the canonical program and its waveform (R126 to R131), quiescence (70_reset_and_hazards.md R214), and
the producer's duties (R209 to R211). Nothing here is part of the machine. -/

namespace Sys2Proof.Machine

/-! ## Runs -/

/-- The events of a list, one after the other, stopping at the first fault or refusal. -/
def runEvents : List Event → State → Host.Outcome State Fault Refusal
  | [], s => .next s
  | ev :: evs, s => bindNext (runEvent ev s) (runEvents evs)

/-- How many engine edges a list of events holds. -/
def engineEdges (evs : List Event) : Nat := evs.countP fun ev => ev == .engineEdge

/-- The event is a host edge. -/
def isHostEdge : Event → Bool
  | .hostEdge _ => true
  | .engineEdge => false
  | .reset => false

/-- How many host edges a list of events holds. -/
def hostEdges (evs : List Event) : Nat := evs.countP isHostEdge

/-- No event of the list is a reset. -/
def resetFree (evs : List Event) : Bool := evs.all fun ev => !(ev == .reset)

/-- The event presents no push. -/
def pushFree : Event → Bool
  | .hostEdge ports => !ports.tx.push
  | .engineEdge => true
  | .reset => true

/-- A schedule: the event taken at each step (R17). -/
abbrev Schedule := Nat → Event

/-- Weak fairness, the only assumption on a schedule: each domain takes infinitely many edges (R17). -/
def WeaklyFair (sched : Schedule) : Prop :=
  (∀ n, ∃ m, n ≤ m ∧ sched m = .engineEdge) ∧ (∀ n, ∃ m, n ≤ m ∧ isHostEdge (sched m) = true)

/-- The first `n` events of a schedule, from step `k`. -/
def scheduled (sched : Schedule) (k n : Nat) : List Event := (List.range n).map fun j => sched (k + j)

/-- `n` ticks of the engine with nothing between them, and the level of `dout` each leaves: the trace of
R18. -/
def runTicks : Nat → State → Host.Outcome (List Bool × State) Fault Refusal
  | 0, s => .next ([], s)
  | n + 1, s =>
    match tick s with
    | .next t =>
      match runTicks n t with
      | .next (trace, u) => .next (t.eng.dout :: trace, u)
      | .fault r => .fault r
      | .refused r => .refused r
    | .fault r => .fault r
    | .refused r => .refused r

/-! ## The pointers' path and the true occupancy (R145) -/

/-- The true occupancy, `occ = (wptr − rptr) mod (2·FIFO_DEPTH)` (R145). -/
def occ (s : State) : Nat := ptrDist s.build s.eng.rptr s.host.wptr

/-- Every value of the pointers that is held somewhere, from the oldest read pointer to the newest write
pointer: the host's copies of rptr, rptr, the engine's copies of wptr, wptr (20_memory.md R73). -/
def ptrPath (s : State) : List Ptr :=
  (s.host.rs.map gray2bin).reverse ++ s.eng.rptr :: ((s.eng.ws.map gray2bin).reverse ++ [s.host.wptr])

/-- The distance along a path of pointers. -/
def pathLength (b : Build) : List Ptr → Nat
  | [] => 0
  | [_] => 0
  | p :: q :: rest => ptrDist b p q + pathLength b (q :: rest)

/-! ## The program (R124, R168) -/

/-- 1 ≤ LEN ≤ 32, every word below LEN is admitted, and every jump's target is below LEN (R168). -/
def ProgramOk (h : HostSide) : Prop :=
  1 ≤ h.len.toNat ∧ h.len.toNat ≤ Config.imemDepth ∧
    ∀ a, a < h.len.toNat → checkWord h.len.toNat (h.imem.read a) = none

/-! ## The invariant -/

/-- What holds of every state a run reaches. -/
structure Inv (s : State) : Prop where
  imemCanonical : s.host.imem.wf = true
  imemInRange : s.host.imem.below Config.imemDepth = true
  fifoCanonical : s.host.fifoMem.wf = true
  fifoInRange : s.host.fifoMem.below s.build.fifoDepth = true
  rsStages : s.host.rs.length = s.build.syncStages
  wsStages : s.eng.ws.length = s.build.syncStages
  runStages : s.eng.runS.length = s.build.syncStages
  wgrayOfWptr : s.host.wgray = bin2gray s.host.wptr
  rgrayOfRptr : s.eng.rgray = bin2gray s.eng.rptr
  pathInRange : ∀ p ∈ ptrPath s, p.toNat < ptrModulus s.build
  /-- No synchronised copy runs ahead of its source, and at most FIFO_DEPTH words are in flight (R145). -/
  pathFits : pathLength s.build (ptrPath s) ≤ s.build.fifoDepth
  xIsBit : s.eng.x = 0 ∨ s.eng.x = 1
  osrCntInRange : s.eng.osrCnt.toNat ≤ Config.wordBits
  /-- The checks CONFIGURE made still hold (R168). -/
  programOk : lifeActive s.host.life = true → ProgramOk s.host ∧ 1 ≤ s.host.clkdiv.toNat
  divisorOfFclk : s.host.life ≠ .uninit → s.host.clkdiv = divCalc s.host.fclk
  pcInProgram : s.host.life = .running → s.eng.pc.toNat < s.host.len.toNat
  divCntInRange : s.host.life = .running → s.eng.divCnt.toNat < s.host.clkdiv.toNat
  /-- The run level has not fallen: where an older stage is 1, every newer one is (R33, R113). -/
  runLevelOrder : s.eng.runS.Pairwise fun newer older => older = true → newer = true
  runLevelSource : s.host.life ≠ .running → ∀ r ∈ s.eng.runS, r = false
  /-- Before its first tick the engine does nothing but run its synchronisers (60_exceptions.md R196). -/
  idleBeforeFirstTick : runE s.eng = false →
    ∃ run write, s.eng = { EngineSide.resetOf s.build with runS := run, ws := write }
  /-- In UNINIT and FAULT the queue does not exist and is empty (R153). -/
  queueClosed : lifeActive s.host.life = false → s.host.wptr = 0 ∧ s.host.fifoMem = []
  errOnlyInFault : s.host.life ≠ .fault → s.host.err = 0 ∧ s.host.errAddr = 0
  errInFault : s.host.life = .fault → 1 ≤ s.host.err.toNat ∧ s.host.err.toNat ≤ 5

/-! ## The queue (R146) -/

/-- The words in the FIFO, the oldest first: the slots from rptr up to wptr. -/
def queued (s : State) : List Word :=
  (List.range (occ s)).map fun k => s.host.fifoMem.read ((s.eng.rptr.toNat + k) % s.build.fifoDepth)

/-- The word that the event's push is accepted with, if one is (R140). -/
def acceptedWords (ev : Event) (s : State) : List Word :=
  match ev with
  | .hostEdge ports => if ports.tx.push && txOk s.build s.host then [ports.tx.data] else []
  | .engineEdge => []
  | .reset => []

/-- The next engine edge issues an OUT that does not stall (R115, R117). -/
def outIssues (s : State) : Bool :=
  match decodeMicro (fetchWord s) with
  | .ok (.outX _ _) => tickDue s.eng && s.eng.delayCnt == 0 && !(osrExhausted s.eng && emptyE s.eng)
  | _ => false

/-- The word that the event pops, if it pops one (R144). -/
def poppedWords (ev : Event) (s : State) : List Word :=
  match ev with
  | .hostEdge _ => []
  | .engineEdge =>
    if outIssues s && osrExhausted s.eng then [s.host.fifoMem.read (slotOf s.build s.eng.rptr)] else []
  | .reset => []

/-- The value that the event writes to X, if it writes one: X of the state after an engine edge that issues an
OUT that does not stall (R117, R125). -/
def valuesWrittenToX (ev : Event) (s : State) : List (BitVec Config.xBits) :=
  match ev with
  | .hostEdge _ => []
  | .engineEdge =>
    if outIssues s then
      match engineEdge s with
      | .next t => [t.eng.x]
      | .fault _ => []
      | .refused _ => []
    else []
  | .reset => []

/-- The level of `dout` that the event leaves, if it is a tick (R18). -/
def tickLevels (ev : Event) (s : State) : List Bool :=
  match ev with
  | .hostEdge _ => []
  | .engineEdge =>
    if tickDue s.eng then
      match engineEdge s with
      | .next t => [t.eng.dout]
      | .fault _ => []
      | .refused _ => []
    else []
  | .reset => []

/-- What the events of a run yield, in order: `f` of each event and the state it is taken in. -/
def collect {α : Type} (f : Event → State → List α) : List Event → State → List α
  | [], _ => []
  | ev :: evs, s =>
    f ev s ++
      match runEvent ev s with
      | .next t => collect f evs t
      | .fault _ => []
      | .refused _ => []

/-- The bits of a word in the order they are shifted out (20_memory.md R64). -/
def bitsOut (dir : ShiftDir) (w : Word) : List Bool :=
  (List.range Config.wordBits).map fun k =>
    match dir with
    | .msbFirst => w.getLsbD (31 - k)
    | .lsbFirst => w.getLsbD k

/-- The bits of the loaded word that are still to be shifted out. -/
def pendingBits (s : State) : List Bool :=
  (bitsOut s.build.shiftDir s.eng.osr).take (Config.wordBits - s.eng.osrCnt.toNat)

/-! ## The canonical program and its waveform (R126 to R131) -/

/-- The four words of R126 for a build's T1, T2, T3. -/
def canonicalProgram (b : Build) : List MicroWord :=
  [ microWord outXMatch false (BitVec.ofNat 4 (b.t3 - 1)) 0,
    microWord jmpNotXMatch true (BitVec.ofNat 4 (b.t1 - 1)) 3,
    microWord jmpMatch true (BitVec.ofNat 4 (b.t2 - 1)) 0,
    microWord nopMatch false (BitVec.ofNat 4 (b.t2 - 1)) 0 ]

/-- A program is installed: LEN is its length and IMEM holds its words from index 0. -/
def Installed (program : List MicroWord) (h : HostSide) : Prop :=
  h.len.toNat = program.length ∧ ∀ a, a < program.length → h.imem.read a = program.getD a 0

/-- The levels of `dout` over one bit period of the canonical program, from the tick of its OUT (R127). -/
def bitWaveform (b : Build) (bit : Bool) : List Bool :=
  List.replicate b.t3 false ++ List.replicate b.t1 true ++ List.replicate b.t2 bit

/-- The lengths of the maximal HIGH runs of a trace; `run` is the length of the run read so far. -/
def highRunsFrom : Nat → List Bool → List Nat
  | 0, [] => []
  | run + 1, [] => [run + 1]
  | run, true :: trace => highRunsFrom (run + 1) trace
  | 0, false :: trace => highRunsFrom 0 trace
  | run + 1, false :: trace => (run + 1) :: highRunsFrom 0 trace

/-- The bit a HIGH run stands for: T1+T2 ticks a 1, T1 ticks a 0 (R131). -/
def bitOfRun (b : Build) (run : Nat) : Option Bool :=
  if run = b.t1 + b.t2 then some true else if run = b.t1 then some false else none

/-- Decoding a trace of `dout` back to bits (R131). -/
def decodeTrace (b : Build) (trace : List Bool) : List (Option Bool) := (highRunsFrom 0 trace).map (bitOfRun b)

/-! ## Quiescence (R214) -/

/-- The quiescent condition of R214, for an OUT with this side value and delay. -/
structure Quiescent (side : Bool) (delay : BitVec Config.delayBits) (s : State) : Prop where
  running : s.host.life = .running
  drained : s.host.wptr = s.eng.rptr
  wsSettled : ∀ g ∈ s.eng.ws, g = s.host.wgray
  rsSettled : ∀ g ∈ s.host.rs, g = s.eng.rgray
  atOut : decodeMicro (fetchWord s) = .ok (.outX side delay)
  exhausted : s.eng.osrCnt.toNat = Config.wordBits
  noDelay : s.eng.delayCnt = 0

/-! ## The producer's duties, in real time (R9, R209 to R211)

F_ENG and T_LATCH convert ticks to time; no transition reads them. One second is 1000000000 ns. -/

/-- The host wrote the real engine frequency to FCLK (R211). -/
def FclkIsReal (h : HostSide) : Prop := h.fclk.toNat = Config.fEng

/-- A LOW of `n` ticks lasts at least T_LATCH: `n × CLKDIV / F_ENG ≥ T_LATCH` (R209, R218). -/
def LatchesAfter (h : HostSide) (n : Nat) : Prop :=
  Config.tLatchNs * Config.fEng ≤ n * h.clkdiv.toNat * 1000000000

/-- A frame survives a stall of `stall` ticks between two of its words, after a last bit `bit`: the LOW run
of R128 stays below T_LATCH (R209). -/
def FrameSurvives (b : Build) (h : HostSide) (bit : Bool) (stall : Nat) : Prop :=
  ¬ LatchesAfter h ((if bit then 0 else b.t2) + stall + b.t3)

/-- The engine edges that are enough between a frame's last push and the next frame's first push, before
T_LATCH is added: the first two terms of R210's sufficient condition. -/
def interFrameEdges (b : Build) (h : HostSide) : Nat :=
  b.syncStages + 1 + h.clkdiv.toNat
    + (b.fifoDepth + 1) * Config.wordBits * Config.cyclesPerBit * h.clkdiv.toNat

/-- R210's sufficient condition on the time `gapNs` between the two pushes. -/
def GapSuffices (b : Build) (h : HostSide) (gapNs : Nat) : Prop :=
  interFrameEdges b h * 1000000000 + Config.tLatchNs * Config.fEng ≤ gapNs * Config.fEng

end Sys2Proof.Machine
end

