-- ==== Sys2Proof/Certificates/Slice0/Obligations.lean ====
section
/-! DEFINITION. The statements for the provers. Each follows the spec's rules named in its docstring; a claim
about every state assumes `Inv` only where it needs it, and that every step keeps `Inv` is a statement of its
own. -/

set_option autoImplicit false

open Sys2Proof Sys2Proof.Machine

/-! ## Reset (10_state.md R22, R59) -/

/-- R59: the reset value of every piece of state, for every build, and the outputs after reset. -/
def Obligations.ResetValuesOfEveryRegister : Prop :=
  ∀ b : Build, ∀ h : HostSide, h = (State.resetOf b).host → ∀ e : EngineSide, e = (State.resetOf b).eng →
    (h.life = .uninit ∧ h.err = 0 ∧ h.errAddr = 0 ∧ h.fclk = 0 ∧ h.clkdiv = 0 ∧ h.len = 0 ∧
      (∀ a, h.imem.read a = 0) ∧ (∀ a, h.fifoMem.read a = 0) ∧ h.wptr = 0 ∧ h.wgray = 0 ∧
      h.rs = List.replicate b.syncStages 0) ∧
    (e.runS = List.replicate b.syncStages false ∧ e.ws = List.replicate b.syncStages 0 ∧ e.divCnt = 0 ∧ e.pc = 0 ∧
      e.delayCnt = 0 ∧ e.osr = 0 ∧ e.osrCnt.toNat = Config.wordBits ∧ e.x = 0 ∧ e.rptr = 0 ∧ e.rgray = 0) ∧
    txOk b h = false ∧ pinClaim h = false ∧ e.dout = false

/-- R22: a reset is one atomic event that sets all state of both domains to R59's values; from any state it
leaves exactly the reset state of the build, with the schedule going on. -/
def Obligations.ResetEventSetsEveryRegister : Prop :=
  ∀ (s : State) (rest : List Event), s.env.inputs = .reset :: rest →
    step s = .next { State.resetOf s.build with env := { s.env with inputs := rest } }

/-- The invariant holds after reset, for every build. -/
def Obligations.InvariantAtReset : Prop := ∀ b : Build, Inv (State.resetOf b)

/-- Every step keeps the invariant, whatever event it takes (R124, R145, R161, R168). -/
def Obligations.StepKeepsInvariant : Prop := ∀ s t : State, Inv s → step s = .next t → Inv t

/-- R121, R194: in a state that meets the invariant no step stops, so the RESERVED arm of Issue is
unreachable. -/
def Obligations.StepNeverStops : Prop := ∀ s : State, Inv s → ∃ t, step s = .next t

/-- R124: in every state that a run from reset reaches with LIFE = RUNNING, pc is below LEN, every word below
LEN is admitted and its jumps go below LEN, osr_cnt is at most WORD_BITS, delay_cnt at most 15 and X a bit. -/
def Obligations.RunningInvariants : Prop :=
  ∀ (b : Build) (evs : List Event) (t : State), runEvents evs (State.resetOf b) = .next t →
    t.host.life = .running →
    t.eng.pc.toNat < t.host.len.toNat ∧
    (∀ a, a < t.host.len.toNat → admitted (t.host.imem.read a) = true) ∧
    (∀ a side delay dest, a < t.host.len.toNat →
      (decodeMicro (t.host.imem.read a) = .ok (.jmp side delay dest) ∨
        decodeMicro (t.host.imem.read a) = .ok (.jmpNotX side delay dest)) → dest.toNat < t.host.len.toNat) ∧
    t.eng.osrCnt.toNat ≤ 32 ∧ t.eng.delayCnt.toNat ≤ 15 ∧ (t.eng.x = 0 ∨ t.eng.x = 1)

/-! ## Encoding (30_encoding.md) -/

/-- Decoding the code of a well-formed instruction gives the instruction back, with every operand. -/
def Obligations.DecodeEncodeRoundTrip : Prop :=
  ∀ i : Instr, i.wellFormed = true → decode (encode i) = .ok i

/-- R87, R89: exactly the words of the four rows are admitted, in terms of the fields of R81, and an admitted
word is the encoding of what it decodes to, so no word has two meanings. -/
def Obligations.AdmittedWordsExactly : Prop :=
  ∀ w : MicroWord,
    (admitted w = true ↔
      (w.extractLsb' 13 3 = 0b000#3 ∧ (w.extractLsb' 5 3 = 0b000#3 ∨ w.extractLsb' 5 3 = 0b001#3)) ∨
      (w.extractLsb' 13 3 = 0b011#3 ∧ w.extractLsb' 5 3 = 0b001#3 ∧ w.extractLsb' 0 5 = 0b00001#5) ∨
      (w.extractLsb' 13 3 = 0b101#3 ∧ w.extractLsb' 0 8 = 0b01000010#8)) ∧
    ∀ i, decodeMicro w = .ok i → i.isMicroOp = true ∧ encode i = .imem w

/-- The table's number of a well-formed instruction, of either kind, decodes to it (the numbering of the host
operations is the model's choice, log 8). -/
def Obligations.TableWordRoundTrip : Prop :=
  ∀ i : Instr, i.wellFormed = true → decodeTableWord (tableWordOf i).1 (tableWordOf i).2 = some i

/-- Words written out from R87's rows: DEC-3, DEC-6, DEC-11, DEC-17 decode as 95_test_vectors.md 2.2 says, and
DEC-7, DEC-12, DEC-18, DEC-20 are reserved. -/
def Obligations.SpecWordsDecode : Prop :=
  decodeMicro 0b0001010000000000#16 = .ok (.jmp true 4 0) ∧
  decodeMicro 0b0001111100111111#16 = .ok (.jmpNotX true 15 31) ∧
  decodeMicro 0b0111111100100001#16 = .ok (.outX true 15) ∧
  decodeMicro 0b1011000101000010#16 = .ok (.nop true 1) ∧
  admitted 0x0040#16 = false ∧ admitted 0x6020#16 = false ∧ admitted 0xA022#16 = false ∧ admitted 0x2000#16 = false

/-- R126: the canonical program of this hardware is 0x6221, 0x1123, 0x1400, 0xA442, and for every build its
four words are R126's general ones. -/
def Obligations.CanonicalProgramWords : Prop :=
  canonicalProgram Config.thisHardware = [0x6221#16, 0x1123#16, 0x1400#16, 0xA442#16] ∧
  ∀ b : Build, canonicalProgram b =
    [ 0x6021#16 ||| (BitVec.ofNat 16 (b.t3 - 1) <<< 8), 0x1023#16 ||| (BitVec.ofNat 16 (b.t1 - 1) <<< 8),
      0x1000#16 ||| (BitVec.ofNat 16 (b.t2 - 1) <<< 8), 0xA042#16 ||| (BitVec.ofNat 16 (b.t2 - 1) <<< 8) ]

/-! ## A step runs the decoded instruction -/

/-- R110, R115: an engine edge that is a tick with no delay left executes the micro-op its word at pc decodes
to, and the edge's synchronisers and divider are clocked from the state before it. -/
def Obligations.EngineEdgeRunsFetchedWord : Prop :=
  ∀ (s : State) (rest : List Event) (i : Instr), s.env.inputs = .engineEdge :: rest → tickDue s.eng = true →
    s.eng.delayCnt = 0 → decodeMicro (s.host.imem.read s.eng.pc.toNat) = .ok i →
    ∃ t, exec i (s.withInputs rest) = .next t ∧ step s = .next (t.withEng (clockEngine s t.eng))

/-- R160: a host edge executes the bus port's operation and the push port's, if it presents one, each on the
state before the edge, and commits both with the read-pointer synchroniser. -/
def Obligations.HostEdgeRunsBothPorts : Prop :=
  ∀ (s : State) (rest : List Event) (ports : HostIn), s.env.inputs = .hostEdge ports :: rest →
    ∃ bus tx, exec (decodeBus ports.bus) (s.withInputs rest) = .next bus ∧
      (ports.tx.push = true → exec (.push ports.tx.data) (s.withInputs rest) = .next tx) ∧
      (ports.tx.push = false → tx = s.withInputs rest) ∧
      step s = .next (commitHost ports.bus.addr (s.withInputs rest) bus tx)

/-- The model's choice of log 2: with no event listed, a step takes the next free event. -/
def Obligations.StepTakesFreeEvent : Prop :=
  ∀ s : State, s.env.inputs = [] →
    step s = runEvent (Config.freeEvent s.env.inputNo)
      { s with env := { s.env with inputNo := s.env.inputNo + 1 } }

/-- R121: a reserved word at the fetch is the fault ReservedFetched, not a no-op. -/
def Obligations.ReservedWordFaults : Prop :=
  ∀ s : State, tickDue s.eng = true → s.eng.delayCnt = 0 → admitted (s.host.imem.read s.eng.pc.toNat) = false →
    runEvent .engineEdge s = .fault (.reservedFetched s.eng.pc (s.host.imem.read s.eng.pc.toNat))

/-- The model's choice of log 9: after `withFetchWord` with the table's number of a micro-op, the very next
step issues it, in the state it was placed in. -/
def Obligations.PlacedMicroOpRunsNext : Prop :=
  ∀ (s : State) (i : Instr), i.isMicroOp = true → s.host.imem.wf = true → s.eng.runS ≠ [] →
    ∃ t, exec i ((s.withFetchWord (tableWordOf i).1 (tableWordOf i).2).withInputs s.env.inputs) = .next t ∧
      step (s.withFetchWord (tableWordOf i).1 (tableWordOf i).2) =
        .next (t.withEng (clockEngine (s.withFetchWord (tableWordOf i).1 (tableWordOf i).2) t.eng))

/-! ## The engine edge (41_timing_program.md R111, R114) -/

/-- R111: an engine edge that is no tick changes only run_s, ws and div_cnt, and not div_cnt while the run
level has not crossed. -/
def Obligations.OffTickEdgeChangesNothingElse : Prop :=
  ∀ s : State, tickDue s.eng = false →
    ∃ t, runEvent .engineEdge s = .next t ∧ t.build = s.build ∧ t.host = s.host ∧ t.env = s.env ∧
      t.eng.pc = s.eng.pc ∧ t.eng.delayCnt = s.eng.delayCnt ∧ t.eng.osr = s.eng.osr ∧
      t.eng.osrCnt = s.eng.osrCnt ∧ t.eng.x = s.eng.x ∧ t.eng.dout = s.eng.dout ∧ t.eng.rptr = s.eng.rptr ∧
      t.eng.rgray = s.eng.rgray ∧ (runE s.eng = false → t.eng.divCnt = s.eng.divCnt)

/-- R114: a tick with delay_cnt ≠ 0 only counts down; it fetches nothing. -/
def Obligations.DelayTickOnlyCountsDown : Prop :=
  ∀ s : State, s.eng.delayCnt ≠ 0 →
    tick s = .next { s with eng := { s.eng with delayCnt := s.eng.delayCnt - 1 } }

/-! ## The micro-ops (R117 to R120): encoding, completion, result and frame in one -/

/-- R118: every word of JMP's row decodes to JMP with its fields; and JMP, with any operands in any state,
sets dout, delay_cnt and pc to its side, delay and absolute target and changes nothing else. -/
def Obligations.JmpResult : Prop :=
  (∀ w : MicroWord, w &&& 0xE0E0#16 = 0x0000#16 →
    decodeMicro w = .ok (.jmp w[12] (w.extractLsb' 8 4) (w.extractLsb' 0 5))) ∧
  ∀ (side : Bool) (delay : BitVec 4) (target : BitVec 5) (s : State),
    exec (.jmp side delay target) s =
      .next { s with eng := { s.eng with dout := side, delayCnt := delay, pc := target } }

/-- R119: every word of JMP !X's row decodes to it with its fields; and JMP !X goes to its target if X = 0 and
to next(pc) otherwise; the side-set and the delay apply both ways, and X is not changed. -/
def Obligations.JmpNotXResult : Prop :=
  (∀ w : MicroWord, w &&& 0xE0E0#16 = 0x0020#16 →
    decodeMicro w = .ok (.jmpNotX w[12] (w.extractLsb' 8 4) (w.extractLsb' 0 5))) ∧
  ∀ (side : Bool) (delay : BitVec 4) (target : BitVec 5) (s : State),
    (s.eng.x = 0 → exec (.jmpNotX side delay target) s =
      .next { s with eng := { s.eng with dout := side, delayCnt := delay, pc := target } }) ∧
    (s.eng.x ≠ 0 → exec (.jmpNotX side delay target) s =
      .next { s with eng := { s.eng with dout := side, delayCnt := delay, pc := nextPc s.host.len s.eng.pc } })

/-- R116: for a LEN that CONFIGURE admits (R168), next(pc) is 0 at LEN − 1 and pc + 1 elsewhere in the program;
it stays in the program. -/
def Obligations.SequentialSuccessor : Prop :=
  ∀ (len : BitVec 6) (pc : BitVec 5), len.toNat ≤ 32 → pc.toNat < len.toNat →
    (pc.toNat = len.toNat - 1 → nextPc len pc = 0) ∧
    (pc.toNat ≠ len.toNat - 1 → (nextPc len pc).toNat = pc.toNat + 1) ∧ (nextPc len pc).toNat < len.toNat

/-- R120: every word of NOP's row decodes to it with its fields; and NOP drives its level, loads its delay and
goes to next(pc), and writes no register. -/
def Obligations.NopResult : Prop :=
  (∀ w : MicroWord, w &&& 0xE0FF#16 = 0xA042#16 → decodeMicro w = .ok (.nop w[12] (w.extractLsb' 8 4))) ∧
  ∀ (side : Bool) (delay : BitVec 4) (s : State),
    exec (.nop side delay) s =
      .next { s with eng := { s.eng with dout := side, delayCnt := delay, pc := nextPc s.host.len s.eng.pc } }

/-- R117: every word of OUT's row decodes to it with its fields; and OUT X, 1 does one of three things. With
the word exhausted and the engine view empty it stalls and only drives its level. With it exhausted and a word
in view it refills from slot rptr mod FIFO_DEPTH and shifts that word's first bit. Otherwise it shifts the
next bit of OSR and does not touch the FIFO. -/
def Obligations.OutXResult : Prop :=
  (∀ w : MicroWord, w &&& 0xE0FF#16 = 0x6021#16 → decodeMicro w = .ok (.outX w[12] (w.extractLsb' 8 4))) ∧
  ∀ (side : Bool) (delay : BitVec 4) (s : State),
    (s.eng.osrCnt = 32 → s.eng.rptr = gray2bin (lastStage 0 s.eng.ws) →
      exec (.outX side delay) s = .next { s with eng := { s.eng with dout := side } }) ∧
    (∀ src : Word, s.eng.osrCnt = 32 → s.eng.rptr ≠ gray2bin (lastStage 0 s.eng.ws) →
      src = s.host.fifoMem.read (s.eng.rptr.toNat % s.build.fifoDepth) →
      exec (.outX side delay) s = .next { s with eng := { s.eng with
        dout := side, delayCnt := delay, pc := nextPc s.host.len s.eng.pc
        rptr := BitVec.ofNat 4 ((s.eng.rptr.toNat + 1) % (2 * s.build.fifoDepth))
        rgray := bin2gray (BitVec.ofNat 4 ((s.eng.rptr.toNat + 1) % (2 * s.build.fifoDepth)))
        osr := if s.build.shiftDir = .msbFirst then src <<< 1 else src >>> 1
        osrCnt := 1
        x := if s.build.shiftDir = .msbFirst then src >>> 31 else src &&& 1 } }) ∧
    (s.eng.osrCnt ≠ 32 →
      exec (.outX side delay) s = .next { s with eng := { s.eng with
        dout := side, delayCnt := delay, pc := nextPc s.host.len s.eng.pc
        osr := if s.build.shiftDir = .msbFirst then s.eng.osr <<< 1 else s.eng.osr >>> 1
        osrCnt := s.eng.osrCnt + 1
        x := if s.build.shiftDir = .msbFirst then s.eng.osr >>> 31 else s.eng.osr &&& 1 } })

/-- The frame of JMP, JMP !X, OUT X, 1 and NOP (R63, R111): every host-domain register, all of IMEM and
FIFO_MEM, the synchronisers, the divider and the host's inputs are unchanged; X, OSR, osr_cnt and the read
pointer change only in OUT. -/
def Obligations.MicroOpsFrame : Prop :=
  ∀ (i : Instr) (s t : State), i.isMicroOp = true → exec i s = .next t →
    t.build = s.build ∧ t.host = s.host ∧ t.env = s.env ∧ (∀ a, t.host.imem.read a = s.host.imem.read a) ∧
    (∀ a, t.host.fifoMem.read a = s.host.fifoMem.read a) ∧ t.eng.runS = s.eng.runS ∧ t.eng.ws = s.eng.ws ∧
    t.eng.divCnt = s.eng.divCnt ∧
    ((∀ side delay, i ≠ .outX side delay) → t.eng.x = s.eng.x ∧ t.eng.osr = s.eng.osr ∧
      t.eng.osrCnt = s.eng.osrCnt ∧ t.eng.rptr = s.eng.rptr ∧ t.eng.rgray = s.eng.rgray)

/-! ## The host operations (43_engine_control.md, 42_transmit_queue.md R140) -/

/-- R163: REG_READ completes, has no effect but the value the host reads, and reads what R163 says at every
index, the fields of STATUS one by one (R47), LIFE by its codes (R24). That the value is recorded in lastOut, the
other two outputs there being kept, is the model's choice (log 11). -/
def Obligations.RegReadResult : Prop :=
  ∀ (i : BitVec 6) (s : State), ∃ v : Word,
    exec (.regRead i) s =
      .next { s with env := { s.env with lastOut := { s.env.lastOut with busRdata := v } } } ∧
    (i = 0 → v = 0) ∧
    (i = 1 →
      (s.host.life = .uninit → v.extractLsb' 0 2 = 0) ∧ (s.host.life = .configured → v.extractLsb' 0 2 = 1) ∧
      (s.host.life = .running → v.extractLsb' 0 2 = 2) ∧ (s.host.life = .fault → v.extractLsb' 0 2 = 3) ∧
      v[2] = decide (occH s.build s.host = s.build.fifoDepth) ∧
      v[3] = false ∧ v.extractLsb' 4 4 = s.host.err ∧ v.extractLsb' 8 5 = s.host.errAddr ∧ v.extractLsb' 13 19 = 0) ∧
    (i = 2 → v = s.host.fclk) ∧ (i = 3 → v = s.host.clkdiv.setWidth 32) ∧ (i = 4 → v = s.host.len.setWidth 32) ∧
    (s.build = Config.thisHardware →
      (i = 5 → v = 0x0A030502#32) ∧ (i = 6 → v = 0x02200400#32) ∧ (i = 7 → v = 0x007A1200#32)) ∧
    (8 ≤ i.toNat → i.toNat < 32 → v = 0) ∧
    (32 ≤ i.toNat → v = (s.host.imem.read (i.toNat - 32)).setWidth 32)

/-- R51 to R53: the constant registers of every legal build hold its parameters in the fields given, and 0 in
every other bit. -/
def Obligations.ConstantRegistersHoldTheBuild : Prop :=
  ∀ (b : Build) (h : HostSide),
    ((readReg b h 5).extractLsb' 0 5).toNat = b.t1 ∧ ((readReg b h 5).extractLsb' 8 5).toNat = b.t2 ∧
    ((readReg b h 5).extractLsb' 16 5).toNat = b.t3 ∧
    ((readReg b h 5).extractLsb' 24 6).toNat = Config.cyclesPerBit ∧ readReg b h 5 &&& 0xC0E0E0E0#32 = 0 ∧
    ((readReg b h 6)[0] = true ↔ b.shiftDir = .lsbFirst) ∧ ((readReg b h 6).extractLsb' 8 4).toNat = b.fifoDepth ∧
    ((readReg b h 6).extractLsb' 16 6).toNat = Config.wordBits ∧
    ((readReg b h 6).extractLsb' 24 4).toNat = b.syncStages ∧ readReg b h 6 &&& 0xF0C0F0FE#32 = 0 ∧
    (readReg b h 7).toNat = Config.bitFreq * Config.cyclesPerBit

/-- R162: REG_WRITE completes and, index by index and LIFE by LIFE, does what R162's table says: CONFIGURE or
START for CTRL, a store for FCLK, PROGCFG and IMEM in UNINIT, and otherwise nothing. -/
def Obligations.RegWriteResult : Prop :=
  ∀ (i : BitVec 6) (v : Word) (g : Bool) (s : State), ∃ h : HostSide,
    exec (.regWrite i v g) s = .next (s.withHost h) ∧
    (i = 0 → v[0] = true → s.host.life = .uninit → h = s.host.configure g) ∧
    (i = 0 → v[1] = true → s.host.life = .configured → h = { s.host with life := .running }) ∧
    (i = 0 → ¬ (v[0] = true ∧ s.host.life = .uninit) → ¬ (v[1] = true ∧ s.host.life = .configured) → h = s.host) ∧
    (i = 2 → s.host.life = .uninit → h = { s.host with fclk := v }) ∧
    (i = 4 → s.host.life = .uninit → h = { s.host with len := v.extractLsb' 0 6 }) ∧
    (32 ≤ i.toNat → s.host.life = .uninit →
      h = { s.host with imem := s.host.imem.write (i.toNat - 32) (v.extractLsb' 0 16) }) ∧
    (i ≠ 0 → i ≠ 2 → i ≠ 4 → i.toNat < 32 → h = s.host) ∧
    (i ≠ 0 → s.host.life ≠ .uninit → h = s.host)

/-- R166, R167: CONFIGURE in UNINIT writes CLKDIV with floor(FCLK / 8000000) on success and on failure; on
success LIFE becomes CONFIGURED, on failure ERR, ERR_ADDR and LIFE = FAULT are written; nothing else changes.
Outside UNINIT, with bit 1 of the write clear, it does nothing. -/
def Obligations.ConfigureResult : Prop :=
  ∀ (sb g : Bool) (r : BitVec 30) (s : State),
    (s.host.life = .uninit → validate g s.host = none →
      exec (.configure sb r g) s = .next { s with host := { s.host with
        clkdiv := BitVec.ofNat 16 (s.host.fclk.toNat / 8000000), life := .configured } }) ∧
    (∀ code addr, s.host.life = .uninit → validate g s.host = some (code, addr) →
      exec (.configure sb r g) s = .next { s with host := { s.host with
        clkdiv := BitVec.ofNat 16 (s.host.fclk.toNat / 8000000), err := configErrorCode code, errAddr := addr,
        life := .fault } }) ∧
    (s.host.life ≠ .uninit → sb = false → exec (.configure sb r g) s = .next s)

/-- R164, R182: Validate answers the first failing check in the order PIN, DIV_ZERO, PROG_SIZE, then the
program words in increasing index, a reserved word being PROG_ILLEGAL and a jump whose target is at or beyond
LEN being PROG_TARGET; it answers none exactly when every check passes. -/
def Obligations.ValidateFindsFirstFailure : Prop :=
  ∀ h : HostSide,
    (validate false h = some (.pin, 0)) ∧
    (h.fclk.toNat < 8000000 → validate true h = some (.divZero, 0)) ∧
    (8000000 ≤ h.fclk.toNat → (h.len.toNat = 0 ∨ 32 < h.len.toNat) → validate true h = some (.progSize, 0)) ∧
    (8000000 ≤ h.fclk.toNat → 1 ≤ h.len.toNat → h.len.toNat ≤ 32 →
      ∀ illegal target : Nat → Prop,
        (∀ a, illegal a ↔ admitted (h.imem.read a) = false) →
        (∀ a, target a ↔ ∃ side delay dest, h.len.toNat ≤ BitVec.toNat (w := 5) dest ∧
          (decodeMicro (h.imem.read a) = .ok (.jmp side delay dest) ∨
            decodeMicro (h.imem.read a) = .ok (.jmpNotX side delay dest))) →
        (validate true h = none ↔ ∀ a, a < h.len.toNat → ¬ illegal a ∧ ¬ target a) ∧
        (∀ a, a < h.len.toNat → (∀ k, k < a → ¬ illegal k ∧ ¬ target k) →
          (illegal a → validate true h = some (.progIllegal, BitVec.ofNat 5 a)) ∧
          (target a → validate true h = some (.progTarget, BitVec.ofNat 5 a))))

/-- R181: the codes ERR records. -/
def Obligations.ConfigFaultCodes : Prop :=
  configErrorCode .divZero = 1 ∧ configErrorCode .progSize = 2 ∧ configErrorCode .progIllegal = 3 ∧
    configErrorCode .progTarget = 4 ∧ configErrorCode .pin = 5

/-- R168: what a successful CONFIGURE guarantees. -/
def Obligations.SuccessfulConfigureGuarantees : Prop :=
  ∀ (sb g : Bool) (r : BitVec 30) (s t : State), s.host.life = .uninit → exec (.configure sb r g) s = .next t →
    t.host.life = .configured →
    g = true ∧ 1 ≤ t.host.clkdiv.toNat ∧ 1 ≤ t.host.len.toNat ∧ t.host.len.toNat ≤ 32 ∧
    (∀ a, a < t.host.len.toNat → admitted (t.host.imem.read a) = true) ∧
    (∀ a side delay dest, a < t.host.len.toNat →
      (decodeMicro (t.host.imem.read a) = .ok (.jmp side delay dest) ∨
        decodeMicro (t.host.imem.read a) = .ok (.jmpNotX side delay dest)) → dest.toNat < t.host.len.toNat) ∧
    pinClaim t.host = true ∧ txOk t.build t.host = !fullH t.build t.host

/-- R169: START in CONFIGURED sets LIFE to RUNNING and nothing else; in any other LIFE it does nothing. -/
def Obligations.StartResult : Prop :=
  ∀ (r : BitVec 30) (s : State),
    (s.host.life = .configured → exec (.start r) s = .next { s with host := { s.host with life := .running } }) ∧
    (s.host.life ≠ .configured → exec (.start r) s = .next s)

/-- R46, R95, R170: CONFIGURE and START are the register write of CTRL with their bit set, the reserved bits
ignored; and a write with both bits acts as START in CONFIGURED. -/
def Obligations.CommandsAreCtrlWrites : Prop :=
  (∀ (sb g : Bool) (r : BitVec 30) (s : State),
    exec (.configure sb r g) s = exec (.regWrite 0 (ctrlWord r sb true) g) s) ∧
  (∀ (g : Bool) (r : BitVec 30) (s : State), exec (.start r) s = exec (.regWrite 0 (ctrlWord r true false) g) s) ∧
  (∀ (g : Bool) (r : BitVec 30) (s : State), s.host.life = .configured →
    exec (.configure true r g) s = .next { s with host := { s.host with life := .running } }) ∧
  (∀ (sb g : Bool) (r : BitVec 30) (s : State), s.host.life ≠ .uninit → s.host.life ≠ .configured →
    exec (.configure sb r g) s = .next s)

/-- R140: a push with tx_ok = 1 stores the word at slot wptr mod FIFO_DEPTH, advances wptr and wgray modulo
2·FIFO_DEPTH and returns true; with tx_ok = 0 it returns false and changes nothing else. That the result is
recorded in lastOut, the other two outputs there being kept, is the model's choice (log 11). -/
def Obligations.PushResult : Prop :=
  ∀ (d : Word) (s : State),
    ((s.host.life = .configured ∨ s.host.life = .running) → occH s.build s.host ≠ s.build.fifoDepth →
      exec (.push d) s = .next { s with
        host := { s.host with
          fifoMem := s.host.fifoMem.write (s.host.wptr.toNat % s.build.fifoDepth) d
          wptr := BitVec.ofNat 4 ((s.host.wptr.toNat + 1) % (2 * s.build.fifoDepth))
          wgray := bin2gray (BitVec.ofNat 4 ((s.host.wptr.toNat + 1) % (2 * s.build.fifoDepth))) }
        env := { s.env with lastOut := { s.env.lastOut with txOk := true } } }) ∧
    ((s.host.life = .uninit ∨ s.host.life = .fault ∨ occH s.build s.host = s.build.fifoDepth) →
      exec (.push d) s = .next { s with
        env := { s.env with lastOut := { s.env.lastOut with txOk := false } } })

/-- The frame of the five host operations (R68, R160): the engine domain, the build and the host's inputs are
unchanged; REG_READ changes no register; REG_WRITE, CONFIGURE and START leave the FIFO and its synchroniser
alone; PUSH leaves every other host register alone. That the results of REG_READ and PUSH stand in lastOut, so that
REG_READ keeps its other two outputs, PUSH its other two, and the writes all of the environment, is the model's
choice (log 11). -/
def Obligations.HostOpsFrame : Prop :=
  ∀ (i : Instr) (s t : State), i.isMicroOp = false → exec i s = .next t →
    t.build = s.build ∧ t.eng = s.eng ∧ t.env.inputs = s.env.inputs ∧ t.env.inputNo = s.env.inputNo ∧
    t.host.rs = s.host.rs ∧
    ((∃ k, i = .regRead k) → t.host = s.host ∧ t.env.lastOut.txOk = s.env.lastOut.txOk ∧
      t.env.lastOut.pinClaim = s.env.lastOut.pinClaim) ∧
    ((∀ d, i ≠ .push d) → t.host.fifoMem = s.host.fifoMem ∧ t.host.wptr = s.host.wptr ∧
      t.host.wgray = s.host.wgray) ∧
    ((∃ d, i = .push d) → t.host.life = s.host.life ∧ t.host.err = s.host.err ∧ t.host.errAddr = s.host.errAddr ∧
      t.host.fclk = s.host.fclk ∧ t.host.clkdiv = s.host.clkdiv ∧ t.host.len = s.host.len ∧
      t.host.imem = s.host.imem ∧ t.env.lastOut.busRdata = s.env.lastOut.busRdata ∧
      t.env.lastOut.pinClaim = s.env.lastOut.pinClaim) ∧
    ((∃ k v g, i = .regWrite k v g) ∨ (∃ sb r g, i = .configure sb r g) ∨ (∃ r, i = .start r) →
      t.env = s.env)

/-- The stores, word by word (R55, R61, R62, R140): of all instructions only REG_WRITE of an IMEM index in
UNINIT changes IMEM, at that index alone, and only an accepted PUSH changes FIFO_MEM, at slot
wptr mod FIFO_DEPTH alone. -/
def Obligations.StoresTouchOneWord : Prop :=
  ∀ (i : Instr) (s t : State), s.host.imem.wf = true → s.host.fifoMem.wf = true → exec i s = .next t →
    (∀ a, t.host.imem.read a =
      match i with
      | .regWrite k v _ =>
          if s.host.life = .uninit ∧ k.toNat = 32 + a then v.extractLsb' 0 16 else s.host.imem.read a
      | _ => s.host.imem.read a) ∧
    (∀ a, t.host.fifoMem.read a =
      match i with
      | .push d =>
          if txOk s.build s.host = true ∧ a = s.host.wptr.toNat % s.build.fifoDepth then d
          else s.host.fifoMem.read a
      | _ => s.host.fifoMem.read a)

/-! ## The host edge as a whole -/

/-- R56, R57: at every host edge the host reads tx_ok and pin_claim as these functions of the state before the
edge, and bus_rdata as the register at bus_addr (R58). -/
def Obligations.HostEdgeShowsOutputs : Prop :=
  ∀ (ports : HostIn) (s : State), ∃ t, runEvent (.hostEdge ports) s = .next t ∧
    (t.env.lastOut.txOk = true ↔
      (s.host.life = .configured ∨ s.host.life = .running) ∧
        (s.host.wptr.toNat + 2 * s.build.fifoDepth - (gray2bin (lastStage 0 s.host.rs)).toNat)
          % (2 * s.build.fifoDepth) ≠ s.build.fifoDepth) ∧
    (t.env.lastOut.pinClaim = true ↔ s.host.life = .configured ∨ s.host.life = .running) ∧
    t.env.lastOut.busRdata = readReg s.build s.host ports.bus.addr

/-- R160, R188: a push and a register write at one edge are judged on the state before it and write disjoint
registers, so each has the effect it has alone. -/
def Obligations.SameEdgeOperationsAreIndependent : Prop :=
  ∀ (bus : BusIn) (tx : TxIn) (s t onlyBus onlyTx : State),
    runEvent (.hostEdge { bus := bus, tx := tx }) s = .next t →
    runEvent (.hostEdge { bus := bus, tx := { tx with push := false } }) s = .next onlyBus →
    runEvent (.hostEdge { bus := { bus with we := false }, tx := tx }) s = .next onlyTx →
    t.host = { onlyBus.host with
      fifoMem := onlyTx.host.fifoMem, wptr := onlyTx.host.wptr, wgray := onlyTx.host.wgray } ∧
    t.host = { onlyTx.host with
      life := onlyBus.host.life, err := onlyBus.host.err, errAddr := onlyBus.host.errAddr
      fclk := onlyBus.host.fclk, clkdiv := onlyBus.host.clkdiv, len := onlyBus.host.len
      imem := onlyBus.host.imem } ∧
    t.eng = s.eng

/-- R173: a STATUS read at the host edge after another host edge returns the LIFE and ERR that edge left,
whatever engine edges fall between; LIFE reads by its codes (R24). -/
def Obligations.StatusVisibleAtNextHostEdge : Prop :=
  ∀ (ports read : HostIn) (n : Nat) (s t u : State), read.bus.addr = 1 →
    runEvent (.hostEdge ports) s = .next t →
    runEvents (List.replicate n .engineEdge ++ [.hostEdge read]) t = .next u →
    (t.host.life = .uninit → u.env.lastOut.busRdata.extractLsb' 0 2 = 0) ∧
    (t.host.life = .configured → u.env.lastOut.busRdata.extractLsb' 0 2 = 1) ∧
    (t.host.life = .running → u.env.lastOut.busRdata.extractLsb' 0 2 = 2) ∧
    (t.host.life = .fault → u.env.lastOut.busRdata.extractLsb' 0 2 = 3) ∧
    u.env.lastOut.busRdata.extractLsb' 4 4 = t.host.err ∧
    u.env.lastOut.busRdata.extractLsb' 8 5 = t.host.errAddr

/-! ## The lifecycle (R161, R171, R172) -/

/-- R172: LIFE after any event, from any state. -/
def Obligations.LifecycleTable : Prop :=
  ∀ (ev : Event) (s t : State), runEvent ev s = .next t →
    t.host.life =
      match ev with
      | .reset => .uninit
      | .engineEdge => s.host.life
      | .hostEdge ports =>
        if ports.bus.we = true ∧ ports.bus.addr = 0 ∧ ports.bus.wdata[0] = true ∧ s.host.life = .uninit then
          (if validate ports.bus.pinGrant s.host = none then .configured else .fault)
        else if ports.bus.we = true ∧ ports.bus.addr = 0 ∧ ports.bus.wdata[1] = true ∧ s.host.life = .configured then
          .running
        else s.host.life

/-- R171: no run without a reset leaves RUNNING or FAULT, or comes back to UNINIT. -/
def Obligations.LifecycleIsIrreversible : Prop :=
  ∀ (evs : List Event) (s t : State), resetFree evs = true → runEvents evs s = .next t →
    (s.host.life = .running → t.host.life = .running) ∧ (s.host.life = .fault → t.host.life = .fault) ∧
    (s.host.life ≠ .uninit → t.host.life ≠ .uninit)

/-- R161: once LIFE has left UNINIT, no run without a reset changes FCLK, LEN, IMEM, CLKDIV, ERR or
ERR_ADDR. -/
def Obligations.ConfigurationLock : Prop :=
  ∀ (evs : List Event) (s t : State), s.host.life ≠ .uninit → resetFree evs = true →
    runEvents evs s = .next t →
    t.host.fclk = s.host.fclk ∧ t.host.len = s.host.len ∧ t.host.imem = s.host.imem ∧
    t.host.clkdiv = s.host.clkdiv ∧ t.host.err = s.host.err ∧ t.host.errAddr = s.host.errAddr

/-- R41, R204: in every run from reset, as long as LIFE is not RUNNING no tick is due and dout is still LOW,
and the engine's entry point is still IMEM[0]. -/
def Obligations.NothingHappensBeforeStart : Prop :=
  ∀ (b : Build) (evs : List Event) (t : State), runEvents evs (State.resetOf b) = .next t →
    t.host.life ≠ .running →
    tickDue t.eng = false ∧ t.eng.dout = false ∧ t.eng.pc = 0 ∧ t.eng.divCnt = 0 ∧ t.eng.rptr = 0

/-! ## The FIFO (42_transmit_queue.md) -/

/-- R145: at every point of every run, 0 ≤ occ_e ≤ occ ≤ occ_h ≤ FIFO_DEPTH. -/
def Obligations.OccupancyOrder : Prop :=
  ∀ (b : Build) (evs : List Event) (t : State), runEvents evs (State.resetOf b) = .next t →
    0 ≤ occE t.build t.eng ∧ occE t.build t.eng ≤ occ t ∧ occ t ≤ occH t.build t.host ∧
      occH t.build t.host ≤ t.build.fifoDepth

/-- R72, R146: over any run without a reset, the words that were queued followed by the words accepted are
the words popped followed by the words still queued: none is dropped, duplicated or reordered. -/
def Obligations.FifoDeliversInOrder : Prop :=
  ∀ (evs : List Event) (s t : State), Inv s → resetFree evs = true → runEvents evs s = .next t →
    queued s ++ collect acceptedWords evs s = collect poppedWords evs s ++ queued t

/-- R125: over any run without a reset, the values that non-stalled OUTs leave in X are the rest of the word
that was loaded and then the bits of the popped words, in pop order and each in SHIFT_DIR order, up to the bits
still pending. -/
def Obligations.BitStreamIsThePoppedWords : Prop :=
  ∀ (evs : List Event) (s t : State), Inv s → resetFree evs = true → runEvents evs s = .next t →
    (pendingBits s ++ (collect poppedWords evs s).flatMap (bitsOut s.build.shiftDir)).map wordOfBit =
      collect valuesWrittenToX evs s ++ (pendingBits t).map wordOfBit

/-- R73, R148, R149: what a domain's logic reads of the other is the other's value as it was SYNC_STAGES of
its own edges ago, exactly, whatever happens between: the engine's view of wptr and of the run level, and the
host's view of rptr. -/
def Obligations.SynchronisersDelayExactly : Prop :=
  (∀ (evs : List Event) (s t : State), Inv s → resetFree evs = true →
    engineEdges evs + 1 = s.build.syncStages → runEvents (.engineEdge :: evs) s = .next t →
    wptrE t.eng = s.host.wptr ∧ (runE t.eng = true ↔ s.host.life = .running)) ∧
  (∀ (ports : HostIn) (evs : List Event) (s t : State), Inv s → resetFree evs = true →
    hostEdges evs + 1 = s.build.syncStages → runEvents (.hostEdge ports :: evs) s = .next t →
    rptrH t.host = s.eng.rptr)

/-- R31, R44: gray2bin inverts bin2gray bit by bit as R44 gives it, and successive pointers differ in exactly
one Gray bit, the wrap included. -/
def Obligations.GrayCodeStepsOneBit : Prop :=
  (∀ p g : Ptr, (gray2bin g = p ↔ bin2gray p = g) ∧ bin2gray p = p ^^^ (p >>> 1)) ∧
  (∀ g : Ptr, (gray2bin g)[3] = g[3] ∧ (gray2bin g)[2] = ((gray2bin g)[3] ^^ g[2]) ∧
    (gray2bin g)[1] = ((gray2bin g)[2] ^^ g[1]) ∧ (gray2bin g)[0] = ((gray2bin g)[1] ^^ g[0])) ∧
  (∀ (b : Build) (p : Ptr), p.toNat < 2 * b.fifoDepth →
    ∃ k, k < 4 ∧ bin2gray p ^^^ bin2gray (ptrNext b p) = 1#4 <<< k)

/-! ## Time (41_timing_program.md R113, R122, 70_reset_and_hazards.md R203) -/

/-- R122: a micro-op with delay d that does not stall leaves dout at its side value and then only counts down
for d ticks; an OUT that stalls for n ticks holds its side value and changes nothing else. -/
def Obligations.MicroOpDuration : Prop :=
  ∀ (s : State) (i : Instr) (w : MicroWord), w = s.host.imem.read s.eng.pc.toNat → decodeMicro w = .ok i →
    s.eng.delayCnt = 0 →
    (¬ ((∃ side delay, i = .outX side delay) ∧ osrExhausted s.eng = true ∧ emptyE s.eng = true) →
      ∃ t, tick s = .next t ∧ t.eng.dout = w[12] ∧ t.eng.delayCnt = w.extractLsb' 8 4 ∧
        ∀ k, k ≤ (w.extractLsb' 8 4).toNat →
          runTicks k t = .next (List.replicate k w[12],
            { t with eng := { t.eng with delayCnt := BitVec.ofNat 4 ((w.extractLsb' 8 4).toNat - k) } })) ∧
    (∀ n, (∃ side delay, i = .outX side delay) → osrExhausted s.eng = true → emptyE s.eng = true →
      runTicks (n + 1) s = .next (List.replicate (n + 1) w[12], { s with eng := { s.eng with dout := w[12] } }))

/-- R113, R203: after START the first tick is the (SYNC_STAGES+1)-th engine edge, and from it on the ticks are
exactly every CLKDIV-th engine edge, whatever host edges fall between. -/
def Obligations.TicksFallEveryClkdivEdges : Prop :=
  ∀ (ports : HostIn) (evs : List Event) (s started t : State), Inv s → s.host.life = .configured →
    runEvent (.hostEdge ports) s = .next started → started.host.life = .running → resetFree evs = true →
    runEvents evs started = .next t →
    (tickDue t.eng = true ↔
      s.build.syncStages ≤ engineEdges evs ∧ s.host.clkdiv.toNat ∣ engineEdges evs - s.build.syncStages)

/-- R113, R171: under a weakly fair schedule without a reset, a RUNNING engine comes to a tick again and
again. -/
def Obligations.FairScheduleKeepsTicking : Prop :=
  ∀ (sched : Schedule) (s : State), WeaklyFair sched → (∀ n, sched n ≠ .reset) → Inv s →
    s.host.life = .running →
    ∀ k, ∃ n t, k ≤ n ∧ runEvents (scheduled sched 0 n) s = .next t ∧ sched n = .engineEdge ∧ tickDue t.eng = true

/-- R102, R104: the divisor truncates: D × 8000000 ≤ FCLK < (D + 1) × 8000000, and D is at most 536. -/
def Obligations.DivisorTruncates : Prop :=
  ∀ fclk : Word, (divCalc fclk).toNat * 8000000 ≤ fclk.toNat ∧
    fclk.toNat < ((divCalc fclk).toNat + 1) * 8000000 ∧ (divCalc fclk).toNat ≤ 536

/-! ## The canonical program (R127 to R131) -/

/-- R127: with the canonical program installed, from the tick at which the OUT at index 0 completes, one bit
period of CYCLES_PER_BIT ticks drives T3 LOW, T1 HIGH and T2 ticks at the bit, and pc is 0 again. -/
def Obligations.CanonicalBitPeriod : Prop :=
  ∀ (s : State) (bit : Bool), Installed (canonicalProgram s.build) s.host → s.eng.pc = 0 → s.eng.delayCnt = 0 →
    (osrExhausted s.eng = true → emptyE s.eng = false) →
    bit = frontBit s.build.shiftDir
      (if osrExhausted s.eng = true then s.host.fifoMem.read (s.eng.rptr.toNat % s.build.fifoDepth) else s.eng.osr) →
    ∃ t, runTicks Config.cyclesPerBit s =
        .next (List.replicate s.build.t3 false ++ List.replicate s.build.t1 true ++ List.replicate s.build.t2 bit, t) ∧
      t.host = s.host ∧ t.eng.pc = 0 ∧ t.eng.delayCnt = 0 ∧ t.eng.dout = bit ∧ t.eng.x = wordOfBit bit

/-- R64, R125, R130: with the canonical program, an exhausted OSR and a word in the engine view, the next 320
ticks send the word's 32 bits in SHIFT_DIR order, one bit period each and without a gap; then OSR is 0 and
exhausted, and pc is 0. -/
def Obligations.CanonicalWordWaveform : Prop :=
  ∀ (s : State) (w : Word), Installed (canonicalProgram s.build) s.host → s.eng.pc = 0 → s.eng.delayCnt = 0 →
    s.eng.osrCnt = 32 → emptyE s.eng = false →
    w = s.host.fifoMem.read (s.eng.rptr.toNat % s.build.fifoDepth) →
    ∃ t, runTicks (Config.wordBits * Config.cyclesPerBit) s =
        .next ((bitsOut s.build.shiftDir w).flatMap (bitWaveform s.build), t) ∧
      t.host = s.host ∧ t.eng.pc = 0 ∧ t.eng.delayCnt = 0 ∧ t.eng.osr = 0 ∧ t.eng.osrCnt = 32 ∧
      t.eng.rptr = ptrNext s.build s.eng.rptr ∧
      t.eng.x = wordOfBit (if s.build.shiftDir = .msbFirst then w[0] else w[31])

/-- R131: decoding the trace of dout, a HIGH run of T1+T2 ticks being a 1 and one of T1 ticks a 0, gives the bit
stream back. First, over any run without a reset of a configured block with the canonical program installed, from
one point where the OUT at index 0 is to issue to another, whatever stalls and host edges fall between, the trace
decodes to the bits that the OUTs wrote to X. Second, the 320 ticks of one word in view decode to the word's bits
(R130). Third, every train of bit waveforms with LOW stalls between them (R127, R128) decodes to its bits. -/
def Obligations.TraceDecodesToBits : Prop :=
  (∀ (evs : List Event) (s t : State), Installed (canonicalProgram s.build) s.host → s.host.life ≠ .uninit →
    s.eng.pc = 0 → s.eng.delayCnt = 0 → resetFree evs = true → runEvents evs s = .next t → t.eng.pc = 0 →
    t.eng.delayCnt = 0 →
    decodeTrace s.build (collect tickLevels evs s) =
      (collect valuesWrittenToX evs s).map fun v => some (v != 0)) ∧
  (∀ (s : State) (w : Word), Installed (canonicalProgram s.build) s.host → s.eng.pc = 0 → s.eng.delayCnt = 0 →
    s.eng.osrCnt = 32 → emptyE s.eng = false →
    w = s.host.fifoMem.read (s.eng.rptr.toNat % s.build.fifoDepth) →
    ∃ trace t, runTicks (Config.wordBits * Config.cyclesPerBit) s = .next (trace, t) ∧
      decodeTrace s.build trace = (bitsOut s.build.shiftDir w).map some) ∧
  (∀ (b : Build) (sent : List (Nat × Bool)) (stall : Nat),
    decodeTrace b
        (sent.flatMap (fun p => List.replicate p.1 false ++ bitWaveform b p.2) ++ List.replicate stall false) =
      sent.map fun p => some p.2)

/-- R214: in a quiescent state that meets the invariant every engine edge and every host edge without a push
leaves a quiescent state, in which only run_s (until the run level has filled it), div_cnt and dout can have
changed, and at a host edge nothing of the engine; a tick drives dout to the OUT's side value; and tx_ok = 1. -/
def Obligations.QuiescenceLasts : Prop :=
  ∀ (side : Bool) (delay : BitVec 4) (ev : Event) (s : State), Inv s → Quiescent side delay s →
    ev ≠ .reset → pushFree ev = true →
    ∃ t, runEvent ev s = .next t ∧ Quiescent side delay t ∧ t.host = s.host ∧
      t.eng = { s.eng with
        runS := t.eng.runS, divCnt := t.eng.divCnt
        dout := if ev = .engineEdge ∧ tickDue s.eng = true then side else s.eng.dout } ∧
      ((∀ r ∈ s.eng.runS, r = true) → t.eng.runS = s.eng.runS) ∧ (isHostEdge ev = true → t.eng = s.eng) ∧
      txOk s.build s.host = true

/-! ## What one domain can learn of the other -/

/-- R19, R155, R195: over host edges, what the host reads and what its domain becomes do not depend on the
engine's pc, delay, OSR, osr_cnt, X, dout, divider or synchronisers, nor on the true occupancy, but only on
the Gray read pointer that crosses. -/
def Obligations.HostCannotObserveEngine : Prop :=
  ∀ (evs : List Event) (s s' t t' : State), evs.all isHostEdge = true → s.build = s'.build → s.host = s'.host →
    s.env = s'.env → s.eng.rgray = s'.eng.rgray → runEvents evs s = .next t → runEvents evs s' = .next t' →
    t.host = t'.host ∧ t.env = t'.env

/-- R19, R23: an engine edge depends on the host domain only through the run level, wgray, CLKDIV, LEN, IMEM
and FIFO_MEM. -/
def Obligations.EngineSamplesOnlyTheCrossing : Prop :=
  ∀ s s' : State, s.build = s'.build → s.eng = s'.eng →
    (s.host.life = .running ↔ s'.host.life = .running) → s.host.wgray = s'.host.wgray →
    s.host.clkdiv = s'.host.clkdiv → s.host.len = s'.host.len → s.host.imem = s'.host.imem →
    s.host.fifoMem = s'.host.fifoMem →
    (∀ t, runEvent .engineEdge s = .next t → ∃ t', runEvent .engineEdge s' = .next t' ∧ t'.eng = t.eng) ∧
    (∀ r, runEvent .engineEdge s = .fault r → runEvent .engineEdge s' = .fault r)

/-! ## The assembler (R92 to R94) -/

/-- R94: the worked example's statement, with its constant and its label, assembles to 0x1123. It starts from the
parsed statements, not from the text. That do_zero, a label with no instruction after it, has the number of
instructions, 3, as its value is the model's choice (log 16). -/
def Obligations.WorkedExampleAssembles : Prop :=
  Assembler.assembleStmts
      [.sideSet, .define "T1" [.num 2],
        .instr (.jmpNotX (.word "do_zero")) true [.word "T1", .sym '-', .num 1],
        .instr .nop false [.num 0], .instr .nop false [.num 0], .label "do_zero"] =
    .ok [.jmpNotX true 1 3, .nop false 0, .nop false 0] ∧
  (Assembler.wordsOf (.jmpNotX true 1 3) = [0x1123#16])
end

