-- ==== Sys2Proof/Laws/Decode.lean ====
section
/-! SUPPORT. What the decoders can answer: the micro-op decoder answers a micro-op, the port decoders a host
operation, and the rows of the table do not overlap (30_encoding.md R87). -/

namespace Sys2Proof

/-- The masks and matches of the four rows, in R87's order. -/
def microRows : List (MicroWord × MicroWord) :=
  [(jmpMask, jmpMatch), (jmpNotXMask, jmpNotXMatch), (outXMask, outXMatch), (nopMask, nopMatch)]

/-- "No word matches two rows": two rows differ in a bit that both masks read (R87). -/
theorem microRows_disjoint : microRows.Pairwise fun r q => r.1 &&& q.1 &&& (r.2 ^^^ q.2) ≠ 0 := by decide

theorem decodeMicro_isMicroOp {w : MicroWord} {i : Instr} (h : decodeMicro w = .ok i) : i.isMicroOp = true := by
  simp only [decodeMicro] at h
  split at h
  · cases h; rfl
  · split at h
    · cases h; rfl
    · split at h
      · cases h; rfl
      · split at h
        · cases h; rfl
        · cases h

theorem decodeBus_isHostOp (p : BusIn) : (decodeBus p).isMicroOp = false := by
  simp only [decodeBus]
  split_ifs <;> rfl

theorem decodeTx_eq_push {p : TxIn} {i : Instr} (h : decodeTx p = .ok i) : p.push = true ∧ i = .push p.data := by
  simp only [decodeTx] at h
  split at h
  · rename_i hp
    cases h
    exact ⟨hp, rfl⟩
  · cases h

/-- Every word is admitted or reserved, and `admitted` says which. -/
theorem admitted_iff (w : MicroWord) : admitted w = true ↔ ∃ i, decodeMicro w = .ok i := by
  simp only [admitted]
  split
  · rename_i i h
    simp [h]
  · rename_i e h
    simp [h]

end Sys2Proof
end

