-- ==== Sys2Proof/Laws/State.lean ====
section
/-! SUPPORT. One lemma per field per named update, so that no proof unfolds a record update. -/

namespace Sys2Proof.Machine

variable (s : State) (h : HostSide) (e : EngineSide) (b : Build)

/-! ## State -/

@[simp] theorem State.withHost_build : (s.withHost h).build = s.build := rfl
@[simp] theorem State.withHost_host : (s.withHost h).host = h := rfl
@[simp] theorem State.withHost_eng : (s.withHost h).eng = s.eng := rfl
@[simp] theorem State.withHost_env : (s.withHost h).env = s.env := rfl
@[simp] theorem State.withEng_build : (s.withEng e).build = s.build := rfl
@[simp] theorem State.withEng_host : (s.withEng e).host = s.host := rfl
@[simp] theorem State.withEng_eng : (s.withEng e).eng = e := rfl
@[simp] theorem State.withEng_env : (s.withEng e).env = s.env := rfl
@[simp] theorem State.withLastOut_build (o : HostOut) : (s.withLastOut o).build = s.build := rfl
@[simp] theorem State.withLastOut_host (o : HostOut) : (s.withLastOut o).host = s.host := rfl
@[simp] theorem State.withLastOut_eng (o : HostOut) : (s.withLastOut o).eng = s.eng := rfl
@[simp] theorem State.withLastOut_inputs (o : HostOut) : (s.withLastOut o).env.inputs = s.env.inputs := rfl
@[simp] theorem State.withLastOut_inputNo (o : HostOut) : (s.withLastOut o).env.inputNo = s.env.inputNo := rfl
@[simp] theorem State.withLastOut_lastOut (o : HostOut) : (s.withLastOut o).env.lastOut = o := rfl
@[simp] theorem State.withInputs_build (es : List Event) : (s.withInputs es).build = s.build := rfl
@[simp] theorem State.withInputs_host (es : List Event) : (s.withInputs es).host = s.host := rfl
@[simp] theorem State.withInputs_eng (es : List Event) : (s.withInputs es).eng = s.eng := rfl
@[simp] theorem State.withInputs_inputs (es : List Event) : (s.withInputs es).env.inputs = es := rfl
@[simp] theorem State.withInputs_inputNo (es : List Event) : (s.withInputs es).env.inputNo = s.env.inputNo := rfl
@[simp] theorem State.withInputs_lastOut (es : List Event) : (s.withInputs es).env.lastOut = s.env.lastOut := rfl

/-! ## HostSide.enqueue -/

@[simp] theorem HostSide.enqueue_life (data : Word) : (h.enqueue b data).life = h.life := rfl
@[simp] theorem HostSide.enqueue_err (data : Word) : (h.enqueue b data).err = h.err := rfl
@[simp] theorem HostSide.enqueue_errAddr (data : Word) : (h.enqueue b data).errAddr = h.errAddr := rfl
@[simp] theorem HostSide.enqueue_fclk (data : Word) : (h.enqueue b data).fclk = h.fclk := rfl
@[simp] theorem HostSide.enqueue_clkdiv (data : Word) : (h.enqueue b data).clkdiv = h.clkdiv := rfl
@[simp] theorem HostSide.enqueue_len (data : Word) : (h.enqueue b data).len = h.len := rfl
@[simp] theorem HostSide.enqueue_imem (data : Word) : (h.enqueue b data).imem = h.imem := rfl
@[simp] theorem HostSide.enqueue_fifoMem (data : Word) : (h.enqueue b data).fifoMem = h.fifoMem.write (slotOf b h.wptr) data := rfl
@[simp] theorem HostSide.enqueue_wptr (data : Word) : (h.enqueue b data).wptr = ptrNext b h.wptr := rfl
@[simp] theorem HostSide.enqueue_wgray (data : Word) : (h.enqueue b data).wgray = bin2gray (ptrNext b h.wptr) := rfl
@[simp] theorem HostSide.enqueue_rs (data : Word) : (h.enqueue b data).rs = h.rs := rfl

/-! ## HostSide.configFault -/

@[simp] theorem HostSide.configFault_life (code : ConfigError) (addr : BitVec 5) : (h.configFault code addr).life = .fault := rfl
@[simp] theorem HostSide.configFault_err (code : ConfigError) (addr : BitVec 5) : (h.configFault code addr).err = configErrorCode code := rfl
@[simp] theorem HostSide.configFault_errAddr (code : ConfigError) (addr : BitVec 5) : (h.configFault code addr).errAddr = addr := rfl
@[simp] theorem HostSide.configFault_fclk (code : ConfigError) (addr : BitVec 5) : (h.configFault code addr).fclk = h.fclk := rfl
@[simp] theorem HostSide.configFault_clkdiv (code : ConfigError) (addr : BitVec 5) : (h.configFault code addr).clkdiv = h.clkdiv := rfl
@[simp] theorem HostSide.configFault_len (code : ConfigError) (addr : BitVec 5) : (h.configFault code addr).len = h.len := rfl
@[simp] theorem HostSide.configFault_imem (code : ConfigError) (addr : BitVec 5) : (h.configFault code addr).imem = h.imem := rfl
@[simp] theorem HostSide.configFault_fifoMem (code : ConfigError) (addr : BitVec 5) : (h.configFault code addr).fifoMem = h.fifoMem := rfl
@[simp] theorem HostSide.configFault_wptr (code : ConfigError) (addr : BitVec 5) : (h.configFault code addr).wptr = h.wptr := rfl
@[simp] theorem HostSide.configFault_wgray (code : ConfigError) (addr : BitVec 5) : (h.configFault code addr).wgray = h.wgray := rfl
@[simp] theorem HostSide.configFault_rs (code : ConfigError) (addr : BitVec 5) : (h.configFault code addr).rs = h.rs := rfl

/-! ## HostSide.start -/

@[simp] theorem HostSide.start_life : (h.start ).life = .running := rfl
@[simp] theorem HostSide.start_err : (h.start ).err = h.err := rfl
@[simp] theorem HostSide.start_errAddr : (h.start ).errAddr = h.errAddr := rfl
@[simp] theorem HostSide.start_fclk : (h.start ).fclk = h.fclk := rfl
@[simp] theorem HostSide.start_clkdiv : (h.start ).clkdiv = h.clkdiv := rfl
@[simp] theorem HostSide.start_len : (h.start ).len = h.len := rfl
@[simp] theorem HostSide.start_imem : (h.start ).imem = h.imem := rfl
@[simp] theorem HostSide.start_fifoMem : (h.start ).fifoMem = h.fifoMem := rfl
@[simp] theorem HostSide.start_wptr : (h.start ).wptr = h.wptr := rfl
@[simp] theorem HostSide.start_wgray : (h.start ).wgray = h.wgray := rfl
@[simp] theorem HostSide.start_rs : (h.start ).rs = h.rs := rfl

/-! ## EngineSide.drive -/

@[simp] theorem EngineSide.drive_runS (side : Bool) : (e.drive side).runS = e.runS := rfl
@[simp] theorem EngineSide.drive_ws (side : Bool) : (e.drive side).ws = e.ws := rfl
@[simp] theorem EngineSide.drive_divCnt (side : Bool) : (e.drive side).divCnt = e.divCnt := rfl
@[simp] theorem EngineSide.drive_pc (side : Bool) : (e.drive side).pc = e.pc := rfl
@[simp] theorem EngineSide.drive_delayCnt (side : Bool) : (e.drive side).delayCnt = e.delayCnt := rfl
@[simp] theorem EngineSide.drive_osr (side : Bool) : (e.drive side).osr = e.osr := rfl
@[simp] theorem EngineSide.drive_osrCnt (side : Bool) : (e.drive side).osrCnt = e.osrCnt := rfl
@[simp] theorem EngineSide.drive_x (side : Bool) : (e.drive side).x = e.x := rfl
@[simp] theorem EngineSide.drive_dout (side : Bool) : (e.drive side).dout = side := rfl
@[simp] theorem EngineSide.drive_rptr (side : Bool) : (e.drive side).rptr = e.rptr := rfl
@[simp] theorem EngineSide.drive_rgray (side : Bool) : (e.drive side).rgray = e.rgray := rfl

/-! ## EngineSide.issued -/

@[simp] theorem EngineSide.issued_runS (side : Bool) (delay : BitVec 4) (pc : BitVec 5) : (e.issued side delay pc).runS = e.runS := rfl
@[simp] theorem EngineSide.issued_ws (side : Bool) (delay : BitVec 4) (pc : BitVec 5) : (e.issued side delay pc).ws = e.ws := rfl
@[simp] theorem EngineSide.issued_divCnt (side : Bool) (delay : BitVec 4) (pc : BitVec 5) : (e.issued side delay pc).divCnt = e.divCnt := rfl
@[simp] theorem EngineSide.issued_pc (side : Bool) (delay : BitVec 4) (pc : BitVec 5) : (e.issued side delay pc).pc = pc := rfl
@[simp] theorem EngineSide.issued_delayCnt (side : Bool) (delay : BitVec 4) (pc : BitVec 5) : (e.issued side delay pc).delayCnt = delay := rfl
@[simp] theorem EngineSide.issued_osr (side : Bool) (delay : BitVec 4) (pc : BitVec 5) : (e.issued side delay pc).osr = e.osr := rfl
@[simp] theorem EngineSide.issued_osrCnt (side : Bool) (delay : BitVec 4) (pc : BitVec 5) : (e.issued side delay pc).osrCnt = e.osrCnt := rfl
@[simp] theorem EngineSide.issued_x (side : Bool) (delay : BitVec 4) (pc : BitVec 5) : (e.issued side delay pc).x = e.x := rfl
@[simp] theorem EngineSide.issued_dout (side : Bool) (delay : BitVec 4) (pc : BitVec 5) : (e.issued side delay pc).dout = side := rfl
@[simp] theorem EngineSide.issued_rptr (side : Bool) (delay : BitVec 4) (pc : BitVec 5) : (e.issued side delay pc).rptr = e.rptr := rfl
@[simp] theorem EngineSide.issued_rgray (side : Bool) (delay : BitVec 4) (pc : BitVec 5) : (e.issued side delay pc).rgray = e.rgray := rfl

/-! ## EngineSide.load -/

@[simp] theorem EngineSide.load_runS (mem : Memory 32) : (e.load b mem).runS = e.runS := rfl
@[simp] theorem EngineSide.load_ws (mem : Memory 32) : (e.load b mem).ws = e.ws := rfl
@[simp] theorem EngineSide.load_divCnt (mem : Memory 32) : (e.load b mem).divCnt = e.divCnt := rfl
@[simp] theorem EngineSide.load_pc (mem : Memory 32) : (e.load b mem).pc = e.pc := rfl
@[simp] theorem EngineSide.load_delayCnt (mem : Memory 32) : (e.load b mem).delayCnt = e.delayCnt := rfl
@[simp] theorem EngineSide.load_osr (mem : Memory 32) : (e.load b mem).osr = mem.read (slotOf b e.rptr) := rfl
@[simp] theorem EngineSide.load_osrCnt (mem : Memory 32) : (e.load b mem).osrCnt = 0 := rfl
@[simp] theorem EngineSide.load_x (mem : Memory 32) : (e.load b mem).x = e.x := rfl
@[simp] theorem EngineSide.load_dout (mem : Memory 32) : (e.load b mem).dout = e.dout := rfl
@[simp] theorem EngineSide.load_rptr (mem : Memory 32) : (e.load b mem).rptr = ptrNext b e.rptr := rfl
@[simp] theorem EngineSide.load_rgray (mem : Memory 32) : (e.load b mem).rgray = bin2gray (ptrNext b e.rptr) := rfl

/-! ## EngineSide.shiftBit -/

@[simp] theorem EngineSide.shiftBit_runS (dir : ShiftDir) : (e.shiftBit dir).runS = e.runS := rfl
@[simp] theorem EngineSide.shiftBit_ws (dir : ShiftDir) : (e.shiftBit dir).ws = e.ws := rfl
@[simp] theorem EngineSide.shiftBit_divCnt (dir : ShiftDir) : (e.shiftBit dir).divCnt = e.divCnt := rfl
@[simp] theorem EngineSide.shiftBit_pc (dir : ShiftDir) : (e.shiftBit dir).pc = e.pc := rfl
@[simp] theorem EngineSide.shiftBit_delayCnt (dir : ShiftDir) : (e.shiftBit dir).delayCnt = e.delayCnt := rfl
@[simp] theorem EngineSide.shiftBit_osr (dir : ShiftDir) : (e.shiftBit dir).osr = shiftedOut dir e.osr := rfl
@[simp] theorem EngineSide.shiftBit_osrCnt (dir : ShiftDir) : (e.shiftBit dir).osrCnt = e.osrCnt + 1 := rfl
@[simp] theorem EngineSide.shiftBit_x (dir : ShiftDir) : (e.shiftBit dir).x = wordOfBit (frontBit dir e.osr) := rfl
@[simp] theorem EngineSide.shiftBit_dout (dir : ShiftDir) : (e.shiftBit dir).dout = e.dout := rfl
@[simp] theorem EngineSide.shiftBit_rptr (dir : ShiftDir) : (e.shiftBit dir).rptr = e.rptr := rfl
@[simp] theorem EngineSide.shiftBit_rgray (dir : ShiftDir) : (e.shiftBit dir).rgray = e.rgray := rfl

/-! ## clockEngine -/

@[simp] theorem clockEngine_runS :
    (clockEngine s e).runS = shiftIn (s.host.life == .running) s.eng.runS := rfl
@[simp] theorem clockEngine_ws :
    (clockEngine s e).ws = shiftIn s.host.wgray s.eng.ws := rfl
@[simp] theorem clockEngine_divCnt :
    (clockEngine s e).divCnt = if runE s.eng then divNext s.host.clkdiv s.eng.divCnt else s.eng.divCnt := rfl
@[simp] theorem clockEngine_pc : (clockEngine s e).pc = e.pc := rfl
@[simp] theorem clockEngine_delayCnt : (clockEngine s e).delayCnt = e.delayCnt := rfl
@[simp] theorem clockEngine_osr : (clockEngine s e).osr = e.osr := rfl
@[simp] theorem clockEngine_osrCnt : (clockEngine s e).osrCnt = e.osrCnt := rfl
@[simp] theorem clockEngine_x : (clockEngine s e).x = e.x := rfl
@[simp] theorem clockEngine_dout : (clockEngine s e).dout = e.dout := rfl
@[simp] theorem clockEngine_rptr : (clockEngine s e).rptr = e.rptr := rfl
@[simp] theorem clockEngine_rgray : (clockEngine s e).rgray = e.rgray := rfl

/-! ## commitHost -/

@[simp] theorem commitHost_build (a : BitVec 6) (bus tx : State) : (commitHost a s bus tx).build = s.build := rfl
@[simp] theorem commitHost_eng (a : BitVec 6) (bus tx : State) : (commitHost a s bus tx).eng = s.eng := rfl
@[simp] theorem commitHost_inputs (a : BitVec 6) (bus tx : State) :
    (commitHost a s bus tx).env.inputs = s.env.inputs := rfl
@[simp] theorem commitHost_inputNo (a : BitVec 6) (bus tx : State) :
    (commitHost a s bus tx).env.inputNo = s.env.inputNo := rfl
@[simp] theorem commitHost_lastOut (a : BitVec 6) (bus tx : State) :
    (commitHost a s bus tx).env.lastOut = hostOutputs s.build s.host a := rfl
@[simp] theorem commitHost_life (a : BitVec 6) (bus tx : State) :
    (commitHost a s bus tx).host.life = bus.host.life := rfl
@[simp] theorem commitHost_err (a : BitVec 6) (bus tx : State) :
    (commitHost a s bus tx).host.err = bus.host.err := rfl
@[simp] theorem commitHost_errAddr (a : BitVec 6) (bus tx : State) :
    (commitHost a s bus tx).host.errAddr = bus.host.errAddr := rfl
@[simp] theorem commitHost_fclk (a : BitVec 6) (bus tx : State) :
    (commitHost a s bus tx).host.fclk = bus.host.fclk := rfl
@[simp] theorem commitHost_clkdiv (a : BitVec 6) (bus tx : State) :
    (commitHost a s bus tx).host.clkdiv = bus.host.clkdiv := rfl
@[simp] theorem commitHost_len (a : BitVec 6) (bus tx : State) :
    (commitHost a s bus tx).host.len = bus.host.len := rfl
@[simp] theorem commitHost_imem (a : BitVec 6) (bus tx : State) :
    (commitHost a s bus tx).host.imem = bus.host.imem := rfl
@[simp] theorem commitHost_fifoMem (a : BitVec 6) (bus tx : State) :
    (commitHost a s bus tx).host.fifoMem = tx.host.fifoMem := rfl
@[simp] theorem commitHost_wptr (a : BitVec 6) (bus tx : State) :
    (commitHost a s bus tx).host.wptr = tx.host.wptr := rfl
@[simp] theorem commitHost_wgray (a : BitVec 6) (bus tx : State) :
    (commitHost a s bus tx).host.wgray = tx.host.wgray := rfl
@[simp] theorem commitHost_rs (a : BitVec 6) (bus tx : State) :
    (commitHost a s bus tx).host.rs = shiftIn s.eng.rgray s.host.rs := rfl

/-! ## LIFE -/

@[simp] theorem lifeActive_uninit : lifeActive .uninit = false := rfl
@[simp] theorem lifeActive_configured : lifeActive .configured = true := rfl
@[simp] theorem lifeActive_running : lifeActive .running = true := rfl
@[simp] theorem lifeActive_fault : lifeActive .fault = false := rfl

end Sys2Proof.Machine
end

