-- ==== Sys2Proof/Laws/Engine.lean ====
section
/-! SUPPORT. What a micro-op can do, said once: `OUT X, 1` is a stall, a refill with a shift, or a shift; and
every micro-op completes, touching only the engine registers a tick may write. -/

namespace Sys2Proof.Machine

/-- The three cases of `OUT X, 1` (41_timing_program.md R117). -/
theorem outStep_cases (b : Build) (mem : Memory 32) (len : BitVec 6) (side : Bool) (delay : BitVec 4)
    (e : EngineSide) :
    (osrExhausted e = true ∧ emptyE e = true ∧ outStep b mem len side delay e = e.drive side) ∨
    (osrExhausted e = true ∧ emptyE e = false ∧
      outStep b mem len side delay e =
        ((e.load b mem).shiftBit b.shiftDir).issued side delay (nextPc len e.pc)) ∨
    (osrExhausted e = false ∧
      outStep b mem len side delay e = (e.shiftBit b.shiftDir).issued side delay (nextPc len e.pc)) := by
  unfold outStep
  cases hx : osrExhausted e <;> cases hy : emptyE e <;> simp

@[simp] theorem outStep_runS (b : Build) (mem : Memory 32) (len : BitVec 6) (side : Bool) (delay : BitVec 4)
    (e : EngineSide) : (outStep b mem len side delay e).runS = e.runS := by
  obtain ⟨-, -, h⟩ | ⟨-, -, h⟩ | ⟨-, h⟩ := outStep_cases b mem len side delay e <;> simp [h]

@[simp] theorem outStep_ws (b : Build) (mem : Memory 32) (len : BitVec 6) (side : Bool) (delay : BitVec 4)
    (e : EngineSide) : (outStep b mem len side delay e).ws = e.ws := by
  obtain ⟨-, -, h⟩ | ⟨-, -, h⟩ | ⟨-, h⟩ := outStep_cases b mem len side delay e <;> simp [h]

@[simp] theorem outStep_divCnt (b : Build) (mem : Memory 32) (len : BitVec 6) (side : Bool) (delay : BitVec 4)
    (e : EngineSide) : (outStep b mem len side delay e).divCnt = e.divCnt := by
  obtain ⟨-, -, h⟩ | ⟨-, -, h⟩ | ⟨-, h⟩ := outStep_cases b mem len side delay e <;> simp [h]

/-- The engine side a micro-op leaves; a host operation leaves it alone. -/
def engAfter (i : Instr) (s : State) : EngineSide :=
  match i with
  | .jmp side delay target => s.eng.issued side delay target
  | .jmpNotX side delay target =>
      s.eng.issued side delay (if xIsZero s.eng then target else nextPc s.host.len s.eng.pc)
  | .outX side delay => outStep s.build s.host.fifoMem s.host.len side delay s.eng
  | .nop side delay => s.eng.issued side delay (nextPc s.host.len s.eng.pc)
  | .regRead _ => s.eng
  | .regWrite _ _ _ => s.eng
  | .configure _ _ _ => s.eng
  | .start _ => s.eng
  | .push _ => s.eng

/-- A micro-op completes, and only the engine side changes. -/
theorem exec_microOp {i : Instr} (h : i.isMicroOp = true) (s : State) :
    exec i s = .next (s.withEng (engAfter i s)) := by
  cases i <;> first | rfl | simp [Instr.isMicroOp] at h

@[simp] theorem engAfter_runS (i : Instr) (s : State) : (engAfter i s).runS = s.eng.runS := by
  cases i <;> simp [engAfter]

@[simp] theorem engAfter_ws (i : Instr) (s : State) : (engAfter i s).ws = s.eng.ws := by
  cases i <;> simp [engAfter]

@[simp] theorem engAfter_divCnt (i : Instr) (s : State) : (engAfter i s).divCnt = s.eng.divCnt := by
  cases i <;> simp [engAfter]

end Sys2Proof.Machine
end

