-- ==== Sys2Proof/Laws/HostPort.lean ====
section
/-! SUPPORT. What a host operation can do, said once: every one completes; the bus port's is a read or one
`writeReg`, whatever name its encoding has; the push port's is a push. -/

namespace Sys2Proof.Machine

/-- The host side the bus port's operation leaves. -/
def busAfter (p : BusIn) (h : HostSide) : HostSide := if p.we then h.writeReg p.addr p.wdata p.pinGrant else h

/-- The host side the push port leaves. -/
def txAfter (b : Build) (p : TxIn) (h : HostSide) : HostSide := if p.push then h.push b p.data else h

/-- CONFIGURE and START are the write of CTRL that R95 says they are, so one operation describes the bus
port. -/
theorem exec_decodeBus (p : BusIn) (s : State) :
    ∃ t, exec (decodeBus p) s = .next t ∧ t.host = busAfter p s.host ∧ t.build = s.build ∧ t.eng = s.eng := by
  obtain ⟨addr, we, wdata, grant⟩ := p
  cases we with
  | false => exact ⟨_, rfl, rfl, rfl, rfl⟩
  | true =>
    by_cases ha : addr = 0#6
    · subst ha
      cases h0 : wdata[0] with
      | true =>
        have hd : decodeBus ⟨0#6, true, wdata, grant⟩ = .configure wdata[1] (wdata.extractLsb' 2 30) grant := by
          simp [decodeBus, h0]
        rw [hd]
        exact ⟨_, rfl, by simp [busAfter, HostSide.writeReg, hostRegOf, h0], rfl, rfl⟩
      | false =>
        cases h1 : wdata[1] with
        | true =>
          have hd : decodeBus ⟨0#6, true, wdata, grant⟩ = .start (wdata.extractLsb' 2 30) := by
            simp [decodeBus, h0, h1]
          rw [hd]
          exact ⟨_, rfl, by simp [busAfter, HostSide.writeReg, hostRegOf, h0, h1, HostSide.writeCtrl], rfl, rfl⟩
        | false =>
          have hd : decodeBus ⟨0#6, true, wdata, grant⟩ = .regWrite 0#6 wdata grant := by
            simp [decodeBus, h0, h1]
          rw [hd]
          exact ⟨_, rfl, rfl, rfl, rfl⟩
    · have hd : decodeBus ⟨addr, true, wdata, grant⟩ = .regWrite addr wdata grant := by simp [decodeBus, ha]
      rw [hd]
      exact ⟨_, rfl, rfl, rfl, rfl⟩

theorem runTx_eq (p : TxIn) (s : State) :
    ∃ t, runTx p s = .next t ∧ t.host = txAfter s.build p s.host ∧ t.build = s.build ∧ t.eng = s.eng := by
  obtain ⟨push, data⟩ := p
  cases push
  · exact ⟨_, rfl, rfl, rfl, rfl⟩
  · exact ⟨_, rfl, rfl, rfl, rfl⟩

/-- The two cases of a push (42_transmit_queue.md R140). -/
theorem push_cases (b : Build) (data : Word) (h : HostSide) :
    (txOk b h = true ∧ h.push b data = h.enqueue b data) ∨ (txOk b h = false ∧ h.push b data = h) := by
  unfold HostSide.push
  cases txOk b h <;> simp

/-- The cases of CONFIGURE in UNINIT (43_engine_control.md R166). -/
theorem configure_cases (grant : Bool) (h : HostSide) :
    (validate grant h = none ∧ h.configure grant = { h with clkdiv := divCalc h.fclk, life := .configured }) ∨
    (∃ code addr, validate grant h = some (code, addr) ∧
      h.configure grant =
        { h with clkdiv := divCalc h.fclk, err := configErrorCode code, errAddr := addr, life := .fault }) := by
  unfold HostSide.configure
  cases hv : validate grant h with
  | none => exact .inl ⟨rfl, rfl⟩
  | some ca => exact .inr ⟨ca.1, ca.2, rfl, rfl⟩

/-- The cases of a register write (R162): one of the three stored registers in UNINIT, CONFIGURE in UNINIT,
START in CONFIGURED, or nothing. -/
theorem writeReg_cases (i : BitVec 6) (v : Word) (grant : Bool) (h : HostSide) :
    (h.life = .uninit ∧ hostRegOf i = .fclk ∧ h.writeReg i v grant = { h with fclk := v }) ∨
    (h.life = .uninit ∧ hostRegOf i = .progcfg ∧ h.writeReg i v grant = { h with len := v.setWidth 6 }) ∨
    (∃ a, h.life = .uninit ∧ hostRegOf i = .imem a ∧
      h.writeReg i v grant = { h with imem := h.imem.write a (v.setWidth 16) }) ∨
    (h.life = .uninit ∧ hostRegOf i = .ctrl ∧ h.writeReg i v grant = h.configure grant) ∨
    (h.life = .configured ∧ hostRegOf i = .ctrl ∧ h.writeReg i v grant = h.start) ∨
    h.writeReg i v grant = h := by
  unfold HostSide.writeReg HostSide.writeCtrl
  cases hr : hostRegOf i <;> cases hl : h.life <;> cases h0 : v[0] <;> cases h1 : v[1] <;> simp

/-- The scan finds nothing exactly when every word passes. -/
theorem scanProgram_none_iff (imem : Memory 16) (len n a : Nat) :
    scanProgram imem len n a = none ↔ ∀ k, k < n → checkWord len (imem.read (a + k)) = none := by
  induction n generalizing a with
  | zero => simp [scanProgram]
  | succ n ih =>
    simp only [scanProgram]
    cases hc : checkWord len (imem.read a) with
    | some e =>
      simp only [reduceCtorEq, false_iff, not_forall]
      exact ⟨0, by omega, by simp [hc]⟩
    | none =>
      simp only [ih]
      constructor
      · intro h k hk
        cases k with
        | zero => simpa using hc
        | succ k =>
          have := h k (by omega)
          rwa [show a + 1 + k = a + (k + 1) by omega] at this
      · intro h k hk
        have := h (k + 1) (by omega)
        rwa [show a + (k + 1) = a + 1 + k by omega] at this

/-- What the scan finds is a failing word, and every word before it passes. -/
theorem scanProgram_some {imem : Memory 16} {len n a : Nat} {e : ConfigError} {addr : BitVec 5}
    (h : scanProgram imem len n a = some (e, addr)) :
    ∃ k, k < n ∧ addr = BitVec.ofNat 5 (a + k) ∧ checkWord len (imem.read (a + k)) = some e ∧
      ∀ j, j < k → checkWord len (imem.read (a + j)) = none := by
  induction n generalizing a with
  | zero => simp [scanProgram] at h
  | succ n ih =>
    simp only [scanProgram] at h
    cases hc : checkWord len (imem.read a) with
    | some e' =>
      rw [hc] at h
      simp only [Option.some.injEq, Prod.mk.injEq] at h
      obtain ⟨rfl, rfl⟩ := h
      exact ⟨0, by omega, rfl, by simpa using hc, by omega⟩
    | none =>
      rw [hc] at h
      obtain ⟨k, hk, ha, hck, hj⟩ := ih h
      refine ⟨k + 1, by omega, ?_, ?_, ?_⟩
      · rw [ha, show a + 1 + k = a + (k + 1) by omega]
      · rwa [show a + 1 + k = a + (k + 1) by omega] at hck
      · intro j hlt
        cases j with
        | zero => simpa using hc
        | succ j =>
          have := hj j (by omega)
          rwa [show a + 1 + j = a + (j + 1) by omega] at this

/-- An IMEM index of the register space is below 32. -/
theorem hostRegOf_imem {i : BitVec 6} {a : Nat} (h : hostRegOf i = .imem a) : a < Config.imemDepth := by
  have hi := i.isLt
  simp only [hostRegOf] at h
  split at h
  · cases h
    simp only [Config.imemDepth]
    omega
  · split at h <;> cases h

end Sys2Proof.Machine
end

