-- ==== Sys2Proof/Laws/Edges.lean ====
section
/-! SUPPORT. What one event can do, said once for each kind: every claim about a step starts from
`runEvent_cases`. -/

namespace Sys2Proof.Machine

@[simp] theorem mapNext_next (f : State → State) (s : State) : mapNext f (.next s) = .next (f s) := rfl
@[simp] theorem mapNext_fault (f : State → State) (r : Fault) : mapNext f (.fault r) = .fault r := rfl
@[simp] theorem bindNext_next (s : State) (f : State → Host.Outcome State Fault Refusal) :
    bindNext (.next s) f = f s := rfl

theorem mapNext_eq_next {f : State → State} {o : Host.Outcome State Fault Refusal} {t : State} :
    mapNext f o = .next t ↔ ∃ u, o = .next u ∧ f u = t := by
  cases o <;> simp [mapNext]

theorem bindNext_eq_next {o : Host.Outcome State Fault Refusal} {f : State → Host.Outcome State Fault Refusal}
    {t : State} : bindNext o f = .next t ↔ ∃ u, o = .next u ∧ f u = .next t := by
  cases o <;> simp [bindNext]

/-- The host side after a host edge: the bus operation's registers, the push's, and the synchroniser's. -/
def hostAfter (s : State) (ports : HostIn) : HostSide :=
  { busAfter ports.bus s.host with
    fifoMem := (txAfter s.build ports.tx s.host).fifoMem
    wptr := (txAfter s.build ports.tx s.host).wptr
    wgray := (txAfter s.build ports.tx s.host).wgray
    rs := shiftIn s.eng.rgray s.host.rs }

/-- A host edge always completes (43_engine_control.md R160, 60_exceptions.md R180). -/
theorem hostEdge_eq (ports : HostIn) (s : State) :
    hostEdge ports s =
      .next ((s.withHost (hostAfter s ports)).withLastOut (hostOutputs s.build s.host ports.bus.addr)) := by
  obtain ⟨t, ht, hth, -, -⟩ := exec_decodeBus ports.bus s
  obtain ⟨u, hu, huh, -, -⟩ := runTx_eq ports.tx s
  simp only [hostEdge, ht, hu, bindNext_next, mapNext_next, commitHost, hostAfter, hth, huh]

/-- The divider counts modulo CLKDIV (41_timing_program.md R112). -/
theorem divNext_toNat {clkdiv divCnt : BitVec Config.clkdivBits} (h : divCnt.toNat < clkdiv.toNat) :
    (divNext clkdiv divCnt).toNat = (divCnt.toNat + 1) % clkdiv.toNat := by
  have hb : clkdiv.toNat < 65536 := clkdiv.isLt
  unfold divNext
  split
  · rename_i he
    rw [he, Nat.mod_self]
    rfl
  · rename_i hne
    rw [Nat.mod_eq_of_lt (by omega : divCnt.toNat + 1 < clkdiv.toNat), BitVec.toNat_add]
    exact Nat.mod_eq_of_lt (show divCnt.toNat + 1 < 65536 by omega)

/-- An engine edge that is no tick completes. -/
theorem engineEdge_noTick {s : State} (h : tickDue s.eng = false) :
    engineEdge s = .next (s.withEng (clockEngine s s.eng)) := by
  simp [engineEdge, h]

/-- An engine edge on a delay tick completes. -/
theorem engineEdge_delay {s : State} (h : tickDue s.eng = true) (hd : s.eng.delayCnt ≠ 0) :
    engineEdge s = .next (s.withEng (clockEngine s { s.eng with delayCnt := s.eng.delayCnt - 1 })) := by
  simp only [engineEdge, h, tick, if_true, if_neg hd, mapNext_next]
  rfl

/-- An engine edge that issues an admitted word runs its micro-op. -/
theorem engineEdge_issue {s : State} {i : Instr} (h : tickDue s.eng = true) (hd : s.eng.delayCnt = 0)
    (hi : decodeMicro (fetchWord s) = .ok i) :
    engineEdge s = .next (s.withEng (clockEngine s (engAfter i s))) := by
  simp only [engineEdge, h, tick, issue, hi, if_true, if_pos hd, exec_microOp (decodeMicro_isMicroOp hi),
    mapNext_next]
  rfl

/-- An engine edge that fetches a reserved word is the named fault (41_timing_program.md R121). -/
theorem engineEdge_reserved {s : State} {r : DecodeError} (h : tickDue s.eng = true) (hd : s.eng.delayCnt = 0)
    (hi : decodeMicro (fetchWord s) = .error r) :
    engineEdge s = .fault (.reservedFetched s.eng.pc (fetchWord s)) := by
  simp [engineEdge, h, tick, issue, hi, hd]

/-- Everything one event can do when it completes. -/
theorem runEvent_cases {ev : Event} {s t : State} (h : runEvent ev s = .next t) :
    (∃ ports, ev = .hostEdge ports ∧
      t = (s.withHost (hostAfter s ports)).withLastOut (hostOutputs s.build s.host ports.bus.addr)) ∨
    (ev = .engineEdge ∧ tickDue s.eng = false ∧ t = s.withEng (clockEngine s s.eng)) ∨
    (ev = .engineEdge ∧ tickDue s.eng = true ∧ s.eng.delayCnt ≠ 0 ∧
      t = s.withEng (clockEngine s { s.eng with delayCnt := s.eng.delayCnt - 1 })) ∨
    (∃ i, ev = .engineEdge ∧ tickDue s.eng = true ∧ s.eng.delayCnt = 0 ∧
      decodeMicro (fetchWord s) = .ok i ∧ t = s.withEng (clockEngine s (engAfter i s))) ∨
    (ev = .reset ∧ t = resetEvent s) := by
  cases ev with
  | hostEdge ports =>
    rw [runEvent, hostEdge_eq] at h
    cases h
    exact .inl ⟨ports, rfl, rfl⟩
  | engineEdge =>
    rw [runEvent] at h
    by_cases ht : tickDue s.eng = true
    · by_cases hd : s.eng.delayCnt = 0
      · cases hi : decodeMicro (fetchWord s) with
        | error r =>
          rw [engineEdge_reserved ht hd hi] at h
          cases h
        | ok i =>
          rw [engineEdge_issue ht hd hi] at h
          cases h
          exact .inr (.inr (.inr (.inl ⟨i, rfl, ht, hd, rfl, rfl⟩)))
      · rw [engineEdge_delay ht hd] at h
        cases h
        exact .inr (.inr (.inl ⟨rfl, ht, hd, rfl⟩))
    · rw [engineEdge_noTick (by simpa using ht)] at h
      cases h
      exact .inr (.inl ⟨rfl, by simpa using ht, rfl⟩)
  | reset =>
    cases h
    exact .inr (.inr (.inr (.inr ⟨rfl, rfl⟩)))

/-- Which event a step takes, and what state it takes it in. -/
theorem takeEvent_listed {s : State} {ev : Event} {rest : List Event} (h : s.env.inputs = ev :: rest) :
    takeEvent s = (ev, s.withInputs rest) := by simp [takeEvent, h]

theorem step_listed {s : State} {ev : Event} {rest : List Event} (h : s.env.inputs = ev :: rest) :
    step s = runEvent ev (s.withInputs rest) := by simp [step, takeEvent_listed h]

/-- Taking an event leaves the block alone. -/
theorem takeEvent_block (s : State) :
    (takeEvent s).2.build = s.build ∧ (takeEvent s).2.host = s.host ∧ (takeEvent s).2.eng = s.eng := by
  simp only [takeEvent]
  split <;> exact ⟨rfl, rfl, rfl⟩

end Sys2Proof.Machine
end

