-- ==== Sys2Proof/Laws/Fifo.lean ====
section
/-! SUPPORT. The Gray code, the FIFO pointers as positions on a ring, the paths between them, and the
synchronisers as shift registers. -/

namespace Sys2Proof

/-! ## The build -/

theorem Build.depth_cases (b : Build) :
    b.fifoDepth = 1 ∨ b.fifoDepth = 2 ∨ b.fifoDepth = 4 ∨ b.fifoDepth = 8 := by
  have := b.legal
  simp only [BuildParams.ok, Bool.and_eq_true, Bool.or_eq_true, beq_iff_eq] at this
  omega

theorem Build.depth_pos (b : Build) : 0 < b.fifoDepth := by have := b.depth_cases; omega

theorem Build.stages_bounds (b : Build) : 2 ≤ b.syncStages ∧ b.syncStages ≤ 15 := by
  have := b.legal
  simp only [BuildParams.ok, Bool.and_eq_true, decide_eq_true_eq] at this
  omega

theorem Build.timing_bounds (b : Build) :
    1 ≤ b.t1 ∧ 1 ≤ b.t2 ∧ 1 ≤ b.t3 ∧ b.t1 ≤ 16 ∧ b.t2 ≤ 16 ∧ b.t3 ≤ 16 ∧
      b.t1 + b.t2 + b.t3 = Config.cyclesPerBit := by
  have := b.legal
  simp only [BuildParams.ok, Bool.and_eq_true, decide_eq_true_eq, beq_iff_eq] at this
  omega

end Sys2Proof

namespace Sys2Proof.Machine

theorem ptrModulus_le (b : Build) : ptrModulus b ≤ 16 := by
  have := b.depth_cases
  simp only [ptrModulus]; omega

theorem ptrModulus_pos (b : Build) : 0 < ptrModulus b := by
  have := b.depth_pos
  simp only [ptrModulus]; omega

/-! ## Gray code (10_state.md R44) -/

@[simp] theorem gray2bin_bin2gray (p : Ptr) : gray2bin (bin2gray p) = p := by revert p; decide

@[simp] theorem bin2gray_gray2bin (g : Ptr) : bin2gray (gray2bin g) = g := by revert g; decide

@[simp] theorem gray2bin_zero : gray2bin 0 = 0 := rfl

/-! ## Pointers on the ring -/

theorem ptrNext_toNat (b : Build) (p : Ptr) : (ptrNext b p).toNat = (p.toNat + 1) % ptrModulus b := by
  have h1 := ptrModulus_le b
  have h2 := Nat.mod_lt (p.toNat + 1) (ptrModulus_pos b)
  simp only [ptrNext, BitVec.toNat_ofNat]
  exact Nat.mod_eq_of_lt (by omega)

theorem ptrNext_lt (b : Build) (p : Ptr) : (ptrNext b p).toNat < ptrModulus b := by
  rw [ptrNext_toNat]; exact Nat.mod_lt _ (ptrModulus_pos b)

/-- The next pointer without the remainder. -/
theorem ptrNext_eq {b : Build} {p : Ptr} (hp : p.toNat < ptrModulus b) :
    (ptrNext b p).toNat = if p.toNat + 1 = ptrModulus b then 0 else p.toNat + 1 := by
  rw [ptrNext_toNat]
  split
  · rename_i h; rw [h, Nat.mod_self]
  · exact Nat.mod_eq_of_lt (by have := hp; omega)

/-- The distance without the remainder. -/
theorem ptrDist_eq {b : Build} {p q : Ptr} (hp : p.toNat < ptrModulus b) (hq : q.toNat < ptrModulus b) :
    ptrDist b p q = if p.toNat ≤ q.toNat then q.toNat - p.toNat else q.toNat + ptrModulus b - p.toNat := by
  simp only [ptrDist]
  have hp' := hp
  split
  · rw [show q.toNat + ptrModulus b - p.toNat = q.toNat - p.toNat + ptrModulus b by omega, Nat.add_mod_right]
    exact Nat.mod_eq_of_lt (by omega)
  · exact Nat.mod_eq_of_lt (by omega)

theorem ptrDist_lt (b : Build) (p q : Ptr) : ptrDist b p q < ptrModulus b := Nat.mod_lt _ (ptrModulus_pos b)

@[simp] theorem ptrDist_self (b : Build) (p : Ptr) : ptrDist b p p = 0 := by
  simp [ptrDist]

/-- Distances add up as long as they do not go round the ring. -/
theorem ptrDist_add {b : Build} {p q r : Ptr} (hp : p.toNat < ptrModulus b) (hq : q.toNat < ptrModulus b)
    (hr : r.toNat < ptrModulus b) (h : ptrDist b p q + ptrDist b q r < ptrModulus b) :
    ptrDist b p r = ptrDist b p q + ptrDist b q r := by
  rw [ptrDist_eq hp hq, ptrDist_eq hq hr] at *
  rw [ptrDist_eq hp hr]
  split_ifs at * <;> omega

/-- Advancing the far pointer lengthens a distance by one. -/
theorem ptrDist_next_right {b : Build} {p q : Ptr} (hp : p.toNat < ptrModulus b) (hq : q.toNat < ptrModulus b)
    (h : ptrDist b p q + 1 < ptrModulus b) : ptrDist b p (ptrNext b q) = ptrDist b p q + 1 := by
  rw [ptrDist_eq hp hq] at *
  rw [ptrDist_eq hp (ptrNext_lt b q), ptrNext_eq hq]
  split_ifs at * <;> omega

/-- Advancing the near pointer shortens a distance by one. -/
theorem ptrDist_next_left {b : Build} {p q : Ptr} (hp : p.toNat < ptrModulus b) (hq : q.toNat < ptrModulus b)
    (h : p ≠ q) : ptrDist b (ptrNext b p) q + 1 = ptrDist b p q := by
  have hne : p.toNat ≠ q.toNat := fun he => h (BitVec.eq_of_toNat_eq he)
  rw [ptrDist_eq hp hq, ptrDist_eq (ptrNext_lt b p) hq, ptrNext_eq hp]
  split_ifs <;> omega

theorem ptrDist_zero_iff {b : Build} {p q : Ptr} (hp : p.toNat < ptrModulus b) (hq : q.toNat < ptrModulus b) :
    ptrDist b p q = 0 ↔ p = q := by
  rw [ptrDist_eq hp hq]
  constructor
  · intro h
    apply BitVec.eq_of_toNat_eq
    split_ifs at h <;> omega
  · rintro rfl
    rw [if_pos le_rfl]
    omega

/-! ## Paths -/

@[simp] theorem pathLength_nil (b : Build) : pathLength b [] = 0 := rfl
@[simp] theorem pathLength_single (b : Build) (p : Ptr) : pathLength b [p] = 0 := rfl
@[simp] theorem pathLength_cons_cons (b : Build) (p q : Ptr) (l : List Ptr) :
    pathLength b (p :: q :: l) = ptrDist b p q + pathLength b (q :: l) := rfl

/-- A path through `p` is the path up to `p` and the path from it. -/
theorem pathLength_append (b : Build) (l : List Ptr) (p : Ptr) (m : List Ptr) :
    pathLength b (l ++ p :: m) = pathLength b (l ++ [p]) + pathLength b (p :: m) := by
  induction l with
  | nil => simp
  | cons q l ih =>
    cases l with
    | nil => simp
    | cons r l =>
      simp only [List.cons_append, pathLength_cons_cons] at ih ⊢
      omega

/-- A path shorter than the ring is as long as the distance between its ends. -/
theorem ptrDist_of_path {b : Build} {p q : Ptr} {l : List Ptr} (hr : ∀ r ∈ p :: (l ++ [q]), r.toNat < ptrModulus b)
    (h : pathLength b (p :: (l ++ [q])) < ptrModulus b) : ptrDist b p q = pathLength b (p :: (l ++ [q])) := by
  induction l generalizing p with
  | nil => simp
  | cons r l ih =>
    simp only [List.cons_append, pathLength_cons_cons] at h ⊢
    have hi := ih (p := r) (fun x hx => hr x (List.mem_cons_of_mem _ hx)) (by omega)
    rw [ptrDist_add (hr p (by simp)) (hr r (by simp)) (hr q (by simp)) (by omega), hi]

/-! ## Synchronisers -/

@[simp] theorem shiftIn_length {α : Type} (v : α) (l : List α) : (shiftIn v l).length = l.length := by
  simp [shiftIn]

theorem mem_shiftIn {α : Type} {v x : α} {l : List α} (h : x ∈ shiftIn v l) : x = v ∨ x ∈ l := by
  have := List.mem_of_mem_take h
  simpa using this

theorem shiftIn_eq {α : Type} (v : α) {l : List α} (h : l ≠ []) : shiftIn v l = v :: l.dropLast := by
  cases l with
  | nil => exact absurd rfl h
  | cons a l => simp [shiftIn, List.dropLast_eq_take]

theorem lastStage_mem {α : Type} (d : α) {l : List α} (h : l ≠ []) : lastStage d l ∈ l := by
  cases l with
  | nil => exact absurd rfl h
  | cons a l => simp [lastStage, List.getLastD_eq_getLast?, List.getLast?_eq_some_getLast]

/-! ## Paths under a push, a pop and a shift -/

/-- Going through a pointer between is never shorter. -/
theorem ptrDist_triangle {b : Build} {p q r : Ptr} (hp : p.toNat < ptrModulus b) (hq : q.toNat < ptrModulus b)
    (hr : r.toNat < ptrModulus b) : ptrDist b p r ≤ ptrDist b p q + ptrDist b q r := by
  rw [ptrDist_eq hp hq, ptrDist_eq hq hr, ptrDist_eq hp hr]
  split_ifs <;> omega

theorem pathLength_le_cons (b : Build) (p : Ptr) (l : List Ptr) : pathLength b l ≤ pathLength b (p :: l) := by
  cases l with
  | nil => simp
  | cons q l => simp

/-- Standing still adds nothing. -/
@[simp] theorem pathLength_repeat (b : Build) (l m : List Ptr) (p : Ptr) :
    pathLength b (l ++ p :: p :: m) = pathLength b (l ++ p :: m) := by
  rw [pathLength_append, pathLength_append b l p m]
  simp

/-- Leaving out a pointer between the ends never lengthens a path. -/
theorem pathLength_drop {b : Build} {p q : Ptr} {l m : List Ptr} (hm : m ≠ [])
    (hr : ∀ r ∈ p :: q :: m, r.toNat < ptrModulus b) :
    pathLength b (l ++ p :: m) ≤ pathLength b (l ++ p :: q :: m) := by
  rw [pathLength_append, pathLength_append b l p (q :: m)]
  cases m with
  | nil => exact absurd rfl hm
  | cons r m =>
    have := ptrDist_triangle (hr p (by simp)) (hr q (by simp)) (hr r (by simp))
    simp only [pathLength_cons_cons]
    omega

/-- Advancing the last pointer lengthens a path by one. -/
theorem pathLength_next_last {b : Build} {l : List Ptr} {p q : Ptr}
    (hp : p.toNat < ptrModulus b) (hq : q.toNat < ptrModulus b)
    (h : pathLength b (l ++ [p, q]) + 1 < ptrModulus b) :
    pathLength b (l ++ [p, ptrNext b q]) = pathLength b (l ++ [p, q]) + 1 := by
  rw [pathLength_append, pathLength_append b l p [q]] at *
  simp only [pathLength_cons_cons, pathLength_single] at *
  rw [ptrDist_next_right hp hq (by omega)]
  omega

/-- Advancing a pointer in the middle, one that differs from the next, keeps a path's length. -/
theorem pathLength_next_middle {b : Build} {l m : List Ptr} {p q r : Ptr} (hp : p.toNat < ptrModulus b)
    (hq : q.toNat < ptrModulus b) (hr : r.toNat < ptrModulus b) (hne : q ≠ r)
    (h : pathLength b (l ++ p :: q :: r :: m) < ptrModulus b) :
    pathLength b (l ++ p :: ptrNext b q :: r :: m) = pathLength b (l ++ p :: q :: r :: m) := by
  rw [pathLength_append, pathLength_append b l p (q :: r :: m)] at *
  simp only [pathLength_cons_cons] at *
  have h1 := ptrDist_next_left hq hr hne
  rw [ptrDist_next_right hp hq (by omega)]
  omega

/-- A shift drops the oldest stage and takes in the source's value. -/
theorem reverse_map_shiftIn {α β : Type} (f : α → β) (v : α) {l : List α} (h : l ≠ []) :
    ((shiftIn v l).map f).reverse = (l.map f).reverse.tail ++ [f v] := by
  rw [shiftIn_eq v h]
  simp [List.tail_reverse, List.map_dropLast]

/-- The stages with the oldest, which logic reads, first. -/
theorem reverse_map_eq_cons {α β : Type} (f : α → β) (d : α) {l : List α} (h : l ≠ []) :
    (l.map f).reverse = f (lastStage d l) :: (l.map f).reverse.tail := by
  obtain ⟨k, x, rfl⟩ : ∃ k x, l = k ++ [x] := ⟨_, _, (List.dropLast_append_getLast h).symm⟩
  simp [lastStage]

end Sys2Proof.Machine
end

