-- ==== Sys2Proof/Laws/Memory.lean ====
section
/-! SUPPORT. The storage spaces: a write is read back, it leaves every other index alone, and it keeps the
canonical form, in which memories that read alike are equal. -/

namespace Sys2Proof.Machine

variable {w : Nat}

@[simp] theorem Memory.read_nil (a : Nat) : Memory.read ([] : Memory w) a = 0 := rfl

theorem Memory.read_cons (b a : Nat) (v : BitVec w) (m : Memory w) :
    Memory.read ((b, v) :: m) a = if a = b then v else Memory.read m a := rfl

theorem Memory.wfFrom_cons (lo a : Nat) (v : BitVec w) (m : Memory w) :
    Memory.wfFrom lo ((a, v) :: m) = true ↔ lo ≤ a ∧ v ≠ 0 ∧ Memory.wfFrom (a + 1) m = true := by
  simp [Memory.wfFrom, and_assoc]

/-- A canonical memory whose indices start at `lo` reads 0 below `lo`. -/
theorem Memory.read_below {lo a : Nat} {m : Memory w} (h : Memory.wfFrom lo m = true) (ha : a < lo) :
    Memory.read m a = 0 := by
  induction m generalizing lo with
  | nil => rfl
  | cons c m ih =>
    obtain ⟨b, v⟩ := c
    rw [Memory.wfFrom_cons] at h
    rw [Memory.read_cons, if_neg (by omega)]
    exact ih h.2.2 (by omega)

theorem Memory.wfFrom_mono {lo lo' : Nat} {m : Memory w} (h : Memory.wfFrom lo m = true) (hl : lo' ≤ lo) :
    Memory.wfFrom lo' m = true := by
  cases m with
  | nil => rfl
  | cons c m =>
    rw [Memory.wfFrom_cons] at h ⊢
    exact ⟨by omega, h.2⟩

/-- A write keeps the canonical form. -/
theorem Memory.write_wfFrom {lo a : Nat} {v : BitVec w} {m : Memory w} (h : Memory.wfFrom lo m = true)
    (ha : lo ≤ a) : Memory.wfFrom lo (m.write a v) = true := by
  induction m generalizing lo with
  | nil =>
    simp only [Memory.write]
    split
    · rfl
    · rename_i hv
      exact (Memory.wfFrom_cons ..).2 ⟨ha, hv, rfl⟩
  | cons c m ih =>
    obtain ⟨b, u⟩ := c
    obtain ⟨hb, hu, hm⟩ := (Memory.wfFrom_cons ..).1 h
    simp only [Memory.write]
    split
    · split
      · exact h
      · rename_i hab hv
        rw [Memory.wfFrom_cons, Memory.wfFrom_cons]
        exact ⟨ha, hv, by omega, hu, hm⟩
    · split
      · split
        · exact Memory.wfFrom_mono hm (by omega)
        · rename_i hab hv
          rw [Memory.wfFrom_cons]
          exact ⟨ha, hv, by subst hab; exact hm⟩
      · rw [Memory.wfFrom_cons]
        exact ⟨hb, hu, ih hm (by omega)⟩

theorem Memory.write_wf {a : Nat} {v : BitVec w} {m : Memory w} (h : m.wf = true) : (m.write a v).wf = true :=
  Memory.write_wfFrom h (Nat.zero_le a)

/-- Every word of a canonical memory after a write: the written one at its index, the old ones elsewhere. -/
theorem Memory.read_write_from {lo : Nat} {m : Memory w} (h : Memory.wfFrom lo m = true) (a : Nat) (v : BitVec w)
    (k : Nat) : (m.write a v).read k = if k = a then v else m.read k := by
  induction m generalizing lo with
  | nil =>
    simp only [Memory.write]
    split
    · rename_i hv
      simp [hv]
    · rfl
  | cons c m ih =>
    obtain ⟨b, u⟩ := c
    obtain ⟨hb, hu, hm⟩ := (Memory.wfFrom_cons ..).1 h
    simp only [Memory.write]
    split
    · rename_i hab
      split
      · rename_i hv
        split
        · rename_i hk
          rw [hk, hv, Memory.read_below (lo := b) (by rw [Memory.wfFrom_cons]; exact ⟨le_rfl, hu, hm⟩) hab]
        · rfl
      · rw [Memory.read_cons]
    · split
      · rename_i hab
        subst hab
        split
        · rename_i hv
          split
          · rename_i hk
            rw [hk, hv, Memory.read_below hm (by omega)]
          · rename_i hk
            rw [Memory.read_cons, if_neg hk]
        · simp only [Memory.read_cons]
          split <;> rfl
      · rename_i h1 h2
        simp only [Memory.read_cons, ih hm]
        by_cases hk : k = b
        · rw [if_pos hk, if_neg (by omega), if_pos hk]
        · rw [if_neg hk, if_neg hk]

theorem Memory.read_write {m : Memory w} (h : m.wf = true) (a : Nat) (v : BitVec w) (k : Nat) :
    (m.write a v).read k = if k = a then v else m.read k := Memory.read_write_from h a v k

theorem Memory.read_write_same {m : Memory w} (h : m.wf = true) (a : Nat) (v : BitVec w) :
    (m.write a v).read a = v := by rw [Memory.read_write h, if_pos rfl]

theorem Memory.read_write_other {m : Memory w} (h : m.wf = true) {a k : Nat} (v : BitVec w) (hk : k ≠ a) :
    (m.write a v).read k = m.read k := by rw [Memory.read_write h, if_neg hk]

@[simp] theorem Memory.below_nil (n : Nat) : Memory.below ([] : Memory w) n = true := rfl

theorem Memory.below_cons (a n : Nat) (v : BitVec w) (m : Memory w) :
    Memory.below ((a, v) :: m) n = true ↔ a < n ∧ Memory.below m n = true := by
  simp [Memory.below]

/-- A write inside the space keeps every listed index inside it. -/
theorem Memory.write_below {m : Memory w} {a n : Nat} {v : BitVec w} (h : m.below n = true) (ha : a < n) :
    (m.write a v).below n = true := by
  induction m with
  | nil =>
    simp only [Memory.write]
    split
    · rfl
    · exact (Memory.below_cons ..).2 ⟨ha, rfl⟩
  | cons c m ih =>
    obtain ⟨b, u⟩ := c
    have hbm := (Memory.below_cons ..).1 h
    simp only [Memory.write]
    split
    · split
      · exact h
      · exact (Memory.below_cons ..).2 ⟨ha, h⟩
    · split
      · split
        · exact hbm.2
        · exact (Memory.below_cons ..).2 ⟨ha, hbm.2⟩
      · exact (Memory.below_cons ..).2 ⟨hbm.1, ih hbm.2⟩

/-- Canonical memories that read alike are equal. -/
theorem Memory.eq_of_read_from {lo : Nat} {m m' : Memory w} (h : Memory.wfFrom lo m = true)
    (h' : Memory.wfFrom lo m' = true) (hr : ∀ a, m.read a = m'.read a) : m = m' := by
  induction m generalizing lo m' with
  | nil =>
    cases m' with
    | nil => rfl
    | cons c m' =>
      obtain ⟨b, u⟩ := c
      have := hr b
      rw [Memory.read_cons, if_pos rfl] at this
      exact absurd this.symm ((Memory.wfFrom_cons ..).1 h').2.1
  | cons c m ih =>
    obtain ⟨a, v⟩ := c
    obtain ⟨ha, hv, hm⟩ := (Memory.wfFrom_cons ..).1 h
    cases m' with
    | nil =>
      have := hr a
      rw [Memory.read_cons, if_pos rfl] at this
      exact absurd this hv
    | cons c' m' =>
      obtain ⟨b, u⟩ := c'
      obtain ⟨hb, hu, hm'⟩ := (Memory.wfFrom_cons ..).1 h'
      have hab : a = b := by
        rcases Nat.lt_trichotomy a b with hlt | heq | hgt
        · have := hr a
          rw [Memory.read_cons, if_pos rfl, Memory.read_cons, if_neg (by omega),
            Memory.read_below hm' (by omega)] at this
          exact absurd this hv
        · exact heq
        · have := hr b
          rw [Memory.read_cons, if_neg (by omega), Memory.read_cons, if_pos rfl,
            Memory.read_below hm (by omega)] at this
          exact absurd this.symm hu
      subst hab
      have hvu : v = u := by
        have := hr a
        rwa [Memory.read_cons, if_pos rfl, Memory.read_cons, if_pos rfl] at this
      subst hvu
      congr 1
      refine ih hm hm' fun k => ?_
      by_cases hk : k = a
      · rw [hk, Memory.read_below hm (by omega), Memory.read_below hm' (by omega)]
      · have := hr k
        rwa [Memory.read_cons, if_neg hk, Memory.read_cons, if_neg hk] at this

theorem Memory.eq_of_read {m m' : Memory w} (h : m.wf = true) (h' : m'.wf = true)
    (hr : ∀ a, m.read a = m'.read a) : m = m' := Memory.eq_of_read_from h h' hr

end Sys2Proof.Machine
end

