-- ==== Sys2Proof/Laws/PerInstr.lean ====
section
/-! SUPPORT. What holds of every instruction as syntax: which code space its encoding lies in
(30_encoding.md R80, R95). -/

/-- A micro-op's code is a word of IMEM; a host operation's code is the values of one host port. -/
def Sys2Proof.Laws.CodeSpace.Statement (i : Sys2Proof.Instr) : Prop :=
  match Sys2Proof.encode i with
  | .imem _ => i.isMicroOp = true
  | .bus _ => i.isMicroOp = false ∧ ∀ data, i ≠ .push data
  | .tx p => i = .push p.data ∧ p.push = true

theorem Sys2Proof.Laws.CodeSpace.jmp (side : Bool) (delay : BitVec 4) (target : BitVec 5) :
    Sys2Proof.Laws.CodeSpace.Statement (.jmp side delay target) := rfl

theorem Sys2Proof.Laws.CodeSpace.jmpNotX (side : Bool) (delay : BitVec 4) (target : BitVec 5) :
    Sys2Proof.Laws.CodeSpace.Statement (.jmpNotX side delay target) := rfl

theorem Sys2Proof.Laws.CodeSpace.outX (side : Bool) (delay : BitVec 4) :
    Sys2Proof.Laws.CodeSpace.Statement (.outX side delay) := rfl

theorem Sys2Proof.Laws.CodeSpace.nop (side : Bool) (delay : BitVec 4) :
    Sys2Proof.Laws.CodeSpace.Statement (.nop side delay) := rfl

theorem Sys2Proof.Laws.CodeSpace.regRead (index : BitVec 6) :
    Sys2Proof.Laws.CodeSpace.Statement (.regRead index) := ⟨rfl, fun _ h => nomatch h⟩

theorem Sys2Proof.Laws.CodeSpace.regWrite (index : BitVec 6) (wdata : Sys2Proof.Word) (pinGrant : Bool) :
    Sys2Proof.Laws.CodeSpace.Statement (.regWrite index wdata pinGrant) := ⟨rfl, fun _ h => nomatch h⟩

theorem Sys2Proof.Laws.CodeSpace.configure (startBit : Bool) (reserved : BitVec 30) (pinGrant : Bool) :
    Sys2Proof.Laws.CodeSpace.Statement (.configure startBit reserved pinGrant) := ⟨rfl, fun _ h => nomatch h⟩

theorem Sys2Proof.Laws.CodeSpace.start (reserved : BitVec 30) :
    Sys2Proof.Laws.CodeSpace.Statement (.start reserved) := ⟨rfl, fun _ h => nomatch h⟩

theorem Sys2Proof.Laws.CodeSpace.push (data : Sys2Proof.Word) :
    Sys2Proof.Laws.CodeSpace.Statement (.push data) := ⟨rfl, rfl⟩
end

