-- ==== Sys2Proof/Tests/Slice0.lean ====
section
/-! SUPPORT. The tests, and for every statement with hypotheses a witness that meets them. An expected value
comes from spec/95_test_vectors.md, by the vector's name, or is worked out from the rule named. -/

namespace Sys2Proof.Tests

open Sys2Proof Sys2Proof.Machine

/-! ## Small states -/

/-- UNINIT with the canonical program of R126 loaded and FCLK = 8000000. -/
def loaded : State :=
  { State.reset with
    host := { State.reset.host with
      fclk := 8000000, len := 4, imem := [(0, 0x6221), (1, 0x1123), (2, 0x1400), (3, 0xA442)] } }

/-- The state with another engine side, host side or inputs. -/
def withE (s : State) (f : EngineSide → EngineSide) : State := { s with eng := f s.eng }
def withH (s : State) (f : HostSide → HostSide) : State := { s with host := f s.host }

/-- CONFIGURED, CLKDIV = 1. -/
def configured : State := withH loaded fun h => { h with life := .configured, clkdiv := 1 }

/-- RUNNING, the run level not yet crossed. -/
def started : State := withH configured fun h => { h with life := .running }

/-- RUNNING and ticking, the FIFO empty: the stall of a drained program. -/
def running : State := withE started fun e => { e with runS := [true, true] }

/-- FAULT after a CONFIGURE with FCLK = 0. -/
def faulted : State := withH State.reset fun h => { h with life := .fault, err := 1 }

/-- RUNNING with one word in slot 0, in the engine view. -/
def oneWord : State :=
  { running with
    host := { running.host with fifoMem := [(0, 0xA5000000)], wptr := 1, wgray := 1 }
    eng := { running.eng with ws := [1, 1] } }

/-- RUNNING with one word pushed at the last host edge, not yet in the engine view. -/
def justPushed : State := withH running fun h => { h with fifoMem := [(0, 0xA5000000)], wptr := 1, wgray := 1 }

/-- CONFIGURED with a full FIFO, the words 1 to 4. -/
def full : State :=
  withH configured fun h => { h with fifoMem := [(0, 1), (1, 2), (2, 3), (3, 4)], wptr := 4, wgray := 6 }

/-- An LSB_FIRST build. -/
def lsbBuild : Build :=
  { shiftDir := .lsbFirst, fifoDepth := 4, syncStages := 2, t1 := 2, t2 := 5, t3 := 3, legal := by decide }

/-- The legal build with the largest depth and synchronisers and with T2 = 1. -/
def deepBuild : Build :=
  { shiftDir := .lsbFirst, fifoDepth := 8, syncStages := 15, t1 := 1, t2 := 1, t3 := 8, legal := by decide }

/-- A host edge that writes a register. -/
def writing (addr : BitVec 6) (v : Word) : HostIn :=
  { bus := { addr := addr, we := true, wdata := v, pinGrant := true }, tx := { push := false, data := 0 } }

/-- A host edge that reads a register. -/
def reading (addr : BitVec 6) : HostIn :=
  { bus := { addr := addr, we := false, wdata := 0, pinGrant := false }, tx := { push := false, data := 0 } }

/-- The reads with a push beside them. -/
def pushing (data : Word) : HostIn := { reading 1 with tx := { push := true, data := data } }

/-- A property of the next state, if there is one. -/
def view {α : Type} (o : Host.Outcome State Fault Refusal) (f : State → α) : Option α :=
  match o with
  | .next t => some (f t)
  | .fault _ => none
  | .refused _ => none

/-! ## WellFormed: ill-formed terms are refused -/

theorem test_wellFormed_refuses_configure_bit : (Instr.regWrite 0 0x00000001 true).wellFormed = false := by decide
theorem test_wellFormed_refuses_start_bit : (Instr.regWrite 0 0xFFFFFFFE false).wellFormed = false := by decide
theorem test_wellFormed_admits_idle_ctrl_write : (Instr.regWrite 0 0xFFFFFFFC true).wellFormed = true := by decide
theorem test_wellFormed_admits_other_register : (Instr.regWrite 2 0x00000003 true).wellFormed = true := by decide

/-! ## Decode: words written out from 30_encoding.md R81 and R87 -/

theorem test_decode_jmp : decodeMicro 0b0001010000000000#16 = .ok (.jmp true 4 0) := by decide
theorem test_decode_jmp_target_31 : decodeMicro 0b0000000000011111#16 = .ok (.jmp false 0 31) := by decide
theorem test_decode_jmpNotX : decodeMicro 0b0001000100100011#16 = .ok (.jmpNotX true 1 3) := by decide
theorem test_decode_outX : decodeMicro 0b0110001000100001#16 = .ok (.outX false 2) := by decide
theorem test_decode_nop : decodeMicro 0b1010010001000010#16 = .ok (.nop false 4) := by decide
theorem test_decode_reserved_condition : decodeMicro 0x00E0#16 = .error (.reservedCondition 7) := by decide
theorem test_decode_reserved_out_count : decodeMicro 0x6020#16 = .error (.reservedOut 1 0) := by decide
theorem test_decode_reserved_mov : decodeMicro 0xA04A#16 = .error (.reservedMov 2 0b01010) := by decide
theorem test_decode_reserved_opcode : decodeMicro 0xFFFF#16 = .error (.reservedOpcode 7) := by decide

/-- R95: the host operations by their port values; CTRL with both bits set is CONFIGURE with bit 1. -/
theorem test_decode_host_operations :
    decodeBus (reading 33).bus = .regRead 33 ∧
    decodeBus (writing 33 0xDEAD1123).bus = .regWrite 33 0xDEAD1123 true ∧
    decodeBus (writing 0 0x3).bus = .configure true 0 true ∧
    decodeBus (writing 0 0xFFFFFFFD).bus = .configure false 0x3FFFFFFF true ∧
    decodeBus (writing 0 0x2).bus = .start 0 ∧ decodeBus (writing 0 0xFFFFFFFC).bus = .regWrite 0 0xFFFFFFFC true := by
  decide

theorem test_decode_push :
    decodeTx (pushing 0xFF000000).tx = .ok (.push 0xFF000000) ∧
      decodeTx (reading 0).tx = .error .idlePushPort := by decide

/-- The table's number of a micro-op is its word; the port word's fields are those of log 8. -/
theorem test_decodeTableWord :
    decodeTableWord 16 0x1123 = some (.jmpNotX true 1 3) ∧ decodeTableWord 16 0x2000 = none ∧
      decodeTableWord 80 (33 + 2 ^ 6 + 0x1123 * 2 ^ 7 + 2 ^ 39) = some (.regWrite 33 0x1123 true) := by decide

/-! ## OUT X, 1 (2.4) -/

/-- OUT-2. -/
theorem test_out_shifts :
    view (exec (.outX false 2) (withE running fun e => { e with osr := 0x7FFFFFFF, osrCnt := 5 })) (fun t =>
      (t.eng.x, t.eng.osr, t.eng.osrCnt, t.eng.pc, t.eng.delayCnt)) = some (0, 0xFFFFFFFE, 6, 1, 2) := by decide

/-- The state of OUT-4: the word in slot 2, in the engine view. -/
def slotTwo : State :=
  { running with
    host := { running.host with fifoMem := [(2, 0xC0000000)], wptr := 3, wgray := 2 }
    eng := { running.eng with ws := [2, 2], rptr := 2, rgray := 3 } }

/-- OUT-4: the refill. -/
theorem test_out_refills :
    view (exec (.outX false 2) slotTwo) (fun t =>
      ([t.eng.osr, t.eng.x], t.eng.osrCnt, [t.eng.rptr, t.eng.rgray], t.eng.pc, t.eng.delayCnt)) =
        some ([0x80000000, 1], 1, [3, 0b010], 1, 2) := by decide

/-! ## JMP, JMP !X, NOP (2.5 to 2.7) -/

/-- JMP-1 and JMP-3. -/
theorem test_jmp :
    view (exec (.jmp true 4 0) (withE running fun e => { e with pc := 2 })) (fun t =>
      (t.eng.pc, t.eng.delayCnt, t.eng.dout)) = some (0, 4, true) ∧
    view (exec (.jmp false 0 1) (withE running fun e => { e with pc := 3 })) (fun t => t.eng.pc) = some 1 := by
  decide

/-- JNX-1 and JNX-2. -/
theorem test_jmpNotX :
    view (exec (.jmpNotX true 1 3) (withE running fun e => { e with pc := 1, x := 0 })) (fun t =>
      (t.eng.pc, t.eng.delayCnt, t.eng.dout, t.eng.x)) = some (3, 1, true, 0) ∧
    view (exec (.jmpNotX true 1 3) (withE running fun e => { e with pc := 1, x := 1 })) (fun t =>
      (t.eng.pc, t.eng.delayCnt, t.eng.dout, t.eng.x)) = some (2, 1, true, 1) := by decide

/-- JNX-3. -/
theorem test_jmpNotX_wraps :
    view (exec (.jmpNotX false 0 0) (withH (withE running fun e => { e with pc := 2, x := 1 }) fun h =>
      { h with len := 3 })) (fun t => t.eng.pc) = some 0 := by decide

/-- NOP-1 and NOP-2. -/
theorem test_nop :
    view (exec (.nop false 4) (withE running fun e => { e with pc := 3, dout := true })) (fun t =>
      (t.eng.pc, t.eng.delayCnt, t.eng.dout)) = some (0, 4, false) ∧
    view (exec (.nop false 0) running) (fun t => (t.eng.pc, t.eng.delayCnt)) = some (1, 0) := by decide

/-! ## The host operations (2.9 to 2.12) -/

/-- REG-1. -/
theorem test_regRead_after_reset :
    [0, 1, 2, 3, 4, 5, 6, 7].map (fun i => view (exec (.regRead i) State.reset) fun t => t.env.lastOut.busRdata) =
      [0, 0, 0, 0, 0, 0x0A030502, 0x02200400, 0x007A1200].map some := by decide

/-- FIFO-3: STATUS after the fourth push is 0x5. -/
theorem test_regRead_status_full :
    view (exec (.regRead 1) full) (fun t => t.env.lastOut.busRdata) = some 0x00000005 := by decide

/-- REG-3 and REG-4. -/
theorem test_regWrite_stores :
    view (exec (.regWrite 33 0xDEAD1123 true) State.reset) (fun t => t.host.imem.read 1) = some 0x1123 ∧
    view (exec (.regWrite 4 0xFFFFFFC4 true) State.reset) (fun t => t.host.len) = some 4 := by decide

/-- REG-5. -/
theorem test_regWrite_locked : exec (.regWrite 2 1 true) configured = .next configured := rfl

/-- CFG-1 with FCLK = 125000000. -/
theorem test_configure_succeeds :
    view (exec (.configure false 0 true) (withH loaded fun h => { h with fclk := 125000000 })) (fun t =>
      (t.host.life, t.host.err, t.host.clkdiv)) = some (.configured, 0, 15) := by decide

/-- CFG-9: a bad target at index 0 goes before a reserved word at index 1. -/
theorem test_configure_fails_at_lowest_index :
    view (exec (.configure false 0 true) (withH loaded fun h => { h with
      fclk := 125000000, imem := [(0, 0x0005), (1, 0xE000), (2, 0x1400), (3, 0xA442)] })) (fun t =>
      (t.host.life, t.host.err, t.host.errAddr, t.host.clkdiv, statusWord t.build t.host)) =
        some (.fault, 4, 0, 15, 0x00000043) := by decide

/-- LIFE-3 and LIFE-1. -/
theorem test_start :
    view (exec (.start 0) configured) (fun t => statusWord t.build t.host) = some 0x00000002 ∧
      view (exec (.start 0) loaded) (fun t => statusWord t.build t.host) = some 0 := by decide

/-- FIFO-5: the pointer wraps at 2·FIFO_DEPTH. -/
theorem test_push_wraps :
    view (exec (.push 9) (withH configured fun h => { h with wptr := 7, wgray := 4, rs := [4, 4] })) (fun t =>
      (t.host.wptr, t.host.wgray, t.host.fifoMem.read 3, t.env.lastOut.txOk)) = some (0, 0, 9, true) := by decide

/-- FIFO-4 and FIFO-1. -/
theorem test_push_rejected :
    view (exec (.push 9) full) (fun t => (t.host.wptr, t.host.fifoMem, t.env.lastOut.txOk)) =
      some (4, full.host.fifoMem, false) ∧
    view (exec (.push 1) State.reset) (fun t => (t.host.wptr, t.env.lastOut.txOk)) = some (0, false) := by decide

/-! ## Steps -/

/-- A placed word runs as the first instruction after reset: `jmp 0 side 1 [4]`. -/
theorem test_placed_micro_runs :
    view (step (State.reset.withFetchWord 16 0x1400)) (fun t => (t.eng.pc, t.eng.delayCnt, t.eng.dout)) =
      some (0, 4, true) := by decide

/-- A placed port word runs as the first instruction after reset: a write of IMEM[1]. -/
theorem test_placed_write_runs :
    view (step (State.reset.withFetchWord 80 (33 + 2 ^ 6 + 0x1123 * 2 ^ 7))) (fun t => t.host.imem.read 1) =
      some 0x1123 := by decide

/-- LIFE-9: a push at the edge of START is accepted. -/
theorem test_push_beside_start :
    view (runEvent (.hostEdge { writing 0 2 with tx := { push := true, data := 5 } }) configured) (fun t =>
      (t.host.life, t.host.wptr, t.host.fifoMem.read 0)) = some (.running, 1, 5) := by decide

/-- TCK-1: the first tick is the third engine edge after START. -/
theorem test_first_tick_is_third_edge :
    [1, 2, 3].map (fun n => view (runEvents (List.replicate n .engineEdge) started) fun t => tickDue t.eng) =
      [some false, some true, some true] := by decide

/-- R127: the first bit period of 0xA5000000 is that of a 1, `0001111111`. -/
theorem test_bit_period_of_one :
    (match runTicks 10 oneWord with
      | .next (trace, _) => trace
      | .fault _ => []
      | .refused _ => []) = [false, false, false, true, true, true, true, true, true, true] := by decide

/-! ## The assembler (2.3) -/

/-- The text of 95_test_vectors.md P3. -/
theorem test_assemble_square_wave :
    Assembler.assembleStmts [.sideSet, .wrapTarget, .instr .nop true [.num 1], .instr .nop false [.num 2], .wrap] =
      .ok [.nop true 1, .nop false 2] ∧
    [Instr.nop true 1, .nop false 2].flatMap Assembler.wordsOf = [0xB142#16, 0xA242#16] := by decide

/-- ASM-8. -/
theorem test_assemble_delay_range :
    Assembler.assembleStmts [.sideSet, .instr .nop false [.num 16]] = .error (.delayRange 16) := by decide

/-- ASM-3, from text. -/
theorem test_assemble_text :
    Assembler.lexFrom [] "jmp 0 side 1 [4]".toList =
      .ok [.word "jmp", .num 0, .word "side", .num 1, .sym '[', .num 4, .sym ']'] := by decide +kernel

/-! ## Witnesses: the invariant -/

/-- The clauses of `Inv` about storage, stages and pointers. -/
def storageChecks (s : State) : Bool :=
  s.host.imem.wf && s.host.imem.below Config.imemDepth && s.host.fifoMem.wf &&
    s.host.fifoMem.below s.build.fifoDepth && s.host.rs.length == s.build.syncStages &&
    s.eng.ws.length == s.build.syncStages && s.eng.runS.length == s.build.syncStages &&
    s.host.wgray == bin2gray s.host.wptr && s.eng.rgray == bin2gray s.eng.rptr &&
    (ptrPath s).all (fun p => decide (p.toNat < ptrModulus s.build)) &&
    decide (pathLength s.build (ptrPath s) ≤ s.build.fifoDepth)

/-- The clauses about the registers, but for the program and the engine before its first tick. -/
def registerChecks (s : State) : Bool :=
  decide (s.eng.x = 0 ∨ s.eng.x = 1) && decide (s.eng.osrCnt.toNat ≤ Config.wordBits) &&
    decide (s.host.life ≠ .uninit → s.host.clkdiv = divCalc s.host.fclk) &&
    decide (s.host.life = .running → s.eng.pc.toNat < s.host.len.toNat) &&
    decide (s.host.life = .running → s.eng.divCnt.toNat < s.host.clkdiv.toNat) &&
    decide (s.eng.runS.Pairwise fun newer older => older = true → newer = true) &&
    decide (s.host.life ≠ .running → ∀ r ∈ s.eng.runS, r = false) &&
    decide (lifeActive s.host.life = false → s.host.wptr = 0 ∧ s.host.fifoMem = []) &&
    decide (s.host.life ≠ .fault → s.host.err = 0 ∧ s.host.errAddr = 0) &&
    decide (s.host.life = .fault → 1 ≤ s.host.err.toNat ∧ s.host.err.toNat ≤ 5)

theorem inv_of_checks {s : State} (hs : storageChecks s = true) (hr : registerChecks s = true)
    (hp : lifeActive s.host.life = true → ProgramOk s.host ∧ 1 ≤ s.host.clkdiv.toNat)
    (hi : runE s.eng = false → ∃ run write,
      s.eng = { EngineSide.resetOf s.build with runS := run, ws := write }) : Inv s := by
  simp only [storageChecks, Bool.and_eq_true, decide_eq_true_eq, beq_iff_eq, List.all_eq_true] at hs
  simp only [registerChecks, Bool.and_eq_true, decide_eq_true_eq] at hr
  obtain ⟨⟨⟨⟨⟨⟨⟨⟨⟨⟨h1, h2⟩, h3⟩, h4⟩, h5⟩, h6⟩, h7⟩, h8⟩, h9⟩, h10⟩, h11⟩ := hs
  obtain ⟨⟨⟨⟨⟨⟨⟨⟨⟨g1, g2⟩, g3⟩, g4⟩, g5⟩, g6⟩, g7⟩, g8⟩, g9⟩, g10⟩ := hr
  exact ⟨h1, h2, h3, h4, h5, h6, h7, h8, h9, h10, h11, g1, g2, hp, g3, g4, g5, g6, g7, hi, g8, g9, g10⟩

/-- The program of `loaded` passes CONFIGURE's checks. -/
theorem canonical_programOk : ProgramOk configured.host ∧ 1 ≤ configured.host.clkdiv.toNat :=
  ⟨⟨by decide, by decide, by decide⟩, by decide⟩

theorem witness_inv_reset : Inv State.reset := inv_of_checks (by decide) (by decide) nofun fun _ => ⟨_, _, rfl⟩
theorem witness_inv_faulted : Inv faulted := inv_of_checks (by decide) (by decide) nofun fun _ => ⟨_, _, rfl⟩
theorem witness_inv_configured : Inv configured :=
  inv_of_checks (by decide) (by decide) (fun _ => canonical_programOk) fun _ => ⟨_, _, rfl⟩
theorem witness_inv_full : Inv full :=
  inv_of_checks (by decide) (by decide) (fun _ => canonical_programOk) fun _ => ⟨_, _, rfl⟩
theorem witness_inv_running : Inv running :=
  inv_of_checks (by decide) (by decide) (fun _ => canonical_programOk) nofun
theorem witness_inv_oneWord : Inv oneWord :=
  inv_of_checks (by decide) (by decide) (fun _ => canonical_programOk) nofun
theorem witness_inv_justPushed : Inv justPushed :=
  inv_of_checks (by decide) (by decide) (fun _ => canonical_programOk) nofun

/-! ## Witnesses: the other hypotheses, one or more for each statement that has them -/

theorem witness_ResetEventSetsEveryRegister : (running.withInputs [.reset, .engineEdge]).env.inputs =
    .reset :: [.engineEdge] := rfl

theorem witness_StepKeepsInvariant : Inv (running.withInputs [.engineEdge]) ∧
    ∃ t, step (running.withInputs [.engineEdge]) = .next t :=
  ⟨inv_of_checks (by decide) (by decide) (fun _ => canonical_programOk) nofun, _, rfl⟩

theorem witness_DecodeEncodeRoundTrip :
    (Instr.jmpNotX true 15 31).wellFormed = true ∧ (Instr.regWrite 63 0xFFFFFFFF true).wellFormed = true ∧
      (Instr.configure true 0x3FFFFFFF false).wellFormed = true := by decide

theorem witness_AdmittedWordsExactly : decodeMicro 0xFF21#16 ≠ .ok (.outX true 15) ∧
    decodeMicro 0x7F21#16 = .ok (.outX true 15) := by decide

theorem witness_EngineEdgeRunsFetchedWord :
    (oneWord.withInputs [.engineEdge]).env.inputs = .engineEdge :: [] ∧ tickDue oneWord.eng = true ∧
      oneWord.eng.delayCnt = 0 ∧ decodeMicro (oneWord.host.imem.read oneWord.eng.pc.toNat) = .ok (.outX false 2) := by
  decide

theorem witness_HostEdgeRunsBothPorts :
    (configured.withInputs [.hostEdge (pushing 1)]).env.inputs = .hostEdge (pushing 1) :: [] ∧
      (pushing 1).tx.push = true ∧ (reading 1).tx.push = false := by decide

theorem witness_StepTakesFreeEvent : State.reset.env.inputs = [] := rfl

theorem witness_ReservedWordFaults :
    tickDue running.eng = true ∧ running.eng.delayCnt = 0 ∧
      admitted ((withH running fun h => { h with imem := [(0, 0x2000)] }).host.imem.read 0) = false := by decide

theorem witness_PlacedMicroOpRunsNext :
    (Instr.outX true 15).isMicroOp = true ∧ State.reset.host.imem.wf = true ∧ State.reset.eng.runS ≠ [] := by decide

theorem witness_OffTickEdge : tickDue started.eng = false ∧ runE started.eng = false ∧
    tickDue { running.eng with divCnt := 1 } = false := by decide

theorem witness_DelayTick : ({ running.eng with delayCnt := 15 }).delayCnt ≠ 0 := by decide

/-- Every row of R87 at its lowest and its highest word. -/
theorem witness_rows :
    0x0000#16 &&& 0xE0E0#16 = 0x0000#16 ∧ 0x1F1F#16 &&& 0xE0E0#16 = 0x0000#16 ∧
    0x0020#16 &&& 0xE0E0#16 = 0x0020#16 ∧ 0x1F3F#16 &&& 0xE0E0#16 = 0x0020#16 ∧
    0x6021#16 &&& 0xE0FF#16 = 0x6021#16 ∧ 0x7F21#16 &&& 0xE0FF#16 = 0x6021#16 ∧
    0xA042#16 &&& 0xE0FF#16 = 0xA042#16 ∧ 0xBF42#16 &&& 0xE0FF#16 = 0xA042#16 := by decide

theorem witness_JmpNotXResult : running.eng.x = 0 ∧ ({ running.eng with x := 1 }).x ≠ 0 := by decide

theorem witness_SequentialSuccessor :
    (32 : BitVec 6).toNat ≤ 32 ∧ ((31 : BitVec 5).toNat < (32 : BitVec 6).toNat ∧ (31 : BitVec 5).toNat = (32 : BitVec 6).toNat - 1) ∧
      ((0 : BitVec 5).toNat < (2 : BitVec 6).toNat ∧ (0 : BitVec 5).toNat ≠ (2 : BitVec 6).toNat - 1) := by decide

/-- Each of the three cases of OUT: the stall, the refill and the shift. -/
theorem witness_OutXResult :
    (running.eng.osrCnt = 32 ∧ running.eng.rptr = gray2bin (lastStage 0 running.eng.ws)) ∧
    (slotTwo.eng.osrCnt = 32 ∧ slotTwo.eng.rptr ≠ gray2bin (lastStage 0 slotTwo.eng.ws) ∧
      (0xC0000000 : Word) = slotTwo.host.fifoMem.read (slotTwo.eng.rptr.toNat % slotTwo.build.fifoDepth)) ∧
    ({ running.eng with osrCnt := 31 }).osrCnt ≠ 32 := by decide

theorem witness_MicroOpsFrame : (Instr.jmp true 15 31).isMicroOp = true ∧
    (∀ side delay, Instr.jmp true 15 31 ≠ .outX side delay) ∧ ∃ t, exec (.jmp true 15 31) running = .next t :=
  ⟨rfl, (fun _ _ h => nomatch h), _, rfl⟩

/-- The ranges of reserved and IMEM indices at their ends. -/
theorem witness_RegReadResult :
    (8 ≤ (8 : BitVec 6).toNat ∧ (31 : BitVec 6).toNat < 32 ∧ 32 ≤ (32 : BitVec 6).toNat ∧ 32 ≤ (63 : BitVec 6).toNat) ∧
      State.reset.build = Config.thisHardware ∧ State.reset.host.life = .uninit ∧
      configured.host.life = .configured ∧ running.host.life = .running ∧ faulted.host.life = .fault := by decide

theorem witness_RegWriteResult :
    loaded.host.life = .uninit ∧ configured.host.life = .configured ∧ (3 : Word)[0] = true ∧ (3 : Word)[1] = true ∧
      ¬ ((2 : Word)[0] = true ∧ loaded.host.life = .uninit) ∧
      ¬ ((2 : Word)[1] = true ∧ loaded.host.life = .configured) ∧
      (31 : BitVec 6) ≠ 0 ∧ (31 : BitVec 6) ≠ 2 ∧ (31 : BitVec 6) ≠ 4 ∧ (31 : BitVec 6).toNat < 32 := by decide

theorem witness_ConfigureResult :
    (loaded.host.life = .uninit ∧ validate true loaded.host = none) ∧
      (validate false loaded.host = some (.pin, 0)) ∧ running.host.life ≠ .uninit := by decide

/-- CFG-3, CFG-6 with LEN = 33 and LEN = 0, CFG-7 and CFG-8: each clause at the end of its range. -/
theorem witness_ValidateFindsFirstFailure :
    (({ loaded.host with fclk := 7999999 }).fclk.toNat < 8000000 ∧ 8000000 ≤ loaded.host.fclk.toNat) ∧
    (({ loaded.host with len := 0 }).len.toNat = 0 ∧ 32 < ({ loaded.host with len := 33 }).len.toNat) ∧
    (1 ≤ ({ loaded.host with len := 1 }).len.toNat ∧ ({ loaded.host with len := 32 }).len.toNat ≤ 32) ∧
    admitted 0xE000#16 = false ∧
    (loaded.host.len.toNat ≤ BitVec.toNat (w := 5) 4 ∧ decodeMicro 0x1404#16 = .ok (.jmp true 4 4)) := by decide

theorem witness_SuccessfulConfigureGuarantees : loaded.host.life = .uninit ∧
    ∃ t, exec (.configure true 0 true) loaded = .next t ∧ t.host.life = .configured := ⟨rfl, _, rfl, by decide⟩

theorem witness_StartResult : configured.host.life = .configured ∧ faulted.host.life ≠ .configured := by decide

theorem witness_CommandsAreCtrlWrites : configured.host.life = .configured ∧
    (running.host.life ≠ .uninit ∧ running.host.life ≠ .configured) := by decide

theorem witness_PushResult :
    (configured.host.life = .configured ∧ occH configured.build configured.host ≠ configured.build.fifoDepth) ∧
      occH full.build full.host = full.build.fifoDepth ∧ State.reset.host.life = .uninit ∧
      faulted.host.life = .fault := by decide

theorem witness_HostOpsFrame : (Instr.push 7).isMicroOp = false ∧ ∃ t, exec (.push 7) configured = .next t :=
  ⟨rfl, _, rfl⟩

theorem witness_StoresTouchOneWord : configured.host.imem.wf = true ∧ configured.host.fifoMem.wf = true ∧
    txOk configured.build configured.host = true ∧ loaded.host.life = .uninit ∧
    ∃ t, exec (.regWrite 63 1 true) loaded = .next t := ⟨by decide, by decide, by decide, rfl, _, rfl⟩

theorem witness_SameEdgeOperationsAreIndependent :
    (∃ t, runEvent (.hostEdge { writing 0 2 with tx := { push := true, data := 5 } }) configured = .next t) ∧
    (∃ t, runEvent (.hostEdge { writing 0 2 with tx := { push := false, data := 5 } }) configured = .next t) ∧
    ∃ t, runEvent (.hostEdge (pushing 5)) configured = .next t := ⟨⟨_, rfl⟩, ⟨_, rfl⟩, _, rfl⟩

theorem witness_StatusVisibleAtNextHostEdge : (reading 1).bus.addr = 1 ∧
    ∃ t u, runEvent (.hostEdge (writing 0 1)) loaded = .next t ∧
      runEvents (List.replicate 2 .engineEdge ++ [.hostEdge (reading 1)]) t = .next u := ⟨rfl, _, _, rfl, rfl⟩

/-- The state a host edge leaves in each LIFE: `writing 0 1` above leaves CONFIGURED. -/
theorem witness_StatusVisible_lives :
    view (runEvent (.hostEdge (writing 0 1)) loaded) (fun t => t.host.life) = some .configured ∧
    view (runEvent (.hostEdge (writing 0 2)) configured) (fun t => t.host.life) = some .running ∧
    view (runEvent (.hostEdge (writing 0 1)) State.reset) (fun t => t.host.life) = some .fault ∧
    view (runEvent (.hostEdge (reading 1)) State.reset) (fun t => t.host.life) = some .uninit := by decide

theorem witness_LifecycleTable : ∃ t, runEvent (.hostEdge (writing 0 3)) loaded = .next t := ⟨_, rfl⟩

theorem witness_LifecycleIsIrreversible : resetFree [.engineEdge, .hostEdge (writing 0 3)] = true ∧
    (∃ t, runEvents [.engineEdge, .hostEdge (writing 0 3)] running = .next t) ∧ running.host.life = .running ∧
    (∃ t, runEvents [.engineEdge, .hostEdge (writing 0 3)] faulted = .next t) ∧ faulted.host.life = .fault :=
  ⟨rfl, ⟨_, rfl⟩, rfl, ⟨_, rfl⟩, rfl⟩

theorem witness_ConfigurationLock : configured.host.life ≠ .uninit ∧
    ∃ t, runEvents [.hostEdge (writing 2 1)] configured = .next t := ⟨by decide, _, rfl⟩

theorem witness_runs_from_reset :
    ∃ t, runEvents [.engineEdge, .hostEdge (writing 2 8000000)] (State.resetOf Config.thisHardware) = .next t ∧
      t.host.life ≠ .running := ⟨_, rfl, by decide⟩

/-- RunningInvariants: RST-3, the program of one `jmp 0`, from reset to RUNNING. -/
theorem witness_RunningInvariants :
    ∃ t, runEvents [.hostEdge (writing 2 8000000), .hostEdge (writing 4 1), .hostEdge (writing 0 1),
        .hostEdge (writing 0 2)] (State.resetOf Config.thisHardware) = .next t ∧ t.host.life = .running :=
  ⟨_, rfl, by decide⟩

/-- FifoDeliversInOrder and BitStreamIsThePoppedWords: a run that pops, shifts and accepts. -/
theorem witness_FifoDeliversInOrder : Inv oneWord ∧ resetFree [.engineEdge, .hostEdge (pushing 9)] = true ∧
    (∃ t, runEvents [.engineEdge, .hostEdge (pushing 9)] oneWord = .next t) ∧
    collect poppedWords [.engineEdge, .hostEdge (pushing 9)] oneWord = [0xA5000000] ∧
    collect acceptedWords [.engineEdge, .hostEdge (pushing 9)] oneWord = [9] ∧
    collect valuesWrittenToX [.engineEdge, .hostEdge (pushing 9)] oneWord = [1] :=
  ⟨witness_inv_oneWord, rfl, ⟨_, rfl⟩, by decide, by decide, by decide⟩

theorem witness_SynchronisersDelayExactly : Inv justPushed ∧ resetFree [.engineEdge] = true ∧
    engineEdges [.engineEdge] + 1 = justPushed.build.syncStages ∧
    (∃ t, runEvents (.engineEdge :: [.engineEdge]) justPushed = .next t) ∧
    hostEdges [.hostEdge (reading 1)] + 1 = justPushed.build.syncStages ∧
    ∃ t, runEvents (.hostEdge (reading 1) :: [.hostEdge (reading 1)]) justPushed = .next t :=
  ⟨witness_inv_justPushed, rfl, rfl, ⟨_, rfl⟩, rfl, _, rfl⟩

theorem witness_GrayCodeStepsOneBit : (0 : Ptr).toNat < 2 * lsbBuild.fifoDepth ∧
    (15 : Ptr).toNat < 2 * deepBuild.fifoDepth := by decide

/-- The micro-op that completes, and the OUT that stalls. -/
theorem witness_MicroOpDuration :
    decodeMicro (oneWord.host.imem.read oneWord.eng.pc.toNat) = .ok (.outX false 2) ∧ oneWord.eng.delayCnt = 0 ∧
      ¬ (osrExhausted oneWord.eng = true ∧ emptyE oneWord.eng = true) ∧
      (osrExhausted running.eng = true ∧ emptyE running.eng = true) := by decide

theorem witness_TicksFallEveryClkdivEdges : Inv configured ∧ configured.host.life = .configured ∧
    ∃ u t, runEvent (.hostEdge (writing 0 2)) configured = .next u ∧ u.host.life = .running ∧
      resetFree [.engineEdge, .engineEdge] = true ∧ runEvents [.engineEdge, .engineEdge] u = .next t ∧
      tickDue t.eng = true :=
  ⟨witness_inv_configured, rfl, _, _, rfl, by decide, rfl, rfl, by decide⟩

/-- Engine edges and host edges in turn. -/
def inTurn : Schedule := fun n => if n % 2 = 0 then .engineEdge else .hostEdge (reading 1)

theorem witness_FairScheduleKeepsTicking : WeaklyFair inTurn ∧ (∀ n, inTurn n ≠ .reset) ∧ Inv running ∧
    running.host.life = .running := by
  refine ⟨⟨fun n => ⟨2 * n, by omega, ?_⟩, fun n => ⟨2 * n + 1, by omega, ?_⟩⟩, fun n => ?_,
    witness_inv_running, rfl⟩
  · have h : 2 * n % 2 = 0 := by omega
    simp [inTurn, h]
  · simp [inTurn, isHostEdge]
  · simp only [inTurn]
    split <;> simp

theorem witness_canonical_installed : Installed (canonicalProgram oneWord.build) oneWord.host :=
  ⟨by decide, by decide⟩

theorem witness_CanonicalBitPeriod : Installed (canonicalProgram oneWord.build) oneWord.host ∧ oneWord.eng.pc = 0 ∧ oneWord.eng.delayCnt = 0 ∧
    (osrExhausted oneWord.eng = true → emptyE oneWord.eng = false) ∧
    true = frontBit oneWord.build.shiftDir (if osrExhausted oneWord.eng = true then
      oneWord.host.fifoMem.read (oneWord.eng.rptr.toNat % oneWord.build.fifoDepth) else oneWord.eng.osr) :=
  ⟨witness_canonical_installed, by decide⟩

theorem witness_CanonicalWordWaveform : Installed (canonicalProgram oneWord.build) oneWord.host ∧
    oneWord.eng.pc = 0 ∧ oneWord.eng.delayCnt = 0 ∧ oneWord.eng.osrCnt = 32 ∧ emptyE oneWord.eng = false ∧
    (0xA5000000 : Word) = oneWord.host.fifoMem.read (oneWord.eng.rptr.toNat % oneWord.build.fifoDepth) :=
  ⟨witness_canonical_installed, by decide⟩

/-- TraceDecodesToBits: one bit period, its ten levels and its one value of X; the other clause's hypotheses are
those of `witness_CanonicalWordWaveform`. -/
theorem witness_TraceDecodesToBits :
    Installed (canonicalProgram oneWord.build) oneWord.host ∧ oneWord.host.life ≠ .uninit ∧ oneWord.eng.pc = 0 ∧
      oneWord.eng.delayCnt = 0 ∧ resetFree (List.replicate 10 .engineEdge) = true ∧
      (∃ t, runEvents (List.replicate 10 .engineEdge) oneWord = .next t ∧ t.eng.pc = 0 ∧ t.eng.delayCnt = 0) ∧
      collect tickLevels (List.replicate 10 .engineEdge) oneWord =
        [false, false, false, true, true, true, true, true, true, true] ∧
      collect valuesWrittenToX (List.replicate 10 .engineEdge) oneWord = [1] :=
  ⟨witness_canonical_installed, by decide, rfl, rfl, rfl, ⟨_, rfl, by decide, by decide⟩, by decide, by decide⟩

theorem witness_QuiescenceLasts : Quiescent false 2 running ∧ Inv running ∧
    pushFree (.hostEdge (reading 1)) = true ∧ tickDue running.eng = true ∧ ∀ r ∈ running.eng.runS, r = true :=
  ⟨⟨rfl, rfl, by decide, by decide, by decide, by decide, rfl⟩, witness_inv_running, rfl, by decide, by decide⟩

/-- Two states that differ in everything the host must not see. -/
theorem witness_HostCannotObserveEngine : [Event.hostEdge (reading 1)].all isHostEdge = true ∧
    started.build = running.build ∧ started.host = running.host ∧ started.env = running.env ∧ started.eng.rgray = running.eng.rgray ∧
    started.eng ≠ running.eng ∧ (∃ t, runEvents [.hostEdge (reading 1)] started = .next t) ∧
    ∃ t, runEvents [.hostEdge (reading 1)] running = .next t :=
  ⟨rfl, rfl, rfl, rfl, rfl, by decide, ⟨_, rfl⟩, _, rfl⟩

/-- Two host sides that differ in what does not cross: FCLK, ERR and the read-pointer synchroniser. -/
theorem witness_EngineSamplesOnlyTheCrossing :
    running.host ≠ (withH running fun h => { h with fclk := 9, err := 3, rs := [1, 1] }).host ∧
      (running.host.life = .running ↔ (withH running fun h => { h with fclk := 9, err := 3, rs := [1, 1] }).host.life =
        .running) ∧ ∃ t, runEvent .engineEdge running = .next t := ⟨by decide, Iff.rfl, _, rfl⟩

end Sys2Proof.Tests
end

namespace Sys2Proof.Machine

/-! ## Scope: the schedule, and what one domain can learn of the other (00_scope.md R17, R19, R23) -/

/-! ### Taking a free event -/

/-- With no event listed a step takes the next free one (log 2). -/
theorem takeEvent_free {s : State} (h : s.env.inputs = []) :
    takeEvent s = (Config.freeEvent s.env.inputNo, { s with env := { s.env with inputNo := s.env.inputNo + 1 } }) := by
  simp [takeEvent, h]

/-- Settles O14, from the equation of `takeEvent` with no event listed. -/
theorem stepTakesFreeEvent : Obligations.StepTakesFreeEvent := by
  unfold Obligations.StepTakesFreeEvent
  intro s h
  simp only [step, takeEvent_free h]

/-! ### Runs -/

@[simp] theorem runEvents_nil (s : State) : runEvents [] s = .next s := rfl

@[simp] theorem runEvents_cons (ev : Event) (evs : List Event) (s : State) :
    runEvents (ev :: evs) s = bindNext (runEvent ev s) (runEvents evs) := rfl

/-- A run of two lists of events is the run of the second from where the first ends. -/
theorem runEvents_append (evs evs' : List Event) (s : State) :
    runEvents (evs ++ evs') s = bindNext (runEvents evs s) (runEvents evs') := by
  induction evs generalizing s with
  | nil => rfl
  | cons ev evs ih =>
    simp only [List.cons_append, runEvents_cons]
    cases runEvent ev s with
    | next t => exact ih t
    | fault r => rfl
    | refused r => rfl

theorem scheduled_succ (sched : Schedule) (k n : Nat) :
    scheduled sched k (n + 1) = scheduled sched k n ++ [sched (k + n)] := by
  simp [scheduled, List.range_succ]

/-- The run of one more event of a schedule. -/
theorem runEvents_scheduled_succ {sched : Schedule} {n : Nat} {s t : State}
    (h : runEvents (scheduled sched 0 n) s = .next t) :
    runEvents (scheduled sched 0 (n + 1)) s = runEvent (sched n) t := by
  rw [scheduled_succ, runEvents_append, h, Nat.zero_add, bindNext_next, runEvents_cons]
  cases runEvent (sched n) t <;> rfl

/-! ### What the host observes -/

/-- Two states are alike to the host: they agree on everything a host edge reads, of the engine the Gray read
pointer only. -/
structure AlikeToHost (s s' : State) : Prop where
  build : s.build = s'.build
  host : s.host = s'.host
  env : s.env = s'.env
  rgray : s.eng.rgray = s'.eng.rgray

/-- The same host edge keeps two states alike to the host. -/
theorem AlikeToHost.of_hostEdge {s s' t t' : State} (h : AlikeToHost s s') {ports : HostIn}
    (ht : runEvent (.hostEdge ports) s = .next t) (ht' : runEvent (.hostEdge ports) s' = .next t') :
    AlikeToHost t t' := by
  rw [runEvent, hostEdge_eq] at ht ht'
  cases ht
  cases ht'
  have hhost : hostAfter s ports = hostAfter s' ports := by simp only [hostAfter, h.build, h.host, h.rgray]
  exact ⟨h.build, hhost, by simp only [State.withLastOut, State.withHost_env, h.env, h.build, h.host], h.rgray⟩

/-- Settles O57, by induction on the run: every host edge keeps the two states alike to the host. -/
theorem hostCannotObserveEngine : Obligations.HostCannotObserveEngine := by
  unfold Obligations.HostCannotObserveEngine
  intro evs s s' t t' hevs hbuild hhost henv hrgray
  have h : AlikeToHost s s' := ⟨hbuild, hhost, henv, hrgray⟩
  clear hbuild hhost henv hrgray
  induction evs generalizing s s' with
  | nil =>
    intro ht ht'
    cases ht
    cases ht'
    exact ⟨h.host, h.env⟩
  | cons ev evs ih =>
    intro ht ht'
    obtain ⟨u, hu, hut⟩ := bindNext_eq_next.1 ht
    obtain ⟨u', hu', hut'⟩ := bindNext_eq_next.1 ht'
    obtain ⟨hev, hrest⟩ := Bool.and_eq_true_iff.1 hevs
    cases ev with
    | hostEdge ports => exact ih u u' hrest (h.of_hostEdge hu hu') hut hut'
    | engineEdge => cases hev
    | reset => cases hev

/-! ### What the engine samples -/

/-- Two states are alike to the engine: they agree on the engine domain and, of the host domain, on what R23 lets
an engine edge sample. -/
structure AlikeToEngine (s s' : State) : Prop where
  build : s.build = s'.build
  eng : s.eng = s'.eng
  runLevel : s.host.life = .running ↔ s'.host.life = .running
  wgray : s.host.wgray = s'.host.wgray
  clkdiv : s.host.clkdiv = s'.host.clkdiv
  len : s.host.len = s'.host.len
  imem : s.host.imem = s'.host.imem
  fifoMem : s.host.fifoMem = s'.host.fifoMem

namespace AlikeToEngine

variable {s s' : State} (h : AlikeToEngine s s')
include h

theorem fetchWord_eq : fetchWord s = fetchWord s' := by simp only [fetchWord, h.imem, h.eng]

theorem engAfter_eq (i : Instr) : engAfter i s = engAfter i s' := by
  cases i <;> simp only [engAfter, h.eng, h.len, h.build, h.fifoMem]

theorem clockEngine_eq (e : EngineSide) : clockEngine s e = clockEngine s' e := by
  have hrun : (s.host.life == .running) = (s'.host.life == .running) := by
    rw [Bool.eq_iff_iff, beq_iff_eq, beq_iff_eq, h.runLevel]
  simp only [clockEngine, hrun, h.eng, h.wgray, h.clkdiv]

/-- An engine edge leaves the same engine side in both states, or is the same fault in both. -/
theorem engineEdge_alike :
    (∃ e, engineEdge s = .next (s.withEng e) ∧ engineEdge s' = .next (s'.withEng e)) ∨
    (∃ r, engineEdge s = .fault r ∧ engineEdge s' = .fault r) := by
  have heng := h.eng
  have hfetch := h.fetchWord_eq
  cases ht : tickDue s.eng with
  | false =>
    refine .inl ⟨_, engineEdge_noTick ht, ?_⟩
    rw [engineEdge_noTick (heng ▸ ht), ← h.clockEngine_eq, heng]
  | true =>
    by_cases hd : s.eng.delayCnt = 0
    · cases hi : decodeMicro (fetchWord s) with
      | ok i =>
        refine .inl ⟨_, engineEdge_issue ht hd hi, ?_⟩
        rw [engineEdge_issue (heng ▸ ht) (heng ▸ hd) (hfetch ▸ hi), ← h.clockEngine_eq, ← h.engAfter_eq]
      | error e =>
        refine .inr ⟨_, engineEdge_reserved ht hd hi, ?_⟩
        rw [engineEdge_reserved (heng ▸ ht) (heng ▸ hd) (hfetch ▸ hi), hfetch, heng]
    · refine .inl ⟨_, engineEdge_delay ht hd, ?_⟩
      rw [engineEdge_delay (heng ▸ ht) (heng ▸ hd), ← h.clockEngine_eq, heng]

end AlikeToEngine

/-- Settles O58, by the cases of an engine edge, each of which reads only what crosses. -/
theorem engineSamplesOnlyTheCrossing : Obligations.EngineSamplesOnlyTheCrossing := by
  unfold Obligations.EngineSamplesOnlyTheCrossing
  intro s s' hbuild heng hrun hwgray hclkdiv hlen himem hfifo
  have h : AlikeToEngine s s' := ⟨hbuild, heng, hrun, hwgray, hclkdiv, hlen, himem, hfifo⟩
  simp only [runEvent]
  obtain ⟨e, he, he'⟩ | ⟨r, hr, hr'⟩ := h.engineEdge_alike
  · rw [he, he']
    refine ⟨fun t ht => ⟨_, rfl, ?_⟩, fun r hr => by cases hr⟩
    cases ht
    rfl
  · rw [hr, hr']
    exact ⟨fun t ht => (by cases ht), fun _ hq => hq⟩

/-! ### The program keeps pc inside it (41_timing_program.md R116, R124) -/

/-- A word that passes `checkWord` is admitted. -/
theorem decodeMicro_of_checkWord_none {len : Nat} {w : MicroWord} (h : checkWord len w = none) :
    ∃ i, decodeMicro w = .ok i := by
  cases hi : decodeMicro w with
  | ok i => exact ⟨i, rfl⟩
  | error r => simp [checkWord, hi] at h

/-- A jump that passes `checkWord` goes below LEN. -/
theorem target_lt_of_checkWord_none {len : Nat} {w : MicroWord} {side : Bool} {delay : BitVec 4} {target : BitVec 5}
    (h : checkWord len w = none)
    (hi : decodeMicro w = .ok (.jmp side delay target) ∨ decodeMicro w = .ok (.jmpNotX side delay target)) :
    target.toNat < len := by
  obtain hi | hi := hi <;> simpa [checkWord, hi] using h

/-- The successor of an index below LEN is below LEN. -/
theorem nextPc_lt {len : BitVec 6} {pc : BitVec 5} (hlen : len.toNat ≤ Config.imemDepth)
    (hpc : pc.toNat < len.toNat) : (nextPc len pc).toNat < len.toNat := by
  unfold nextPc
  split
  · exact Nat.zero_lt_of_lt hpc
  · have hdepth : len.toNat ≤ 32 := hlen
    have hnext : (pc + 1).toNat = (pc.toNat + 1) % 32 := BitVec.toNat_add pc 1
    omega

/-- An OUT keeps pc when it stalls, and otherwise moves to the successor. -/
theorem outStep_pc (b : Build) (mem : Memory 32) (len : BitVec 6) (side : Bool) (delay : BitVec 4)
    (e : EngineSide) :
    (outStep b mem len side delay e).pc = e.pc ∨ (outStep b mem len side delay e).pc = nextPc len e.pc := by
  obtain ⟨-, -, h⟩ | ⟨-, -, h⟩ | ⟨-, h⟩ := outStep_cases b mem len side delay e
  · exact .inl (by simp [h])
  · exact .inr (by simp [h])
  · exact .inr (by simp [h])

/-- The micro-op at pc leaves pc inside a validated program. -/
theorem engAfter_pc_lt {s : State} {i : Instr} (hprog : ProgramOk s.host) (hpc : s.eng.pc.toNat < s.host.len.toNat)
    (hi : decodeMicro (fetchWord s) = .ok i) : (engAfter i s).pc.toNat < s.host.len.toNat := by
  obtain ⟨-, hdepth, hwords⟩ := hprog
  have hcheck : checkWord s.host.len.toNat (fetchWord s) = none := hwords _ hpc
  have hnext := nextPc_lt hdepth hpc
  cases i with
  | jmp side delay target => exact target_lt_of_checkWord_none hcheck (.inl hi)
  | jmpNotX side delay target =>
    simp only [engAfter, EngineSide.issued_pc]
    split
    · exact target_lt_of_checkWord_none hcheck (.inr hi)
    · exact hnext
  | outX side delay =>
    obtain h | h := outStep_pc s.build s.host.fifoMem s.host.len side delay s.eng
    · simpa only [engAfter, h] using hpc
    · simpa only [engAfter, h] using hnext
  | nop side delay => exact hnext
  | regRead | regWrite | configure | start | push => exact hpc

/-! ### The host side of a RUNNING block (43_engine_control.md R161, R171) -/

/-- The bus port changes no register of a RUNNING block. -/
theorem busAfter_of_running {h : HostSide} (hl : h.life = .running) (p : BusIn) : busAfter p h = h := by
  unfold busAfter
  split
  · obtain ⟨hu, -⟩ | ⟨hu, -⟩ | ⟨-, hu, -⟩ | ⟨hu, -⟩ | ⟨hu, -⟩ | hsame := writeReg_cases p.addr p.wdata p.pinGrant h
    iterate 5 cases hl.symm.trans hu
    exact hsame
  · rfl

/-- A host edge of a RUNNING block changes the FIFO's host side only. -/
theorem hostAfter_of_running {s : State} (hl : s.host.life = .running) (ports : HostIn) :
    hostAfter s ports =
      { s.host with
        fifoMem := (txAfter s.build ports.tx s.host).fifoMem
        wptr := (txAfter s.build ports.tx s.host).wptr
        wgray := (txAfter s.build ports.tx s.host).wgray
        rs := shiftIn s.eng.rgray s.host.rs } := by
  rw [hostAfter, busAfter_of_running hl]

/-! ### A RUNNING block never stops -/

/-- The part of `Inv` that keeps a RUNNING block ticking, which every event but a reset keeps. -/
structure Ticking (s : State) : Prop where
  running : s.host.life = .running
  programOk : ProgramOk s.host
  runStages : s.eng.runS ≠ []
  pcInProgram : s.eng.pc.toNat < s.host.len.toNat
  divCntInRange : s.eng.divCnt.toNat < s.host.clkdiv.toNat

theorem Inv.ticking {s : State} (h : Inv s) (hl : s.host.life = .running) : Ticking s where
  running := hl
  programOk := (h.programOk (by rw [hl]; rfl)).1
  runStages := by
    have hbounds := s.build.stages_bounds
    rw [← List.length_pos_iff, h.runStages]
    omega
  pcInProgram := h.pcInProgram hl
  divCntInRange := h.divCntInRange hl

theorem Ticking.hostEdge_next {s : State} (h : Ticking s) (ports : HostIn) :
    ∃ t, runEvent (.hostEdge ports) s = .next t ∧ Ticking t := by
  refine ⟨_, hostEdge_eq ports s, ?_⟩
  rw [hostAfter_of_running h.running]
  exact ⟨h.running, h.programOk, h.runStages, h.pcInProgram, h.divCntInRange⟩

/-- Clocking the engine keeps a block ticking, if the tick left pc inside the program. -/
theorem Ticking.withEng_clockEngine {s : State} (h : Ticking s) {e : EngineSide}
    (hpc : e.pc.toNat < s.host.len.toNat) : Ticking (s.withEng (clockEngine s e)) where
  running := h.running
  programOk := h.programOk
  runStages := by
    rw [State.withEng_eng, clockEngine_runS, ← List.length_pos_iff, shiftIn_length, List.length_pos_iff]
    exact h.runStages
  pcInProgram := hpc
  divCntInRange := by
    rw [State.withEng_eng, clockEngine_divCnt]
    split
    · rw [divNext_toNat h.divCntInRange]
      exact Nat.mod_lt _ (Nat.zero_lt_of_lt h.divCntInRange)
    · exact h.divCntInRange

theorem Ticking.engineEdge_next {s : State} (h : Ticking s) : ∃ t, runEvent .engineEdge s = .next t ∧ Ticking t := by
  rw [runEvent]
  cases ht : tickDue s.eng with
  | false => exact ⟨_, engineEdge_noTick ht, h.withEng_clockEngine h.pcInProgram⟩
  | true =>
    by_cases hd : s.eng.delayCnt = 0
    · obtain ⟨-, -, hwords⟩ := h.programOk
      obtain ⟨i, hi⟩ := decodeMicro_of_checkWord_none (hwords _ h.pcInProgram)
      exact ⟨_, engineEdge_issue ht hd hi, h.withEng_clockEngine (engAfter_pc_lt h.programOk h.pcInProgram hi)⟩
    · exact ⟨_, engineEdge_delay ht hd, h.withEng_clockEngine h.pcInProgram⟩

/-- Every event but a reset completes in a ticking block and leaves it ticking. -/
theorem Ticking.runEvent_next {s : State} (h : Ticking s) {ev : Event} (hev : ev ≠ .reset) :
    ∃ t, runEvent ev s = .next t ∧ Ticking t := by
  cases ev with
  | hostEdge ports => exact h.hostEdge_next ports
  | engineEdge => exact h.engineEdge_next
  | reset => exact absurd rfl hev

/-- Every run of a schedule without a reset completes from a ticking block and leaves it ticking. -/
theorem Ticking.scheduled_next {sched : Schedule} {s : State} (h : Ticking s) (hsched : ∀ n, sched n ≠ .reset)
    (n : Nat) : ∃ t, runEvents (scheduled sched 0 n) s = .next t ∧ Ticking t := by
  induction n with
  | zero => exact ⟨s, rfl, h⟩
  | succ n ih =>
    obtain ⟨t, ht, htick⟩ := ih
    obtain ⟨u, hu, hutick⟩ := htick.runEvent_next (hsched n)
    exact ⟨u, by rw [runEvents_scheduled_succ ht, hu], hutick⟩

/-! ### How far the next tick is (41_timing_program.md R112, R113) -/

/-- The engine edges before the next tick: those the run level takes to fill its synchroniser and those the divider
takes to come back to 0, during which the other stands still. -/
def edgesToTick (s : State) : Nat :=
  s.eng.runS.count false + if s.eng.divCnt = 0 then 0 else s.host.clkdiv.toNat - s.eng.divCnt.toNat

/-- Shifting in a run level of 1 loses a 0 exactly when the last stage holds one. -/
theorem count_false_shiftIn_true {l : List Bool} (h : l ≠ []) :
    (shiftIn true l).count false + (if lastStage false l then 0 else 1) = l.count false := by
  obtain ⟨m, x, rfl⟩ : ∃ m x, l = m ++ [x] := ⟨_, _, (List.dropLast_append_getLast h).symm⟩
  cases x <;> simp [shiftIn_eq, lastStage]

/-- The divider comes one edge nearer to 0, counted from CLKDIV where it stands at 0. -/
theorem divNext_nearer {clkdiv divCnt : BitVec Config.clkdivBits} (h : divCnt.toNat < clkdiv.toNat) :
    (if divNext clkdiv divCnt = 0 then 0 else clkdiv.toNat - (divNext clkdiv divCnt).toNat) + 1 =
      clkdiv.toNat - divCnt.toNat := by
  have hnext := divNext_toNat h
  by_cases hlast : divCnt.toNat + 1 = clkdiv.toNat
  · rw [divNext, if_pos hlast, if_pos rfl]
    omega
  · rw [Nat.mod_eq_of_lt (by omega)] at hnext
    have hne' : divNext clkdiv divCnt ≠ 0 := fun h0 => by simp [h0] at hnext
    rw [if_neg hne', hnext]
    omega

/-- An engine edge that is no tick brings the tick one edge nearer. -/
theorem Ticking.edgesToTick_engineEdge {s t : State} (h : Ticking s) (hno : tickDue s.eng = false)
    (ht : runEvent .engineEdge s = .next t) : edgesToTick t + 1 = edgesToTick s := by
  rw [runEvent, engineEdge_noTick hno] at ht
  cases ht
  have hrun : (s.host.life == .running) = true := by rw [h.running]; rfl
  have hcount := count_false_shiftIn_true h.runStages
  cases hr : runE s.eng with
  | false =>
    rw [show lastStage false s.eng.runS = false from hr] at hcount
    simp only [edgesToTick, State.withEng_eng, State.withEng_host, clockEngine_runS, clockEngine_divCnt, hrun, hr,
      ← hcount, Bool.false_eq_true, if_false]
    omega
  | true =>
    have hdiv : s.eng.divCnt ≠ 0 := by simpa [tickDue, hr] using hno
    have hnearer := divNext_nearer h.divCntInRange
    rw [show lastStage false s.eng.runS = true from hr] at hcount
    simp only [edgesToTick, State.withEng_eng, State.withEng_host, clockEngine_runS, clockEngine_divCnt, hrun, hr,
      ← hcount, if_true, if_neg hdiv]
    omega

/-- A host edge leaves the distance to the tick as it is. -/
theorem Ticking.edgesToTick_hostEdge {s t : State} (h : Ticking s) {ports : HostIn}
    (ht : runEvent (.hostEdge ports) s = .next t) : edgesToTick t = edgesToTick s := by
  rw [runEvent, hostEdge_eq, hostAfter_of_running h.running] at ht
  cases ht
  rfl

/-! ### A fair schedule keeps ticking -/

/-- A sequence of naturals that never rises does not fall again and again: below its least value it cannot. -/
theorem not_falling_forever {f : Nat → Nat} (hf : Antitone f) : ¬ ∀ n, ∃ m, n ≤ m ∧ f (m + 1) < f m := by
  intro hfall
  obtain ⟨m, hm, hlt⟩ := hfall (Function.argmin f)
  exact Function.not_lt_argmin f (m + 1) (hlt.trans_le (hf hm))

/-- Settles O51: were no engine edge from `k` on a tick, `edgesToTick` would never rise after `k` and fall at every
engine edge, of which fairness gives one after every point. -/
theorem fairScheduleKeepsTicking : Obligations.FairScheduleKeepsTicking := by
  unfold Obligations.FairScheduleKeepsTicking
  intro sched s hfair hsched hinv hl k
  choose st hrun htick using (hinv.ticking hl).scheduled_next hsched
  have hstep (n : Nat) : runEvent (sched n) (st n) = .next (st (n + 1)) := by
    rw [← runEvents_scheduled_succ (hrun n), hrun]
  by_contra hnone
  have hno (n : Nat) (hn : k ≤ n) (hev : sched n = .engineEdge) : tickDue (st n).eng = false :=
    Bool.eq_false_iff.2 fun ht => hnone ⟨n, st n, hn, hrun n, hev, ht⟩
  have hfall (n : Nat) (hn : k ≤ n) (hev : sched n = .engineEdge) :
      edgesToTick (st (n + 1)) + 1 = edgesToTick (st n) :=
    (htick n).edgesToTick_engineEdge (hno n hn hev) (hev ▸ hstep n)
  have hanti : Antitone fun n => edgesToTick (st (k + n)) := antitone_nat_of_succ_le fun n => by
    cases hev : sched (k + n) with
    | hostEdge ports => exact ((htick (k + n)).edgesToTick_hostEdge (hev ▸ hstep (k + n))).le
    | engineEdge =>
      have := hfall (k + n) (by omega) hev
      rw [← Nat.add_assoc]
      omega
    | reset => exact absurd hev (hsched (k + n))
  obtain ⟨hengine, -⟩ := hfair
  refine not_falling_forever hanti fun n => ?_
  obtain ⟨m, hm, hev⟩ := hengine (k + n)
  obtain ⟨d, rfl⟩ := Nat.exists_eq_add_of_le (show k ≤ m by omega)
  exact ⟨d, by omega, Nat.lt_of_succ_le (hfall (k + d) (by omega) hev).le⟩

end Sys2Proof.Machine

namespace Sys2Proof.Machine

/-! ## State: the registers, their reset values and what the host reads (10_state.md) -/

/-! ### Before START (10_state.md R41, 60_exceptions.md R196) -/

/-- What every event keeps holds at the end of every run that starts with it. -/
theorem runEvents_keeps {P : State → Prop} (hstep : ∀ ev s t, P s → runEvent ev s = .next t → P t)
    {evs : List Event} {s t : State} (hs : P s) (ht : runEvents evs s = .next t) : P t := by
  induction evs generalizing s with
  | nil =>
    cases ht
    exact hs
  | cons ev evs ih =>
    obtain ⟨u, hu, hut⟩ := bindNext_eq_next.1 ht
    exact ih (hstep ev s u hs hu) hut

@[simp] theorem shiftIn_replicate {α : Type} (v : α) (n : Nat) :
    shiftIn v (List.replicate n v) = List.replicate n v := by
  simp [shiftIn, ← List.replicate_succ, List.take_replicate]

@[simp] theorem lastStage_replicate {α : Type} (v : α) (n : Nat) : lastStage v (List.replicate n v) = v := by
  cases n with
  | zero => rfl
  | succ n => simp [lastStage, List.getLastD_eq_getLast?, List.getLast?_replicate]

/-- The engine domain of a block that has not been started: the reset values, but for what the write-pointer
synchroniser has taken in. -/
def EngineSide.unstarted (b : Build) (ws : List Ptr) : EngineSide := { EngineSide.resetOf b with ws := ws }

@[simp] theorem runE_unstarted (b : Build) (ws : List Ptr) : runE (EngineSide.unstarted b ws) = false :=
  lastStage_replicate false b.syncStages

@[simp] theorem tickDue_unstarted (b : Build) (ws : List Ptr) : tickDue (EngineSide.unstarted b ws) = false := by
  simp [tickDue]

/-- While the run level is 0, an engine edge of an unstarted block only clocks the write pointer in. -/
theorem clockEngine_unstarted {s : State} (hl : s.host.life ≠ .running) {ws : List Ptr}
    (he : s.eng = EngineSide.unstarted s.build ws) :
    clockEngine s s.eng = EngineSide.unstarted s.build (shiftIn s.host.wgray ws) := by
  have hrun : shiftIn (s.host.life == .running) s.eng.runS = List.replicate s.build.syncStages false := by
    rw [beq_false_of_ne hl, he]
    exact shiftIn_replicate false _
  rw [clockEngine, hrun, he, runE_unstarted]
  rfl

/-- Unless LIFE is RUNNING, the block has not been started. -/
def IdleUnlessRunning (s : State) : Prop :=
  s.host.life ≠ .running → ∃ ws, s.eng = EngineSide.unstarted s.build ws

theorem idleUnlessRunning_resetOf (b : Build) : IdleUnlessRunning (State.resetOf b) := fun _ => ⟨_, rfl⟩

theorem IdleUnlessRunning.tickDue_eq_false {s : State} (h : IdleUnlessRunning s) (hl : s.host.life ≠ .running) :
    tickDue s.eng = false := by
  obtain ⟨ws, he⟩ := h hl
  rw [he, tickDue_unstarted]

/-- Every event keeps a block that is not RUNNING unstarted: START is the only way to a tick. -/
theorem IdleUnlessRunning.of_runEvent (ev : Event) (s t : State) (h : IdleUnlessRunning s)
    (ht : runEvent ev s = .next t) : IdleUnlessRunning t := by
  intro hl
  obtain ⟨ports, -, rfl⟩ | ⟨-, -, rfl⟩ | ⟨-, hdue, -, rfl⟩ | ⟨i, -, hdue, -, -, rfl⟩ | ⟨-, rfl⟩ := runEvent_cases ht
  · refine h fun hr => hl ?_
    rw [State.withLastOut_host, State.withHost_host, hostAfter_of_running hr]
    exact hr
  · obtain ⟨ws, he⟩ := h hl
    exact ⟨_, clockEngine_unstarted (s := s) hl he⟩
  · cases (h.tickDue_eq_false hl).symm.trans hdue
  · cases (h.tickDue_eq_false hl).symm.trans hdue
  · exact ⟨_, rfl⟩

/-- Settles O43: every run from reset keeps a block that is not RUNNING unstarted. -/
theorem nothingHappensBeforeStart : Obligations.NothingHappensBeforeStart := by
  unfold Obligations.NothingHappensBeforeStart
  intro b evs t ht hl
  have hidle := runEvents_keeps IdleUnlessRunning.of_runEvent (idleUnlessRunning_resetOf b) ht
  obtain ⟨ws, he⟩ := hidle hl
  refine ⟨hidle.tickDue_eq_false hl, ?_⟩
  rw [he]
  exact ⟨rfl, rfl, rfl, rfl⟩

/-! ### The fields of the packed registers (R47, R51 to R53) -/

/-- The number an append stands for. -/
theorem toNat_append_eq_add {v w : Nat} (hi : BitVec v) (lo : BitVec w) :
    (hi ++ lo).toNat = hi.toNat * 2 ^ w + lo.toNat := by
  rw [BitVec.toNat_append, ← Nat.shiftLeft_add_eq_or_of_lt lo.isLt, Nat.shiftLeft_eq]

/-- The number a field of a word stands for. -/
theorem toNat_extractLsb' {w : Nat} (x : BitVec w) (start len : Nat) :
    (x.extractLsb' start len).toNat = x.toNat / 2 ^ start % 2 ^ len := by
  rw [BitVec.extractLsb'_toNat, Nat.shiftRight_eq_div_pow]

/-- A bit of a word by the numbers that it and the word stand for. -/
theorem getElem_eq_iff_toNat {w : Nat} (x : BitVec w) (i : Nat) (hi : i < w) (bit : Bool) :
    x[i] = bit ↔ x.toNat / 2 ^ i % 2 = (BitVec.ofBool bit).toNat := by
  rw [BitVec.getElem_eq_testBit_toNat, Nat.testBit_eq_decide_div_mod_eq]
  cases bit <;> simp

theorem timingWord_toNat (b : Build) :
    (timingWord b).toNat = Config.cyclesPerBit * 2 ^ 24 + b.t3 * 2 ^ 16 + b.t2 * 2 ^ 8 + b.t1 := by
  obtain ⟨-, -, -, h1, h2, h3, -⟩ := b.timing_bounds
  simp only [timingWord, toNat_append_eq_add, BitVec.toNat_ofNat, Config.cyclesPerBit]
  omega

theorem paramWord_toNat (b : Build) :
    (paramWord b).toNat = b.syncStages * 2 ^ 24 + Config.wordBits * 2 ^ 16 + b.fifoDepth * 2 ^ 8 +
      (shiftDirBit b.shiftDir).toNat := by
  have hdepth := b.depth_cases
  obtain ⟨-, hstages⟩ := b.stages_bounds
  simp only [paramWord, toNat_append_eq_add, BitVec.toNat_ofNat, Config.wordBits]
  omega

theorem statusWord_toNat (b : Build) (h : HostSide) :
    (statusWord b h).toNat = h.errAddr.toNat * 2 ^ 8 + h.err.toNat * 2 ^ 4 + (BitVec.ofBool (fullH b h)).toNat * 2 ^ 2 +
      (lifeBits h.life).toNat := by
  simp only [statusWord, toNat_append_eq_add, BitVec.toNat_ofNat]
  omega

/-- TIMING reads 0 outside its fields: the mask is all ones between them and 0 on them. -/
theorem timingWord_and_unused (b : Build) : timingWord b &&& 0xC0E0E0E0#32 = 0 := by
  have hmask : 0xC0E0E0E0#32 = 3#2 ++ 0#6 ++ 7#3 ++ 0#5 ++ 7#3 ++ 0#5 ++ 7#3 ++ 0#5 := rfl
  rw [hmask, timingWord]
  iterate 7 rw [BitVec.and_append]
  simp only [BitVec.and_zero, BitVec.zero_and]
  rfl

/-- PARAM reads 0 outside its fields. -/
theorem paramWord_and_unused (b : Build) : paramWord b &&& 0xF0C0F0FE#32 = 0 := by
  have hmask : 0xF0C0F0FE#32 = 15#4 ++ 0#4 ++ 3#2 ++ 0#6 ++ 15#4 ++ 0#4 ++ 127#7 ++ 0#1 := rfl
  rw [hmask, paramWord]
  iterate 7 rw [BitVec.and_append]
  simp only [BitVec.and_zero, BitVec.zero_and]
  rfl

theorem shiftDirBit_eq_one_iff (dir : ShiftDir) : (shiftDirBit dir).toNat = 1 ↔ dir = .lsbFirst := by
  cases dir <;> decide

/-- Settles O26, field by field from the numbers that TIMING, PARAM and KDIV stand for. -/
theorem constantRegistersHoldTheBuild : Obligations.ConstantRegistersHoldTheBuild := by
  unfold Obligations.ConstantRegistersHoldTheBuild
  intro b h
  have htiming : readReg b h 5 = timingWord b := rfl
  have hparam : readReg b h 6 = paramWord b := rfl
  obtain ⟨-, -, -, h1, h2, h3, -⟩ := b.timing_bounds
  have hdepth := b.depth_cases
  obtain ⟨-, hstages⟩ := b.stages_bounds
  rw [htiming, hparam]
  simp only [toNat_extractLsb', timingWord_toNat, paramWord_toNat, Config.cyclesPerBit, Config.wordBits]
  refine ⟨by omega, by omega, by omega, by omega, timingWord_and_unused b, ?_, by omega, by omega, by omega,
    paramWord_and_unused b, rfl⟩
  rw [getElem_eq_iff_toNat, paramWord_toNat, ← shiftDirBit_eq_one_iff]
  change _ = 1 ↔ _
  omega

/-! ### What REG_READ reads (R45, R163) -/

theorem hostRegOf_reserved : ∀ {i : BitVec 6}, 8 ≤ i.toNat → i.toNat < 32 → hostRegOf i = .reserved := by decide

theorem hostRegOf_imem_of_le {i : BitVec 6} (h : 32 ≤ i.toNat) : hostRegOf i = .imem (i.toNat - 32) := if_pos h

section Status

variable (b : Build) (h : HostSide)

theorem statusWord_life : (statusWord b h).extractLsb' 0 2 = lifeBits h.life := by
  apply BitVec.eq_of_toNat_eq
  rw [toNat_extractLsb', statusWord_toNat]
  omega

theorem statusWord_full : (statusWord b h)[2] = decide (occH b h = b.fifoDepth) := by
  have hfull : decide (occH b h = b.fifoDepth) = fullH b h := rfl
  rw [hfull, getElem_eq_iff_toNat, statusWord_toNat]
  omega

theorem statusWord_bit_three : (statusWord b h)[3] = false := by
  rw [getElem_eq_iff_toNat, statusWord_toNat]
  change _ = 0
  omega

theorem statusWord_err : (statusWord b h).extractLsb' 4 4 = h.err := by
  apply BitVec.eq_of_toNat_eq
  rw [toNat_extractLsb', statusWord_toNat]
  omega

theorem statusWord_errAddr : (statusWord b h).extractLsb' 8 5 = h.errAddr := by
  apply BitVec.eq_of_toNat_eq
  rw [toNat_extractLsb', statusWord_toNat]
  omega

theorem statusWord_high : (statusWord b h).extractLsb' 13 19 = 0 := by
  apply BitVec.eq_of_toNat_eq
  rw [toNat_extractLsb', statusWord_toNat]
  change _ = 0
  omega

end Status

/-- Settles O25: the value is `readReg`'s, index by index. -/
theorem regReadResult : Obligations.RegReadResult := by
  unfold Obligations.RegReadResult
  intro i s
  refine ⟨readReg s.build s.host i, rfl, ?ctrl, ?status, ?fclk, ?clkdiv, ?progcfg, ?constants, ?reserved, ?imem⟩
  case ctrl | fclk | clkdiv | progcfg =>
    rintro rfl
    rfl
  case status =>
    rintro rfl
    have hstatus : readReg s.build s.host 1 = statusWord s.build s.host := rfl
    rw [hstatus, statusWord_life]
    refine ⟨?_, ?_, ?_, ?_, statusWord_full .., statusWord_bit_three .., statusWord_err .., statusWord_errAddr ..,
      statusWord_high ..⟩ <;> intro hl <;> rw [hl] <;> rfl
  case constants =>
    intro hb
    rw [hb]
    refine ⟨?_, ?_, ?_⟩ <;> rintro rfl <;> rfl
  case reserved =>
    intro hlo hhi
    rw [readReg, hostRegOf_reserved hlo hhi]
  case imem =>
    intro hlo
    rw [readReg, hostRegOf_imem_of_le hlo]

/-! ### The outputs at a host edge (R56, R57) -/

theorem lifeActive_iff (l : Life) : lifeActive l = true ↔ l = .configured ∨ l = .running := by
  cases l <;> simp

theorem txOk_iff (b : Build) (h : HostSide) :
    txOk b h = true ↔ (h.life = .configured ∨ h.life = .running) ∧ occH b h ≠ b.fifoDepth := by
  simp only [txOk, fullH, Bool.and_eq_true, lifeActive_iff, Bool.not_eq_true', beq_eq_false_iff_ne]

/-- Settles O37: a host edge records the outputs of the state before it. -/
theorem hostEdgeShowsOutputs : Obligations.HostEdgeShowsOutputs := by
  unfold Obligations.HostEdgeShowsOutputs
  intro ports s
  exact ⟨_, hostEdge_eq ports s, txOk_iff s.build s.host, lifeActive_iff s.host.life, rfl⟩

/-! ### Writes of CTRL (R46, R170) -/

theorem ctrlWord_toNat (reserved : BitVec 30) (startBit configureBit : Bool) :
    (ctrlWord reserved startBit configureBit).toNat =
      reserved.toNat * 2 ^ 2 + (BitVec.ofBool startBit).toNat * 2 + (BitVec.ofBool configureBit).toNat := by
  simp only [ctrlWord, toNat_append_eq_add]
  omega

@[simp] theorem ctrlWord_bit_zero (reserved : BitVec 30) (startBit configureBit : Bool) :
    (ctrlWord reserved startBit configureBit)[0] = configureBit := by
  rw [getElem_eq_iff_toNat, ctrlWord_toNat]
  omega

@[simp] theorem ctrlWord_bit_one (reserved : BitVec 30) (startBit configureBit : Bool) :
    (ctrlWord reserved startBit configureBit)[1] = startBit := by
  rw [getElem_eq_iff_toNat, ctrlWord_toNat]
  omega

/-- REG_WRITE of a CTRL word runs the commands of its two bits. -/
theorem exec_regWrite_ctrlWord (reserved : BitVec 30) (startBit configureBit grant : Bool) (s : State) :
    exec (.regWrite 0 (ctrlWord reserved startBit configureBit) grant) s =
      .next (s.withHost (s.host.writeCtrl configureBit startBit grant)) := by
  have hwrite : exec (.regWrite 0 (ctrlWord reserved startBit configureBit) grant) s = .next (s.withHost
      (s.host.writeCtrl (ctrlWord reserved startBit configureBit)[0] (ctrlWord reserved startBit configureBit)[1]
        grant)) := rfl
  rw [hwrite, ctrlWord_bit_zero, ctrlWord_bit_one]

theorem writeCtrl_configured {h : HostSide} (hl : h.life = .configured) (configureBit grant : Bool) :
    h.writeCtrl configureBit true grant = h.start := by
  simp [HostSide.writeCtrl, hl]

theorem writeCtrl_locked {h : HostSide} (hu : h.life ≠ .uninit) (hc : h.life ≠ .configured)
    (configureBit startBit grant : Bool) : h.writeCtrl configureBit startBit grant = h := by
  simp [HostSide.writeCtrl, hu, hc]

/-- Only CONFIGURE samples `pin_grant`. -/
theorem writeCtrl_no_configure (h : HostSide) (startBit grant grant' : Bool) :
    h.writeCtrl false startBit grant = h.writeCtrl false startBit grant' := by
  simp [HostSide.writeCtrl]

/-- Settles O33: each command is `writeCtrl` of its bits, and so is the register write. -/
theorem commandsAreCtrlWrites : Obligations.CommandsAreCtrlWrites := by
  unfold Obligations.CommandsAreCtrlWrites
  refine ⟨?configure, ?start, ?bothBits, ?locked⟩
  case configure =>
    intro sb g r s
    rw [exec_regWrite_ctrlWord, exec, execConfigure]
  case start =>
    intro g r s
    rw [exec_regWrite_ctrlWord, exec, execStart, writeCtrl_no_configure]
  case bothBits =>
    intro g r s hl
    rw [exec, execConfigure, writeCtrl_configured hl]
    rfl
  case locked =>
    intro sb g r s hu hc
    rw [exec, execConfigure, writeCtrl_locked hu hc]
    rfl

/-! ### Reset (R22, R59) -/

/-- Settles O1: every clause is read off the reset state. -/
theorem resetValuesOfEveryRegister : Obligations.ResetValuesOfEveryRegister := by
  unfold Obligations.ResetValuesOfEveryRegister
  rintro b h rfl e rfl
  have hhost : (State.resetOf b).host = HostSide.resetOf b := rfl
  have heng : (State.resetOf b).eng = EngineSide.resetOf b := rfl
  rw [hhost, heng, HostSide.resetOf, EngineSide.resetOf]
  exact ⟨⟨rfl, rfl, rfl, rfl, rfl, rfl, Memory.read_nil, Memory.read_nil, rfl, rfl, rfl⟩,
    ⟨rfl, rfl, rfl, rfl, rfl, rfl, rfl, rfl, rfl, rfl⟩, rfl, rfl, rfl⟩

/-- Settles O2, from the step on a listed event. -/
theorem resetEventSetsEveryRegister : Obligations.ResetEventSetsEveryRegister := by
  unfold Obligations.ResetEventSetsEveryRegister
  intro s rest h
  rw [step_listed h]
  rfl

@[simp] theorem bin2gray_zero : bin2gray 0 = 0 := rfl

/-- Every copy of a pointer is 0 after reset. -/
theorem eq_zero_of_mem_ptrPath_resetOf {b : Build} {p : Ptr} (h : p ∈ ptrPath (State.resetOf b)) : p = 0 := by
  simp only [ptrPath, State.resetOf, HostSide.resetOf, EngineSide.resetOf, List.map_replicate, List.reverse_replicate,
    gray2bin_zero, List.mem_append, List.mem_cons, List.mem_replicate, List.not_mem_nil, or_false] at h
  tauto

/-- A path that stays at one pointer has length 0. -/
theorem pathLength_of_forall_eq {b : Build} {p : Ptr} {l : List Ptr} (h : ∀ q ∈ l, q = p) : pathLength b l = 0 := by
  rw [List.eq_replicate_of_mem h]
  generalize l.length = n
  induction n with
  | zero => rfl
  | succ n ih =>
    cases n with
    | zero => rfl
    | succ n =>
      rw [List.replicate_succ, List.replicate_succ, pathLength_cons_cons, ptrDist_self, Nat.zero_add,
        ← List.replicate_succ, ih]

/-- Settles O3: every register is 0 or empty, so every pointer's path stands still. -/
theorem invariantAtReset : Obligations.InvariantAtReset := by
  unfold Obligations.InvariantAtReset
  intro b
  exact {
    imemCanonical := rfl
    imemInRange := rfl
    fifoCanonical := rfl
    fifoInRange := rfl
    rsStages := List.length_replicate
    wsStages := List.length_replicate
    runStages := List.length_replicate
    wgrayOfWptr := bin2gray_zero.symm
    rgrayOfRptr := bin2gray_zero.symm
    pathInRange := fun p hp => by
      rw [eq_zero_of_mem_ptrPath_resetOf hp]
      exact ptrModulus_pos b
    pathFits := by
      rw [pathLength_of_forall_eq fun p hp => eq_zero_of_mem_ptrPath_resetOf hp]
      exact Nat.zero_le _
    xIsBit := .inl rfl
    osrCntInRange := le_rfl
    programOk := nofun
    divisorOfFclk := fun h => absurd rfl h
    pcInProgram := nofun
    divCntInRange := nofun
    runLevelOrder := List.pairwise_replicate.2 (.inr id)
    runLevelSource := fun _ _ hr => List.eq_of_mem_replicate hr
    idleBeforeFirstTick := fun _ => ⟨_, _, rfl⟩
    queueClosed := fun _ => ⟨rfl, rfl⟩
    errOnlyInFault := fun _ => ⟨rfl, rfl⟩
    errInFault := nofun }

/-! ### The Gray code (R31, R44) -/

/-- Successive pointers of every ring that a build can have differ in one Gray bit. -/
theorem bin2gray_succ_xor : ∀ depth ∈ [1, 2, 4, 8], ∀ p : Ptr, p.toNat < 2 * depth →
    ∃ k, k < 4 ∧ bin2gray p ^^^ bin2gray (BitVec.ofNat 4 ((p.toNat + 1) % (2 * depth))) = 1#4 <<< k := by decide

/-- R44's rule, from the highest bit down. -/
theorem gray2bin_bits : ∀ g : Ptr, (gray2bin g)[3] = g[3] ∧ (gray2bin g)[2] = ((gray2bin g)[3] ^^ g[2]) ∧
    (gray2bin g)[1] = ((gray2bin g)[2] ^^ g[1]) ∧ (gray2bin g)[0] = ((gray2bin g)[1] ^^ g[0]) := by decide

/-- Settles O48: the two conversions undo each other, and the rest is finite. -/
theorem grayCodeStepsOneBit : Obligations.GrayCodeStepsOneBit := by
  unfold Obligations.GrayCodeStepsOneBit
  refine ⟨fun p g => ⟨⟨?_, ?_⟩, rfl⟩, gray2bin_bits, fun b p hp => bin2gray_succ_xor b.fifoDepth ?_ p hp⟩
  · rintro rfl
    exact bin2gray_gray2bin g
  · rintro rfl
    exact gray2bin_bin2gray p
  · simpa using b.depth_cases

end Sys2Proof.Machine

namespace Sys2Proof.Machine

/-! ## Memory: what each instruction stores, and what it leaves alone (20_memory.md) -/

/-! ### The micro-ops (R63) -/

/-- A micro-op that is no OUT writes only the level, the delay and pc. -/
theorem engAfter_eq_issued {i : Instr} (hi : i.isMicroOp = true) (hout : ∀ side delay, i ≠ .outX side delay)
    (s : State) : ∃ side delay pc, engAfter i s = s.eng.issued side delay pc := by
  cases i with
  | jmp | jmpNotX | nop => exact ⟨_, _, _, rfl⟩
  | outX side delay => exact absurd rfl (hout side delay)
  | regRead | regWrite | configure | start | push => cases hi

/-- Settles O24: a micro-op changes the engine side only, and of it only what `engAfter` says. -/
theorem microOpsFrame : Obligations.MicroOpsFrame := by
  unfold Obligations.MicroOpsFrame
  intro i s t hi ht
  rw [exec_microOp hi] at ht
  cases ht
  refine ⟨rfl, rfl, rfl, fun _ => rfl, fun _ => rfl, engAfter_runS i s, engAfter_ws i s, engAfter_divCnt i s, ?_⟩
  intro hout
  obtain ⟨side, delay, pc, he⟩ := engAfter_eq_issued hi hout s
  rw [State.withEng_eng, he]
  exact ⟨rfl, rfl, rfl, rfl, rfl⟩

/-! ### The host operations (R68, R160, R163) -/

/-- Two host sides hold the same FIFO and the same copies of the read pointer. -/
structure SameQueue (h h' : HostSide) : Prop where
  fifoMem : h'.fifoMem = h.fifoMem
  wptr : h'.wptr = h.wptr
  wgray : h'.wgray = h.wgray
  rs : h'.rs = h.rs

/-- The registers CONFIGURE leaves alone: it writes CLKDIV, ERR, ERR_ADDR and LIFE only. -/
theorem configure_frame (grant : Bool) (h : HostSide) :
    h.configure grant =
      { h with
        clkdiv := divCalc h.fclk
        err := (h.configure grant).err
        errAddr := (h.configure grant).errAddr
        life := (h.configure grant).life } := by
  obtain ⟨-, hc⟩ | ⟨code, addr, -, hc⟩ := configure_cases grant h <;> rw [hc]

theorem configure_sameQueue (grant : Bool) (h : HostSide) : SameQueue h (h.configure grant) := by
  rw [configure_frame]
  exact ⟨rfl, rfl, rfl, rfl⟩

theorem configure_imem (grant : Bool) (h : HostSide) : (h.configure grant).imem = h.imem := by
  rw [configure_frame]

/-- The cases of a write of CTRL (R162, R170). -/
theorem writeCtrl_cases (configureBit startBit grant : Bool) (h : HostSide) :
    (h.life = .uninit ∧ h.writeCtrl configureBit startBit grant = h.configure grant) ∨
    (h.life = .configured ∧ h.writeCtrl configureBit startBit grant = h.start) ∨
    h.writeCtrl configureBit startBit grant = h := by
  unfold HostSide.writeCtrl
  split_ifs with hc hs
  · exact .inl ⟨hc.2, rfl⟩
  · exact .inr (.inl ⟨hs.2, rfl⟩)
  · exact .inr (.inr rfl)

theorem writeCtrl_sameQueue (configureBit startBit grant : Bool) (h : HostSide) :
    SameQueue h (h.writeCtrl configureBit startBit grant) := by
  obtain ⟨-, hw⟩ | ⟨-, hw⟩ | hw := writeCtrl_cases configureBit startBit grant h <;> rw [hw]
  · exact configure_sameQueue grant h
  · exact ⟨rfl, rfl, rfl, rfl⟩
  · exact ⟨rfl, rfl, rfl, rfl⟩

theorem writeCtrl_imem (configureBit startBit grant : Bool) (h : HostSide) :
    (h.writeCtrl configureBit startBit grant).imem = h.imem := by
  obtain ⟨-, hw⟩ | ⟨-, hw⟩ | hw := writeCtrl_cases configureBit startBit grant h <;> rw [hw]
  · exact configure_imem grant h
  · rfl

theorem writeReg_sameQueue (i : BitVec 6) (v : Word) (grant : Bool) (h : HostSide) :
    SameQueue h (h.writeReg i v grant) := by
  obtain ⟨-, -, hw⟩ | ⟨-, -, hw⟩ | ⟨a, -, -, hw⟩ | ⟨-, -, hw⟩ | ⟨-, -, hw⟩ | hw := writeReg_cases i v grant h <;>
    rw [hw]
  case inr.inr.inr.inl => exact configure_sameQueue grant h
  all_goals exact ⟨rfl, rfl, rfl, rfl⟩

/-- A push writes FIFO_MEM, wptr and wgray only (R140). -/
theorem push_frame (b : Build) (data : Word) (h : HostSide) :
    h.push b data =
      { h with
        fifoMem := (h.push b data).fifoMem
        wptr := (h.push b data).wptr
        wgray := (h.push b data).wgray } := by
  obtain ⟨-, hp⟩ | ⟨-, hp⟩ := push_cases b data h <;> rw [hp]
  rfl

/-- Settles O35: a read and a push by their definitions, the register writes by `writeReg_sameQueue` and
`writeCtrl_sameQueue`. -/
theorem hostOpsFrame : Obligations.HostOpsFrame := by
  unfold Obligations.HostOpsFrame
  intro i s t hi ht
  cases i with
  | jmp | jmpNotX | outX | nop => cases hi
  | regRead k =>
    cases ht
    exact ⟨rfl, rfl, rfl, rfl, rfl, fun _ => ⟨rfl, rfl, rfl⟩, fun _ => ⟨rfl, rfl, rfl⟩, nofun, nofun⟩
  | regWrite k v g =>
    cases ht
    have hq := writeReg_sameQueue k v g s.host
    exact ⟨rfl, rfl, rfl, rfl, hq.rs, nofun, fun _ => ⟨hq.fifoMem, hq.wptr, hq.wgray⟩, nofun, fun _ => rfl⟩
  | configure sb r g =>
    cases ht
    have hq := writeCtrl_sameQueue true sb g s.host
    exact ⟨rfl, rfl, rfl, rfl, hq.rs, nofun, fun _ => ⟨hq.fifoMem, hq.wptr, hq.wgray⟩, nofun, fun _ => rfl⟩
  | start r =>
    cases ht
    have hq := writeCtrl_sameQueue false true false s.host
    exact ⟨rfl, rfl, rfl, rfl, hq.rs, nofun, fun _ => ⟨hq.fifoMem, hq.wptr, hq.wgray⟩, nofun, fun _ => rfl⟩
  | push d =>
    cases ht
    rw [State.withLastOut_host, State.withHost_host, push_frame]
    exact ⟨rfl, rfl, rfl, rfl, rfl, nofun, fun hd => absurd rfl (hd d),
      fun _ => ⟨rfl, rfl, rfl, rfl, rfl, rfl, rfl, rfl, rfl⟩, nofun⟩

/-! ### The stores (R61, R62, R140, R162) -/

/-- Only the indices from 32 up name words of IMEM (R45). -/
theorem hostRegOf_ne_imem {i : BitVec 6} (hi : i.toNat < 32) (a : Nat) : hostRegOf i ≠ .imem a := by
  rw [hostRegOf, if_neg (by omega)]
  split <;> nofun

/-- IMEM after a register write, word by word. -/
theorem imem_read_writeReg {h : HostSide} (hwf : h.imem.wf = true) (i : BitVec 6) (v : Word) (grant : Bool) (a : Nat) :
    (h.writeReg i v grant).imem.read a =
      if h.life = .uninit ∧ i.toNat = 32 + a then v.extractLsb' 0 16 else h.imem.read a := by
  by_cases hi : 32 ≤ i.toNat
  · by_cases hl : h.life = .uninit
    · have hw : h.writeReg i v grant = { h with imem := h.imem.write (i.toNat - 32) (v.setWidth 16) } := by
        simp only [HostSide.writeReg, hostRegOf_imem_of_le hi, if_pos hl]
      have ha : a = i.toNat - 32 ↔ i.toNat = 32 + a := by omega
      have hv : v.setWidth 16 = v.extractLsb' 0 16 := BitVec.setWidth_eq_extractLsb' (by decide)
      simp only [hw, Memory.read_write hwf, hl, true_and, ha, hv]
    · have hw : h.writeReg i v grant = h := by simp only [HostSide.writeReg, hostRegOf_imem_of_le hi, if_neg hl]
      rw [hw, if_neg fun hc => hl hc.1]
  · have himem : (h.writeReg i v grant).imem = h.imem := by
      obtain ⟨-, -, hw⟩ | ⟨-, -, hw⟩ | ⟨k, -, hk, -⟩ | ⟨-, -, hw⟩ | ⟨-, -, hw⟩ | hw := writeReg_cases i v grant h
      · rw [hw]
      · rw [hw]
      · exact absurd hk (hostRegOf_ne_imem (by omega) k)
      · rw [hw, configure_imem]
      · rw [hw, HostSide.start_imem]
      · rw [hw]
    rw [himem, if_neg (by omega)]

/-- FIFO_MEM after a push, word by word. -/
theorem fifoMem_read_push {h : HostSide} (hwf : h.fifoMem.wf = true) (b : Build) (data : Word) (a : Nat) :
    (h.push b data).fifoMem.read a =
      if txOk b h = true ∧ a = h.wptr.toNat % b.fifoDepth then data else h.fifoMem.read a := by
  obtain ⟨hok, hp⟩ | ⟨hok, hp⟩ := push_cases b data h
  · simp only [hp, HostSide.enqueue_fifoMem, Memory.read_write hwf, slotOf, hok, true_and]
  · simp only [hp, hok, Bool.false_eq_true, false_and, if_false]

/-- Settles O36: micro-ops keep the host side, and each host operation keeps both memories but for
`imem_read_writeReg` and `fifoMem_read_push`. -/
theorem storesTouchOneWord : Obligations.StoresTouchOneWord := by
  unfold Obligations.StoresTouchOneWord
  intro i s t himem hfifo ht
  cases i with
  | jmp | jmpNotX | outX | nop | regRead =>
    cases ht
    exact ⟨fun _ => rfl, fun _ => rfl⟩
  | regWrite k v g =>
    cases ht
    exact ⟨imem_read_writeReg himem k v g,
      fun a => congrArg (Memory.read · a) (writeReg_sameQueue k v g s.host).fifoMem⟩
  | configure sb r g =>
    cases ht
    exact ⟨fun a => congrArg (Memory.read · a) (writeCtrl_imem true sb g s.host),
      fun a => congrArg (Memory.read · a) (writeCtrl_sameQueue true sb g s.host).fifoMem⟩
  | start r =>
    cases ht
    exact ⟨fun a => congrArg (Memory.read · a) (writeCtrl_imem false true false s.host),
      fun a => congrArg (Memory.read · a) (writeCtrl_sameQueue false true false s.host).fifoMem⟩
  | push d =>
    cases ht
    refine ⟨fun a => ?_, fifoMem_read_push hfifo s.build d⟩
    rw [State.withLastOut_host, State.withHost_host, push_frame]

/-! ### The configuration lock (R76, R161) -/

/-- What every event but a reset keeps holds at the end of every run without a reset. -/
theorem runEvents_keeps_of_resetFree {P : State → Prop}
    (hstep : ∀ ev s t, ev ≠ .reset → P s → runEvent ev s = .next t → P t)
    {evs : List Event} {s t : State} (hfree : resetFree evs = true) (hs : P s) (ht : runEvents evs s = .next t) :
    P t := by
  induction evs generalizing s with
  | nil =>
    cases ht
    exact hs
  | cons ev evs ih =>
    obtain ⟨u, hu, hut⟩ := bindNext_eq_next.1 ht
    obtain ⟨hev, hrest⟩ := Bool.and_eq_true_iff.1 hfree
    exact ih hrest (hstep ev s u (by simpa using hev) hs hu) hut

/-- An engine edge clocks the synchronisers and the divider and leaves the host side alone. -/
theorem engineEdge_frame {s t : State} (ht : runEvent .engineEdge s = .next t) :
    ∃ e, t = s.withEng (clockEngine s e) := by
  obtain ⟨ports, hev, -⟩ | ⟨-, -, h⟩ | ⟨-, -, -, h⟩ | ⟨i, -, -, -, -, h⟩ | ⟨hev, -⟩ := runEvent_cases ht
  · cases hev
  · exact ⟨_, h⟩
  · exact ⟨_, h⟩
  · exact ⟨_, h⟩
  · cases hev

/-- The two kinds of edge: a host edge leaves the engine side alone, an engine edge the host side. -/
theorem edge_cases {ev : Event} {s t : State} (hev : ev ≠ .reset) (ht : runEvent ev s = .next t) :
    (∃ ports, ev = .hostEdge ports ∧
      t = (s.withHost (hostAfter s ports)).withLastOut (hostOutputs s.build s.host ports.bus.addr)) ∨
    (ev = .engineEdge ∧ ∃ e, t = s.withEng (clockEngine s e)) := by
  cases ev with
  | hostEdge ports =>
    rw [runEvent, hostEdge_eq] at ht
    cases ht
    exact .inl ⟨ports, rfl, rfl⟩
  | engineEdge => exact .inr ⟨rfl, engineEdge_frame ht⟩
  | reset => exact absurd rfl hev

/-- LIFE has left UNINIT, and the configuration registers are those of `h`. -/
structure LockedAt (h h' : HostSide) : Prop where
  life : h'.life ≠ .uninit
  fclk : h'.fclk = h.fclk
  len : h'.len = h.len
  imem : h'.imem = h.imem
  clkdiv : h'.clkdiv = h.clkdiv
  err : h'.err = h.err
  errAddr : h'.errAddr = h.errAddr

/-- Past UNINIT the bus port can only start the engine. -/
theorem busAfter_cases_of_configured {h : HostSide} (hl : h.life ≠ .uninit) (p : BusIn) :
    (h.life = .configured ∧ busAfter p h = h.start) ∨ busAfter p h = h := by
  unfold busAfter
  split
  · obtain ⟨hu, -⟩ | ⟨hu, -⟩ | ⟨-, hu, -⟩ | ⟨hu, -⟩ | ⟨hc, -, hw⟩ | hw := writeReg_cases p.addr p.wdata p.pinGrant h
    iterate 4 exact absurd hu hl
    · exact .inl ⟨hc, hw⟩
    · exact .inr hw
  · exact .inr rfl

theorem LockedAt.hostAfter {h : HostSide} {s : State} (hs : LockedAt h s.host) (ports : HostIn) :
    LockedAt h (hostAfter s ports) := by
  rw [Machine.hostAfter]
  obtain ⟨-, hb⟩ | hb := busAfter_cases_of_configured hs.life ports.bus <;> rw [hb]
  · exact ⟨nofun, hs.fclk, hs.len, hs.imem, hs.clkdiv, hs.err, hs.errAddr⟩
  · exact ⟨hs.life, hs.fclk, hs.len, hs.imem, hs.clkdiv, hs.err, hs.errAddr⟩

/-- No event but a reset opens the lock. -/
theorem LockedAt.of_runEvent {h : HostSide} (ev : Event) (s t : State) (hev : ev ≠ .reset) (hs : LockedAt h s.host)
    (ht : runEvent ev s = .next t) : LockedAt h t.host := by
  obtain ⟨ports, -, rfl⟩ | ⟨-, e, rfl⟩ := edge_cases hev ht
  · exact hs.hostAfter ports
  · exact hs

/-- Settles O42: every event but a reset keeps the lock. -/
theorem configurationLock : Obligations.ConfigurationLock := by
  unfold Obligations.ConfigurationLock
  intro evs s t hl hfree ht
  have h := runEvents_keeps_of_resetFree LockedAt.of_runEvent hfree ⟨hl, rfl, rfl, rfl, rfl, rfl, rfl⟩ ht
  exact ⟨h.fclk, h.len, h.imem, h.clkdiv, h.err, h.errAddr⟩

end Sys2Proof.Machine

namespace Sys2Proof.Machine

/-! ## The invariant, clause by clause (20_memory.md R73, 41_timing_program.md R124, 42_transmit_queue.md R145)

`Inv` falls into three groups of clauses that an event keeps each on its own: the host's registers, the queue with the
copies of its pointers, and the engine. -/

/-! ### The host's registers (R161, R168) -/

/-- The clauses of `Inv` about the host's registers alone. -/
structure RegistersOk (h : HostSide) : Prop where
  imemCanonical : h.imem.wf = true
  imemInRange : h.imem.below Config.imemDepth = true
  programOk : lifeActive h.life = true → ProgramOk h ∧ 1 ≤ h.clkdiv.toNat
  divisorOfFclk : h.life ≠ .uninit → h.clkdiv = divCalc h.fclk
  errOnlyInFault : h.life ≠ .fault → h.err = 0 ∧ h.errAddr = 0
  errInFault : h.life = .fault → 1 ≤ h.err.toNat ∧ h.err.toNat ≤ 5

theorem Inv.registersOk {s : State} (h : Inv s) : RegistersOk s.host where
  imemCanonical := h.imemCanonical
  imemInRange := h.imemInRange
  programOk := h.programOk
  divisorOfFclk := h.divisorOfFclk
  errOnlyInFault := h.errOnlyInFault
  errInFault := h.errInFault

/-- In UNINIT only IMEM and the cleared error registers matter. -/
theorem RegistersOk.of_uninit {h : HostSide} (hl : h.life = .uninit) (hwf : h.imem.wf = true)
    (hbelow : h.imem.below Config.imemDepth = true) (herr : h.err = 0 ∧ h.errAddr = 0) : RegistersOk h where
  imemCanonical := hwf
  imemInRange := hbelow
  programOk ha := by simp [hl] at ha
  divisorOfFclk hu := absurd hl hu
  errOnlyInFault _ := herr
  errInFault hf := by cases hl.symm.trans hf

/-- What a successful `Validate()` has checked (43_engine_control.md R164, R168). -/
theorem programOk_of_validate_none {grant : Bool} {h : HostSide} (hv : validate grant h = none) :
    ProgramOk h ∧ 1 ≤ (divCalc h.fclk).toNat := by
  unfold validate at hv
  split_ifs at hv with hgrant hdiv hlen
  obtain ⟨hlen0, hlen32⟩ := not_or.1 hlen
  have hpos {w : Nat} {v : BitVec w} (hne : v ≠ 0) : 1 ≤ v.toNat :=
    Nat.pos_of_ne_zero fun h0 => hne (BitVec.eq_of_toNat_eq h0)
  refine ⟨⟨hpos hlen0, not_lt.1 hlen32, fun a ha => ?_⟩, hpos hdiv⟩
  simpa using (scanProgram_none_iff ..).1 hv a ha

theorem configErrorCode_range (code : ConfigError) :
    1 ≤ (configErrorCode code).toNat ∧ (configErrorCode code).toNat ≤ 5 := by
  cases code <;> decide

theorem RegistersOk.configure {h : HostSide} (hr : RegistersOk h) (hl : h.life = .uninit) (grant : Bool) :
    RegistersOk (h.configure grant) := by
  obtain ⟨hv, hc⟩ | ⟨code, addr, -, hc⟩ := configure_cases grant h <;> rw [hc]
  · exact {
      imemCanonical := hr.imemCanonical
      imemInRange := hr.imemInRange
      programOk := fun _ => programOk_of_validate_none hv
      divisorOfFclk := fun _ => rfl
      errOnlyInFault := fun _ => hr.errOnlyInFault (by simp [hl])
      errInFault := nofun }
  · exact {
      imemCanonical := hr.imemCanonical
      imemInRange := hr.imemInRange
      programOk := nofun
      divisorOfFclk := fun _ => rfl
      errOnlyInFault := fun hne => absurd rfl hne
      errInFault := fun _ => configErrorCode_range code }

theorem RegistersOk.start {h : HostSide} (hr : RegistersOk h) (hl : h.life = .configured) : RegistersOk h.start where
  imemCanonical := hr.imemCanonical
  imemInRange := hr.imemInRange
  programOk _ := hr.programOk (by simp [hl])
  divisorOfFclk _ := hr.divisorOfFclk (by simp [hl])
  errOnlyInFault _ := hr.errOnlyInFault (by simp [hl])
  errInFault := nofun

theorem RegistersOk.writeReg {h : HostSide} (hr : RegistersOk h) (i : BitVec 6) (v : Word) (grant : Bool) :
    RegistersOk (h.writeReg i v grant) := by
  have herr (hl : h.life = .uninit) : h.err = 0 ∧ h.errAddr = 0 := hr.errOnlyInFault (by simp [hl])
  obtain ⟨hl, -, hw⟩ | ⟨hl, -, hw⟩ | ⟨a, hl, ha, hw⟩ | ⟨hl, -, hw⟩ | ⟨hl, -, hw⟩ | hw := writeReg_cases i v grant h <;>
    rw [hw]
  · exact .of_uninit hl hr.imemCanonical hr.imemInRange (herr hl)
  · exact .of_uninit hl hr.imemCanonical hr.imemInRange (herr hl)
  · exact .of_uninit hl (Memory.write_wf hr.imemCanonical) (Memory.write_below hr.imemInRange (hostRegOf_imem ha))
      (herr hl)
  · exact hr.configure hl grant
  · exact hr.start hl
  · exact hr

theorem RegistersOk.busAfter {h : HostSide} (hr : RegistersOk h) (p : BusIn) : RegistersOk (busAfter p h) := by
  unfold Machine.busAfter
  split
  · exact hr.writeReg p.addr p.wdata p.pinGrant
  · exact hr

/-- The push and the synchroniser write none of these registers. -/
theorem RegistersOk.hostAfter {s : State} (hr : RegistersOk s.host) (ports : HostIn) :
    RegistersOk (hostAfter s ports) :=
  have hb := hr.busAfter ports.bus
  { imemCanonical := hb.imemCanonical
    imemInRange := hb.imemInRange
    programOk := hb.programOk
    divisorOfFclk := hb.divisorOfFclk
    errOnlyInFault := hb.errOnlyInFault
    errInFault := hb.errInFault }

/-! ### Paths of pointers that fit the FIFO (R73, R145) -/

/-- The values of the two pointers, from the oldest copy of rptr to the newest of wptr: `ptrPath` by its parts. -/
def pointerPath (rs : List Ptr) (rptr : Ptr) (ws : List Ptr) (wptr : Ptr) : List Ptr :=
  (rs.map gray2bin).reverse ++ rptr :: ((ws.map gray2bin).reverse ++ [wptr])

theorem ptrPath_eq (s : State) : ptrPath s = pointerPath s.host.rs s.eng.rptr s.eng.ws s.host.wptr := rfl

/-- A path of ring positions that is at most FIFO_DEPTH long. -/
structure FitsRing (b : Build) (path : List Ptr) : Prop where
  inRange : ∀ p ∈ path, p.toNat < ptrModulus b
  length_le : pathLength b path ≤ b.fifoDepth

theorem FitsRing.length_lt {b : Build} {path : List Ptr} (h : FitsRing b path) :
    pathLength b path < ptrModulus b := by
  have hpos := b.depth_pos
  have hle := h.length_le
  unfold ptrModulus
  omega

section
variable {b : Build} {l m : List Ptr} {p q r : Ptr}

theorem FitsRing.of_cons (h : FitsRing b (p :: l)) : FitsRing b l :=
  ⟨fun x hx => h.inRange x (List.mem_cons_of_mem p hx), (pathLength_le_cons b p l).trans h.length_le⟩

theorem FitsRing.stay (h : FitsRing b (l ++ p :: m)) : FitsRing b (l ++ p :: p :: m) :=
  ⟨fun x hx => h.inRange x (by simpa using hx), (pathLength_repeat b l m p).trans_le h.length_le⟩

theorem FitsRing.drop (h : FitsRing b (l ++ p :: q :: m)) (hm : m ≠ []) : FitsRing b (l ++ p :: m) := by
  have hrange : ∀ x ∈ p :: q :: m, x.toNat < ptrModulus b := fun x hx => h.inRange x (List.mem_append_right l hx)
  refine ⟨fun x hx => h.inRange x ?_, (pathLength_drop hm hrange).trans h.length_le⟩
  simp only [List.mem_append, List.mem_cons] at hx ⊢
  tauto

/-- A push that finds room keeps the bound: it lengthens the path by one. -/
theorem FitsRing.push (h : FitsRing b (l ++ [p, q])) (hroom : pathLength b (l ++ [p, q]) ≠ b.fifoDepth) :
    FitsRing b (l ++ [p, ptrNext b q]) := by
  have hlen := h.length_le
  have hpos := b.depth_pos
  have hlt : pathLength b (l ++ [p, q]) + 1 < ptrModulus b := by
    unfold ptrModulus
    omega
  refine ⟨fun x hx => ?_, ?_⟩
  · obtain hx | rfl | rfl : x ∈ l ∨ x = p ∨ x = ptrNext b q := by simpa using hx
    · exact h.inRange x (by simp [hx])
    · exact h.inRange x (by simp)
    · exact ptrNext_lt b q
  · rw [pathLength_next_last (h.inRange p (by simp)) (h.inRange q (by simp)) hlt]
    omega

/-- A pop that finds a word keeps the path's length. -/
theorem FitsRing.pop (h : FitsRing b (l ++ p :: q :: r :: m)) (hne : q ≠ r) :
    FitsRing b (l ++ p :: ptrNext b q :: r :: m) := by
  refine ⟨fun x hx => ?_, ?_⟩
  · obtain hx | rfl | hx : (x ∈ l ∨ x = p) ∨ x = ptrNext b q ∨ x = r ∨ x ∈ m := by simpa [or_assoc] using hx
    · exact h.inRange x (by simp only [List.mem_append, List.mem_cons]; tauto)
    · exact ptrNext_lt b q
    · exact h.inRange x (by simp [hx])
  · rw [pathLength_next_middle (h.inRange p (by simp)) (h.inRange q (by simp)) (h.inRange r (by simp)) hne
      h.length_lt]
    exact h.length_le

end

section
variable {b : Build} {rs ws : List Ptr} {r w : Ptr}

/-- The path as the host sees it, from its view of rptr on. -/
theorem pointerPath_eq_rptrH (r w : Ptr) (ws : List Ptr) (hrs : rs ≠ []) :
    pointerPath rs r ws w =
      gray2bin (lastStage 0 rs) :: ((rs.map gray2bin).reverse.tail ++ r :: ((ws.map gray2bin).reverse ++ [w])) := by
  rw [pointerPath, reverse_map_eq_cons gray2bin 0 hrs]
  rfl

/-- The path as the engine sees it, rptr followed by its view of wptr. -/
theorem pointerPath_eq_wptrE (rs : List Ptr) (r w : Ptr) (hws : ws ≠ []) :
    pointerPath rs r ws w =
      (rs.map gray2bin).reverse ++
        r :: gray2bin (lastStage 0 ws) :: ((ws.map gray2bin).reverse.tail ++ [w]) := by
  rw [pointerPath, reverse_map_eq_cons gray2bin 0 hws]
  rfl

/-- The path from rptr on is as long as the true occupancy. -/
theorem ptrDist_rptr_wptr (h : FitsRing b (pointerPath rs r ws w)) :
    ptrDist b r w = pathLength b (r :: ((ws.map gray2bin).reverse ++ [w])) := by
  have hlen := h.length_lt
  rw [pointerPath, pathLength_append] at hlen
  exact ptrDist_of_path (fun x hx => h.inRange x (List.mem_append_right _ hx)) (by omega)

/-- The whole path is as long as the occupancy that the host sees. -/
theorem ptrDist_rptrH_wptr (h : FitsRing b (pointerPath rs r ws w)) (hrs : rs ≠ []) :
    ptrDist b (gray2bin (lastStage 0 rs)) w = pathLength b (pointerPath rs r ws w) := by
  have hsplit : pointerPath rs r ws w = gray2bin (lastStage 0 rs) ::
      (((rs.map gray2bin).reverse.tail ++ r :: (ws.map gray2bin).reverse) ++ [w]) := by
    simp [pointerPath_eq_rptrH r w ws hrs]
  have hrange := h.inRange
  have hlen := h.length_lt
  rw [hsplit] at hrange hlen ⊢
  exact ptrDist_of_path hrange hlen

theorem FitsRing.advance_wptr (h : FitsRing b (pointerPath rs r ws w)) (hrs : rs ≠ [])
    (hroom : ptrDist b (gray2bin (lastStage 0 rs)) w ≠ b.fifoDepth) :
    FitsRing b (pointerPath rs r ws (ptrNext b w)) := by
  rw [ptrDist_rptrH_wptr h hrs] at hroom
  obtain ⟨l, p, hl⟩ : ∃ l p, (rs.map gray2bin).reverse ++ r :: (ws.map gray2bin).reverse = l ++ [p] :=
    ⟨_, _, (List.dropLast_append_getLast (by simp)).symm⟩
  have hsplit (w : Ptr) : pointerPath rs r ws w = l ++ [p, w] := by
    rw [pointerPath, ← List.cons_append, ← List.append_assoc, hl, List.append_assoc]
    rfl
  rw [hsplit] at h hroom ⊢
  exact h.push hroom

theorem FitsRing.shift_rs (h : FitsRing b (pointerPath rs r ws w)) (hrs : rs ≠ []) :
    FitsRing b (pointerPath (shiftIn (bin2gray r) rs) r ws w) := by
  rw [pointerPath_eq_rptrH r w ws hrs] at h
  rw [pointerPath, reverse_map_shiftIn gray2bin _ hrs, gray2bin_bin2gray, List.append_assoc]
  exact h.of_cons.stay

theorem FitsRing.advance_rptr (h : FitsRing b (pointerPath rs r ws w)) (hrs : rs ≠ []) (hws : ws ≠ [])
    (hne : r ≠ gray2bin (lastStage 0 ws)) : FitsRing b (pointerPath rs (ptrNext b r) ws w) := by
  obtain ⟨l, p, hl⟩ : ∃ l p, (rs.map gray2bin).reverse = l ++ [p] :=
    ⟨_, _, (List.dropLast_append_getLast (by simpa using hrs)).symm⟩
  rw [pointerPath_eq_wptrE _ _ _ hws, hl, List.append_assoc] at h ⊢
  exact h.pop hne

theorem FitsRing.shift_ws (h : FitsRing b (pointerPath rs r ws w)) (hws : ws ≠ []) :
    FitsRing b (pointerPath rs r (shiftIn (bin2gray w) ws) w) := by
  rw [pointerPath_eq_wptrE _ _ _ hws] at h
  have hdrop := h.drop (by simp)
  have hsplit : pointerPath rs r (shiftIn (bin2gray w) ws) w =
      ((rs.map gray2bin).reverse ++ r :: (ws.map gray2bin).reverse.tail) ++ [w, w] := by
    simp [pointerPath, reverse_map_shiftIn gray2bin _ hws]
  rw [hsplit]
  exact FitsRing.stay (by simpa using hdrop)

end

/-! ### The queue's registers (R72, R145) -/

/-- The clauses of `Inv` about FIFO_MEM, the pointers and their copies. -/
structure QueueOk (s : State) : Prop where
  fifoCanonical : s.host.fifoMem.wf = true
  fifoInRange : s.host.fifoMem.below s.build.fifoDepth = true
  rsStages : s.host.rs.length = s.build.syncStages
  wsStages : s.eng.ws.length = s.build.syncStages
  wgrayOfWptr : s.host.wgray = bin2gray s.host.wptr
  rgrayOfRptr : s.eng.rgray = bin2gray s.eng.rptr
  fits : FitsRing s.build (ptrPath s)
  queueClosed : lifeActive s.host.life = false → s.host.wptr = 0 ∧ s.host.fifoMem = []

theorem Inv.queueOk {s : State} (h : Inv s) : QueueOk s where
  fifoCanonical := h.fifoCanonical
  fifoInRange := h.fifoInRange
  rsStages := h.rsStages
  wsStages := h.wsStages
  wgrayOfWptr := h.wgrayOfWptr
  rgrayOfRptr := h.rgrayOfRptr
  fits := ⟨h.pathInRange, h.pathFits⟩
  queueClosed := h.queueClosed

/-- A list with one entry per stage is not empty. -/
theorem ne_nil_of_stages {α : Type} {b : Build} {l : List α} (hl : l.length = b.syncStages) : l ≠ [] := by
  have hstages := b.stages_bounds
  rw [← List.length_pos_iff]
  omega

theorem Inv.rs_ne_nil {s : State} (h : Inv s) : s.host.rs ≠ [] := ne_nil_of_stages h.rsStages
theorem Inv.ws_ne_nil {s : State} (h : Inv s) : s.eng.ws ≠ [] := ne_nil_of_stages h.wsStages
theorem Inv.runS_ne_nil {s : State} (h : Inv s) : s.eng.runS ≠ [] := ne_nil_of_stages h.runStages

/-- The push port's two cases at a host edge: the word is accepted, or nothing happens (R140, R141). -/
theorem txAfter_cases (b : Build) (p : TxIn) (h : HostSide) :
    ((p.push && txOk b h) = true ∧ txAfter b p h = h.enqueue b p.data) ∨
    ((p.push && txOk b h) = false ∧ txAfter b p h = h) := by
  unfold txAfter HostSide.push
  cases p.push <;> cases txOk b h <;> simp

/-- An active queue stays active: no register write closes it (R171). -/
theorem lifeActive_busAfter {h : HostSide} (ha : lifeActive h.life = true) (p : BusIn) :
    lifeActive (busAfter p h).life = true := by
  have hl : h.life ≠ .uninit := fun hu => by simp [hu] at ha
  obtain ⟨-, hb⟩ | hb := busAfter_cases_of_configured hl p <;> rw [hb]
  · rfl
  · exact ha

theorem txAfter_life (b : Build) (p : TxIn) (h : HostSide) : (txAfter b p h).life = h.life := by
  obtain ⟨-, ht⟩ | ⟨-, ht⟩ := txAfter_cases b p h <;> rw [ht]
  rfl

/-- The push port keeps the queue: it stores a word only where the host's view finds room. -/
theorem QueueOk.txAfter {s : State} (h : QueueOk s) (p : TxIn) : QueueOk (s.withHost (txAfter s.build p s.host)) := by
  obtain ⟨hok, ht⟩ | ⟨-, ht⟩ := txAfter_cases s.build p s.host <;> rw [ht]
  · obtain ⟨hactive, hroom⟩ := (txOk_iff ..).1 (Bool.and_eq_true_iff.1 hok).2
    exact {
      fifoCanonical := Memory.write_wf h.fifoCanonical
      fifoInRange := Memory.write_below h.fifoInRange (Nat.mod_lt _ s.build.depth_pos)
      rsStages := h.rsStages
      wsStages := h.wsStages
      wgrayOfWptr := rfl
      rgrayOfRptr := h.rgrayOfRptr
      fits := h.fits.advance_wptr (ne_nil_of_stages h.rsStages) hroom
      queueClosed := fun hf => by cases hf.symm.trans ((lifeActive_iff _).2 hactive) }
  · exact h

/-- A host edge keeps the queue: beside the push it takes the read pointer into its synchroniser. -/
theorem QueueOk.hostAfter {s : State} (h : QueueOk s) (ports : HostIn) :
    QueueOk (s.withHost (hostAfter s ports)) :=
  have hpush := h.txAfter ports.tx
  { fifoCanonical := hpush.fifoCanonical
    fifoInRange := hpush.fifoInRange
    rsStages := (shiftIn_length ..).trans h.rsStages
    wsStages := h.wsStages
    wgrayOfWptr := hpush.wgrayOfWptr
    rgrayOfRptr := h.rgrayOfRptr
    fits := by
      have htx : (Machine.txAfter s.build ports.tx s.host).rs = s.host.rs := by
        obtain ⟨-, ht⟩ | ⟨-, ht⟩ := txAfter_cases s.build ports.tx s.host <;> rw [ht]
        rfl
      have hfits := hpush.fits
      rw [ptrPath_eq, State.withHost_host, htx] at hfits
      have hshift := hfits.shift_rs (ne_nil_of_stages h.rsStages)
      rwa [State.withHost_eng, ← h.rgrayOfRptr] at hshift
    queueClosed := fun hf => hpush.queueClosed <| by
      rw [State.withHost_host, txAfter_life]
      by_contra ha
      cases (lifeActive_busAfter (by simpa using ha) ports.bus).symm.trans hf }

end Sys2Proof.Machine

namespace Sys2Proof.Machine

/-! ### What an engine edge shifts and pops (41_timing_program.md R111, R117, 42_transmit_queue.md R144) -/

/-- The registers that only an issuing OUT writes agree. -/
structure SameShift (e e' : EngineSide) : Prop where
  x : e'.x = e.x
  osr : e'.osr = e.osr
  osrCnt : e'.osrCnt = e.osrCnt
  rptr : e'.rptr = e.rptr
  rgray : e'.rgray = e.rgray

/-- The engine side an issuing OUT shifts from: refilled when the word was exhausted (R117). -/
def EngineSide.refilled (b : Build) (mem : Memory 32) (e : EngineSide) : EngineSide :=
  if osrExhausted e then e.load b mem else e

/-- The micro-op is an OUT that does not stall. -/
def shiftsBit (i : Instr) (e : EngineSide) : Bool :=
  match i with
  | .outX _ _ => !(osrExhausted e && emptyE e)
  | _ => false

/-- An OUT that does not stall has a word in view if it needs one, and shifts one bit after its refill; any other
micro-op shifts nothing. -/
theorem engAfter_shift (i : Instr) (s : State) :
    (shiftsBit i s.eng = true ∧ (osrExhausted s.eng = true → emptyE s.eng = false) ∧
      SameShift ((s.eng.refilled s.build s.host.fifoMem).shiftBit s.build.shiftDir) (engAfter i s)) ∨
    (shiftsBit i s.eng = false ∧ SameShift s.eng (engAfter i s)) := by
  cases i with
  | outX side delay =>
    rw [shiftsBit, engAfter, EngineSide.refilled]
    obtain ⟨hx, he, ho⟩ | ⟨hx, he, ho⟩ | ⟨hx, ho⟩ := outStep_cases s.build s.host.fifoMem s.host.len side delay s.eng
    · exact .inr ⟨by simp [hx, he], by rw [ho]; exact ⟨rfl, rfl, rfl, rfl, rfl⟩⟩
    · exact .inl ⟨by simp [he], fun _ => he, by rw [ho, if_pos hx]; exact ⟨rfl, rfl, rfl, rfl, rfl⟩⟩
    · exact .inl ⟨by simp [hx], by simp [hx], by rw [ho, if_neg (by simp [hx])]; exact ⟨rfl, rfl, rfl, rfl, rfl⟩⟩
  | jmp | jmpNotX | nop | regRead | regWrite | configure | start | push =>
    exact .inr ⟨rfl, rfl, rfl, rfl, rfl, rfl⟩

/-- Only a tick with no delay left issues. -/
theorem outIssues_of_no_issue {s : State} (h : (tickDue s.eng && s.eng.delayCnt == 0) = false) :
    outIssues s = false := by
  unfold outIssues
  split
  · rw [h, Bool.false_and]
  · rfl

theorem outIssues_of_issue {s : State} {i : Instr} (hdue : tickDue s.eng = true) (hd : s.eng.delayCnt = 0)
    (hi : decodeMicro (fetchWord s) = .ok i) : outIssues s = shiftsBit i s.eng := by
  cases i <;> simp [outIssues, shiftsBit, hi, hdue, hd]

/-- What an engine edge does to X, OSR and the read pointer is said by `outIssues`. -/
theorem engineEdge_shift {s t : State} (ht : runEvent .engineEdge s = .next t) :
    (outIssues s = true ∧ (osrExhausted s.eng = true → emptyE s.eng = false) ∧
      SameShift ((s.eng.refilled s.build s.host.fifoMem).shiftBit s.build.shiftDir) t.eng) ∨
    (outIssues s = false ∧ SameShift s.eng t.eng) := by
  obtain ⟨ports, hev, -⟩ | ⟨-, hdue, rfl⟩ | ⟨-, -, hd, rfl⟩ | ⟨i, -, hdue, hd, hi, rfl⟩ | ⟨hev, -⟩ := runEvent_cases ht
  · cases hev
  · exact .inr ⟨outIssues_of_no_issue (by simp [hdue]), rfl, rfl, rfl, rfl, rfl⟩
  · exact .inr ⟨outIssues_of_no_issue (by simpa using fun _ => hd), rfl, rfl, rfl, rfl, rfl⟩
  · rw [outIssues_of_issue hdue hd hi]
    obtain ⟨hs, hview, h⟩ | ⟨hs, h⟩ := engAfter_shift i s
    · exact .inl ⟨hs, hview, h.x, h.osr, h.osrCnt, h.rptr, h.rgray⟩
    · exact .inr ⟨hs, h.x, h.osr, h.osrCnt, h.rptr, h.rgray⟩
  · cases hev

/-- The next engine edge pops a word: it issues an OUT that refills. -/
def pops (s : State) : Bool := outIssues s && osrExhausted s.eng

/-- The read pointer after an engine edge: advanced past a word in view, or as it was (R144). -/
theorem engineEdge_rptr {s t : State} (ht : runEvent .engineEdge s = .next t) :
    (pops s = true ∧ s.eng.rptr ≠ wptrE s.eng ∧ t.eng.rptr = ptrNext s.build s.eng.rptr ∧
      t.eng.rgray = bin2gray (ptrNext s.build s.eng.rptr)) ∨
    (pops s = false ∧ t.eng.rptr = s.eng.rptr ∧ t.eng.rgray = s.eng.rgray) := by
  obtain ⟨hout, hview, hshift⟩ | ⟨hout, hshift⟩ := engineEdge_shift ht
  · have hrptr := hshift.rptr
    have hrgray := hshift.rgray
    cases hx : osrExhausted s.eng with
    | true =>
      rw [EngineSide.refilled, if_pos hx] at hrptr hrgray
      exact .inl ⟨by simp [pops, hout, hx], by simpa [emptyE] using hview hx, hrptr, hrgray⟩
    | false =>
      rw [EngineSide.refilled, hx, if_neg Bool.false_ne_true] at hrptr hrgray
      exact .inr ⟨by simp [pops, hx], hrptr, hrgray⟩
  · exact .inr ⟨by simp [pops, hout], hshift.rptr, hshift.rgray⟩

/-- An engine edge keeps the queue: it pops only a word in view, and takes the write pointer into its
synchroniser. -/
theorem QueueOk.engineEdge {s t : State} (h : QueueOk s) (ht : runEvent .engineEdge s = .next t) : QueueOk t := by
  have hpop := engineEdge_rptr ht
  obtain ⟨e, rfl⟩ := engineEdge_frame ht
  simp only [State.withEng_eng, clockEngine_rptr, clockEngine_rgray] at hpop
  have hws := ne_nil_of_stages h.wsStages
  have hfits := h.fits
  rw [ptrPath_eq] at hfits
  have hpopped : e.rgray = bin2gray e.rptr ∧
      FitsRing s.build (pointerPath s.host.rs e.rptr s.eng.ws s.host.wptr) := by
    obtain ⟨-, hne, hr, hg⟩ | ⟨-, hr, hg⟩ := hpop
    · exact ⟨by rw [hr, hg], hr ▸ hfits.advance_rptr (ne_nil_of_stages h.rsStages) hws hne⟩
    · exact ⟨by rw [hr, hg, h.rgrayOfRptr], hr ▸ hfits⟩
  obtain ⟨hgray, hfits'⟩ := hpopped
  exact {
    fifoCanonical := h.fifoCanonical
    fifoInRange := h.fifoInRange
    rsStages := h.rsStages
    wsStages := (shiftIn_length ..).trans h.wsStages
    wgrayOfWptr := h.wgrayOfWptr
    rgrayOfRptr := hgray
    fits := by
      have hshift := hfits'.shift_ws hws
      rwa [← h.wgrayOfWptr] at hshift
    queueClosed := h.queueClosed }

/-! ### The engine's registers (R113, R124, R196) -/

/-- The clauses of `Inv` about the engine's registers. -/
structure EngineOk (s : State) : Prop where
  runStages : s.eng.runS.length = s.build.syncStages
  xIsBit : s.eng.x = 0 ∨ s.eng.x = 1
  osrCntInRange : s.eng.osrCnt.toNat ≤ Config.wordBits
  pcInProgram : s.host.life = .running → s.eng.pc.toNat < s.host.len.toNat
  divCntInRange : s.host.life = .running → s.eng.divCnt.toNat < s.host.clkdiv.toNat
  runLevelOrder : s.eng.runS.Pairwise fun newer older => older = true → newer = true
  runLevelSource : s.host.life ≠ .running → ∀ r ∈ s.eng.runS, r = false
  idleBeforeFirstTick : runE s.eng = false →
    ∃ run write, s.eng = { EngineSide.resetOf s.build with runS := run, ws := write }

/-- The three groups make up the invariant. -/
theorem inv_of_groups {s : State} (hr : RegistersOk s.host) (hq : QueueOk s) (he : EngineOk s) : Inv s where
  imemCanonical := hr.imemCanonical
  imemInRange := hr.imemInRange
  fifoCanonical := hq.fifoCanonical
  fifoInRange := hq.fifoInRange
  rsStages := hq.rsStages
  wsStages := hq.wsStages
  runStages := he.runStages
  wgrayOfWptr := hq.wgrayOfWptr
  rgrayOfRptr := hq.rgrayOfRptr
  pathInRange := hq.fits.inRange
  pathFits := hq.fits.length_le
  xIsBit := he.xIsBit
  osrCntInRange := he.osrCntInRange
  programOk := hr.programOk
  divisorOfFclk := hr.divisorOfFclk
  pcInProgram := he.pcInProgram
  divCntInRange := he.divCntInRange
  runLevelOrder := he.runLevelOrder
  runLevelSource := he.runLevelSource
  idleBeforeFirstTick := he.idleBeforeFirstTick
  queueClosed := hq.queueClosed
  errOnlyInFault := hr.errOnlyInFault
  errInFault := hr.errInFault

/-- While LIFE is not RUNNING the run level has not crossed. -/
theorem Inv.runE_of_not_running {s : State} (h : Inv s) (hl : s.host.life ≠ .running) : runE s.eng = false :=
  h.runLevelSource hl _ (lastStage_mem false h.runS_ne_nil)

/-- A block comes to RUNNING only by START. -/
theorem busAfter_life_running {p : BusIn} {h : HostSide} (hl : (busAfter p h).life = .running) :
    busAfter p h = h ∨ (h.life = .configured ∧ busAfter p h = h.start) := by
  by_cases hu : h.life = .uninit
  · left
    unfold busAfter at hl ⊢
    split at hl
    · rw [if_pos ‹_›]
      obtain ⟨-, -, hw⟩ | ⟨-, -, hw⟩ | ⟨a, -, -, hw⟩ | ⟨-, -, hw⟩ | ⟨hc, -⟩ | hw :=
        writeReg_cases p.addr p.wdata p.pinGrant h
      · cases hu.symm.trans (hw ▸ hl)
      · cases hu.symm.trans (hw ▸ hl)
      · cases hu.symm.trans (hw ▸ hl)
      · rw [hw] at hl
        obtain ⟨-, hc⟩ | ⟨code, addr, -, hc⟩ := configure_cases p.pinGrant h <;> rw [hc] at hl <;> cases hl
      · cases hu.symm.trans hc
      · exact hw
    · rw [if_neg ‹_›]
  · exact (busAfter_cases_of_configured hu p).symm

/-- START finds the engine at its reset values, inside the program it validated (R169, R204). -/
theorem Inv.engineOk_hostEdge {s : State} (h : Inv s) (ports : HostIn) :
    EngineOk (s.withHost (hostAfter s ports)) := by
  have hrange : (busAfter ports.bus s.host).life = .running →
      s.eng.pc.toNat < (busAfter ports.bus s.host).len.toNat ∧
        s.eng.divCnt.toNat < (busAfter ports.bus s.host).clkdiv.toNat := fun hl => by
    obtain hb | ⟨hc, hb⟩ := busAfter_life_running hl
    · rw [hb] at hl ⊢
      exact ⟨h.pcInProgram hl, h.divCntInRange hl⟩
    · obtain ⟨⟨hlen, -⟩, hdiv⟩ := h.programOk (by simp [hc])
      obtain ⟨run, write, he⟩ := h.idleBeforeFirstTick (h.runE_of_not_running (by simp [hc]))
      rw [hb, he]
      exact ⟨hlen, hdiv⟩
  exact {
    runStages := h.runStages
    xIsBit := h.xIsBit
    osrCntInRange := h.osrCntInRange
    pcInProgram := fun hl => (hrange hl).1
    divCntInRange := fun hl => (hrange hl).2
    runLevelOrder := h.runLevelOrder
    runLevelSource := fun hl => h.runLevelSource fun hr => hl <| by
      rw [State.withHost_host, hostAfter_of_running hr]
      exact hr
    idleBeforeFirstTick := h.idleBeforeFirstTick }

theorem wordOfBit_isBit (bit : Bool) : wordOfBit bit = 0 ∨ wordOfBit bit = 1 := by
  cases bit
  · exact .inl rfl
  · exact .inr rfl

theorem osrExhausted_iff (e : EngineSide) : osrExhausted e = true ↔ e.osrCnt.toNat = 32 := by
  simp [osrExhausted, Config.wordBits]

/-- A refill leaves room for a bit. -/
theorem refilled_osrCnt_lt {b : Build} {mem : Memory 32} {e : EngineSide} (h : e.osrCnt.toNat ≤ Config.wordBits) :
    (e.refilled b mem).osrCnt.toNat < Config.wordBits := by
  unfold EngineSide.refilled
  split
  · exact Nat.zero_lt_succ 31
  · rename_i hx
    rw [osrExhausted_iff] at hx
    exact lt_of_le_of_ne h hx

theorem shiftBit_osrCnt_toNat {dir : ShiftDir} {e : EngineSide} (h : e.osrCnt.toNat < Config.wordBits) :
    (e.shiftBit dir).osrCnt.toNat = e.osrCnt.toNat + 1 := by
  have hlt : e.osrCnt.toNat < 32 := h
  rw [EngineSide.shiftBit_osrCnt, BitVec.toNat_add]
  exact Nat.mod_eq_of_lt (show e.osrCnt.toNat + 1 < 64 by omega)

/-- Where the oldest stage of an ordered run level is 1, all are. -/
theorem eq_true_of_lastStage {l : List Bool} (hl : l.Pairwise fun newer older => older = true → newer = true)
    (hlast : lastStage false l = true) : ∀ r ∈ l, r = true := by
  intro r hr
  obtain ⟨m, x, rfl⟩ : ∃ m x, l = m ++ [x] := ⟨_, _, (List.dropLast_append_getLast (List.ne_nil_of_mem hr)).symm⟩
  obtain rfl : x = true := by simpa [lastStage] using hlast
  obtain ⟨-, -, hnewer⟩ := List.pairwise_append.1 hl
  obtain hr | hr := List.mem_append.1 hr
  · exact hnewer r hr true (by simp) rfl
  · simpa using hr

/-- A run level that has crossed fills its synchroniser, and its source is RUNNING. -/
theorem Inv.runLevel_full {s : State} (h : Inv s) (hr : runE s.eng = true) :
    s.host.life = .running ∧ ∀ r ∈ s.eng.runS, r = true := by
  refine ⟨?_, eq_true_of_lastStage h.runLevelOrder hr⟩
  by_contra hl
  cases (h.runE_of_not_running hl).symm.trans hr

/-- The run level never falls (R33, R113). -/
theorem Inv.runE_clockEngine {s : State} (h : Inv s) (hr : runE s.eng = true) (e : EngineSide) :
    runE (clockEngine s e) = true := by
  obtain ⟨hl, hfull⟩ := h.runLevel_full hr
  have hmem : lastStage false (shiftIn (s.host.life == .running) s.eng.runS) ∈
      shiftIn (s.host.life == .running) s.eng.runS :=
    lastStage_mem false (ne_nil_of_stages ((shiftIn_length ..).trans h.runStages))
  obtain hv | hm := mem_shiftIn hmem
  · exact hv.trans (by simp [hl])
  · exact hfull _ hm

/-- An engine edge before the first tick leaves the engine at its reset values but for the synchronisers. -/
theorem Inv.idle_engineEdge {s t : State} (h : Inv s) (ht : runEvent .engineEdge s = .next t)
    (hr : runE t.eng = false) :
    ∃ run write, t.eng = { EngineSide.resetOf t.build with runS := run, ws := write } := by
  have hidle : runE s.eng = false := by
    obtain ⟨e, rfl⟩ := engineEdge_frame ht
    by_contra hs
    cases (h.runE_clockEngine (by simpa using hs) e).symm.trans hr
  rw [runEvent, engineEdge_noTick (by simp [tickDue, hidle])] at ht
  cases ht
  obtain ⟨run, write, he⟩ := h.idleBeforeFirstTick hidle
  refine ⟨(clockEngine s s.eng).runS, (clockEngine s s.eng).ws, ?_⟩
  rw [State.withEng_eng, clockEngine, hidle, he]
  rfl

theorem Inv.engineOk_engineEdge {s t : State} (h : Inv s) (ht : runEvent .engineEdge s = .next t) : EngineOk t := by
  have hshift := engineEdge_shift ht
  have hidle := h.idle_engineEdge ht
  have hticking (hl : s.host.life = .running) : Ticking t := by
    obtain ⟨u, hu, hticking⟩ := (h.ticking hl).engineEdge_next
    cases ht.symm.trans hu
    exact hticking
  obtain ⟨e, rfl⟩ := engineEdge_frame ht
  exact {
    runStages := (shiftIn_length ..).trans h.runStages
    xIsBit := by
      obtain ⟨-, -, hs⟩ | ⟨-, hs⟩ := hshift
      · rw [hs.x]
        exact wordOfBit_isBit _
      · rw [hs.x]
        exact h.xIsBit
    osrCntInRange := by
      obtain ⟨-, -, hs⟩ | ⟨-, hs⟩ := hshift
      · have hlt := refilled_osrCnt_lt (b := s.build) (mem := s.host.fifoMem) h.osrCntInRange
        rw [hs.osrCnt, shiftBit_osrCnt_toNat hlt]
        exact hlt
      · rw [hs.osrCnt]
        exact h.osrCntInRange
    pcInProgram := fun hl => (hticking hl).pcInProgram
    divCntInRange := fun hl => (hticking hl).divCntInRange
    runLevelOrder := by
      refine .sublist (List.take_sublist ..) (List.pairwise_cons.2 ⟨fun older hmem hold => ?_, h.runLevelOrder⟩)
      by_contra hl
      cases (h.runLevelSource (by simpa using hl) older hmem).symm.trans hold
    runLevelSource := fun hl r hr => by
      obtain rfl | hmem := mem_shiftIn hr
      · exact beq_false_of_ne hl
      · exact h.runLevelSource hl r hmem
    idleBeforeFirstTick := hidle }

/-! ### Every event keeps the invariant -/

/-- The invariant speaks of the block, not of the model's own fields. -/
theorem Inv.of_block {s t : State} (h : Inv s) (hb : t.build = s.build) (hh : t.host = s.host) (he : t.eng = s.eng) :
    Inv t := by
  obtain ⟨build, host, eng, env⟩ := t
  cases hb
  cases hh
  cases he
  exact { h with }

/-- Every event that completes keeps the invariant. -/
theorem Inv.of_runEvent {ev : Event} {s t : State} (h : Inv s) (ht : runEvent ev s = .next t) : Inv t := by
  cases ev with
  | hostEdge ports =>
    rw [runEvent, hostEdge_eq] at ht
    cases ht
    have hedge : Inv (s.withHost (hostAfter s ports)) :=
      inv_of_groups (h.registersOk.hostAfter ports) (h.queueOk.hostAfter ports) (h.engineOk_hostEdge ports)
    exact hedge.of_block rfl rfl rfl
  | engineEdge =>
    refine inv_of_groups ?_ (h.queueOk.engineEdge ht) (h.engineOk_engineEdge ht)
    obtain ⟨e, rfl⟩ := engineEdge_frame ht
    exact h.registersOk
  | reset =>
    cases ht
    exact (invariantAtReset s.build).of_block rfl rfl rfl

/-- Settles O4: a step is one event, and every event keeps the invariant. -/
theorem stepKeepsInvariant : Obligations.StepKeepsInvariant := by
  unfold Obligations.StepKeepsInvariant
  intro s t h ht
  obtain ⟨hb, hh, he⟩ := takeEvent_block s
  exact (h.of_block hb hh he).of_runEvent ht

end Sys2Proof.Machine

namespace Sys2Proof.Machine

/-! ## The FIFO delivers in order (20_memory.md R72, 42_transmit_queue.md R145, R146) -/

/-! ### The occupancy (R145) -/

/-- Going on from `p` by the distance to `q` comes to `q` on the ring. -/
theorem add_ptrDist_mod {b : Build} {p q : Ptr} (hp : p.toNat < ptrModulus b) (hq : q.toNat < ptrModulus b) :
    (p.toNat + ptrDist b p q) % ptrModulus b = q.toNat := by
  rw [ptrDist_eq hp hq]
  split
  · rw [show p.toNat + (q.toNat - p.toNat) = q.toNat by omega, Nat.mod_eq_of_lt hq]
  · rw [show p.toNat + (q.toNat + ptrModulus b - p.toNat) = q.toNat + ptrModulus b by omega, Nat.add_mod_right,
      Nat.mod_eq_of_lt hq]

/-- A position on the ring and its slot. -/
theorem mod_ptrModulus_mod_depth (b : Build) (n : Nat) : n % ptrModulus b % b.fifoDepth = n % b.fifoDepth :=
  Nat.mod_mod_of_dvd n (Nat.dvd_mul_left b.fifoDepth 2)

theorem Inv.rptr_lt {s : State} (h : Inv s) : s.eng.rptr.toNat < ptrModulus s.build :=
  h.pathInRange _ (by simp [ptrPath])

theorem Inv.wptr_lt {s : State} (h : Inv s) : s.host.wptr.toNat < ptrModulus s.build :=
  h.pathInRange _ (by simp [ptrPath])

theorem Inv.wptrE_lt {s : State} (h : Inv s) : (wptrE s.eng).toNat < ptrModulus s.build := by
  refine h.pathInRange _ ?_
  rw [ptrPath_eq, pointerPath_eq_wptrE _ _ _ h.ws_ne_nil]
  simp [wptrE]

/-- `occ ≤ occ_h`: the host's view of rptr is behind it. -/
theorem Inv.occ_le_occH {s : State} (h : Inv s) : occ s ≤ occH s.build s.host := by
  have hfits := h.queueOk.fits
  rw [occ, occH, rptrH, ptrDist_rptr_wptr hfits, ptrDist_rptrH_wptr hfits h.rs_ne_nil, pointerPath, pathLength_append]
  exact Nat.le_add_left _ _

theorem Inv.occH_le_depth {s : State} (h : Inv s) : occH s.build s.host ≤ s.build.fifoDepth := by
  rw [occH, rptrH, ptrDist_rptrH_wptr h.queueOk.fits h.rs_ne_nil]
  exact h.pathFits

/-- `occ_e ≤ occ`: the engine's view of wptr is behind it. -/
theorem Inv.occE_le_occ {s : State} (h : Inv s) : occE s.build s.eng ≤ occ s := by
  rw [occ, occE, wptrE, ptrDist_rptr_wptr h.queueOk.fits, reverse_map_eq_cons gray2bin 0 h.ws_ne_nil]
  exact Nat.le_add_right _ _

/-- A word in the engine's view is in the FIFO. -/
theorem Inv.rptr_ne_wptr {s : State} (h : Inv s) (hne : s.eng.rptr ≠ wptrE s.eng) : s.eng.rptr ≠ s.host.wptr := by
  intro heq
  have hocc : occ s = 0 := (ptrDist_zero_iff h.rptr_lt h.wptr_lt).2 heq
  have hle := h.occE_le_occ
  exact hne ((ptrDist_zero_iff h.rptr_lt h.wptrE_lt).1 (Nat.eq_zero_of_le_zero (hocc ▸ hle)))

/-! ### One event on the queue (R140, R144, R146) -/

/-- Two slots of one ring less than FIFO_DEPTH apart differ. -/
theorem slot_ne {depth r k n : Nat} (hk : k < n) (hn : n < depth) : (r + k) % depth ≠ (r + n) % depth := by
  intro h
  have hmod : k ≡ n [MOD depth] := Nat.ModEq.add_left_cancel' r h
  exact hk.ne (hmod.eq_of_lt_of_lt (hk.trans hn) hn)

/-- Counting on from the next pointer is counting one further. -/
theorem slot_ptrNext (b : Build) (p : Ptr) (k : Nat) :
    ((ptrNext b p).toNat + k) % b.fifoDepth = (p.toNat + (k + 1)) % b.fifoDepth := by
  rw [ptrNext_toNat, ← Nat.mod_add_mod, mod_ptrModulus_mod_depth, Nat.mod_add_mod, Nat.add_assoc, Nat.add_comm 1 k]

/-- An accepted push appends its word to the queue. -/
theorem Inv.queued_enqueue {s : State} (h : Inv s) (hok : txOk s.build s.host = true) (data : Word) :
    queued (s.withHost (s.host.enqueue s.build data)) = queued s ++ [data] := by
  obtain ⟨-, hroom⟩ := (txOk_iff ..).1 hok
  have hle := h.occ_le_occH
  have hleH := h.occH_le_depth
  have hlt : occ s < s.build.fifoDepth := by omega
  have hocc : occ (s.withHost (s.host.enqueue s.build data)) = occ s + 1 :=
    ptrDist_next_right h.rptr_lt h.wptr_lt (show occ s + 1 < ptrModulus s.build by unfold ptrModulus; omega)
  have hslot : slotOf s.build s.host.wptr = (s.eng.rptr.toNat + occ s) % s.build.fifoDepth := by
    rw [slotOf, ← add_ptrDist_mod h.rptr_lt h.wptr_lt, mod_ptrModulus_mod_depth, occ]
  simp only [queued, hocc, List.range_succ, List.map_append, List.map_singleton, State.withHost_host,
    State.withHost_eng, State.withHost_build, HostSide.enqueue_fifoMem, hslot, Memory.read_write_same h.fifoCanonical]
  congr 1
  refine List.map_congr_left fun k hk => Memory.read_write_other h.fifoCanonical data ?_
  exact slot_ne (List.mem_range.1 hk) hlt

/-- A pop takes the oldest word of the queue. -/
theorem Inv.queued_eq_cons {s t : State} (h : Inv s) (hne : s.eng.rptr ≠ wptrE s.eng) (hbuild : t.build = s.build)
    (hhost : t.host = s.host) (hrptr : t.eng.rptr = ptrNext s.build s.eng.rptr) :
    queued s = s.host.fifoMem.read (slotOf s.build s.eng.rptr) :: queued t := by
  have hocc : occ s = occ t + 1 := by
    rw [occ, occ, hbuild, hhost, hrptr]
    exact (ptrDist_next_left h.rptr_lt h.wptr_lt (h.rptr_ne_wptr hne)).symm
  rw [queued, hocc, List.range_succ_eq_map, List.map_cons, List.map_map, queued, hbuild, hhost, hrptr]
  congr 1
  refine List.map_congr_left fun k _ => ?_
  rw [Function.comp_apply, slot_ptrNext]

/-- One event: what it appends to the queue and what it takes from its front. -/
theorem Inv.queued_runEvent {ev : Event} {s t : State} (h : Inv s) (hev : ev ≠ .reset)
    (ht : runEvent ev s = .next t) : queued s ++ acceptedWords ev s = poppedWords ev s ++ queued t := by
  cases ev with
  | hostEdge ports =>
    rw [runEvent, hostEdge_eq] at ht
    cases ht
    rw [acceptedWords, poppedWords, List.nil_append]
    have hqueue : queued ((s.withHost (hostAfter s ports)).withLastOut (hostOutputs s.build s.host ports.bus.addr)) =
        queued (s.withHost (txAfter s.build ports.tx s.host)) := rfl
    rw [hqueue]
    obtain ⟨hok, htx⟩ | ⟨hno, htx⟩ := txAfter_cases s.build ports.tx s.host <;> rw [htx]
    · rw [if_pos hok, h.queued_enqueue (Bool.and_eq_true_iff.1 hok).2]
    · rw [hno, if_neg Bool.false_ne_true, List.append_nil]
      rfl
  | engineEdge =>
    rw [acceptedWords, poppedWords, List.append_nil]
    have hpop := engineEdge_rptr ht
    obtain ⟨e, rfl⟩ := engineEdge_frame ht
    obtain ⟨hp, hne, hr, -⟩ | ⟨hp, hr, -⟩ := hpop <;> rw [pops] at hp <;> rw [hp]
    · exact h.queued_eq_cons hne rfl rfl hr
    · rw [if_neg Bool.false_ne_true, List.nil_append, queued, queued, occ, occ, hr]
      rfl
  | reset => exact absurd rfl hev

/-! ### Runs -/

theorem collect_cons {α : Type} (f : Event → State → List α) {ev : Event} {evs : List Event} {s t : State}
    (ht : runEvent ev s = .next t) : collect f (ev :: evs) s = f ev s ++ collect f evs t := by
  rw [collect, ht]

/-- Settles O45, by induction on the run: each event keeps the balance, and the invariant. -/
theorem fifoDeliversInOrder : Obligations.FifoDeliversInOrder := by
  unfold Obligations.FifoDeliversInOrder
  intro evs s t h hfree ht
  induction evs generalizing s with
  | nil =>
    cases ht
    simp [collect]
  | cons ev evs ih =>
    obtain ⟨u, hu, hut⟩ := bindNext_eq_next.1 ht
    obtain ⟨hev, hrest⟩ := Bool.and_eq_true_iff.1 hfree
    rw [collect_cons _ hu, collect_cons _ hu, ← List.append_assoc, h.queued_runEvent (by simpa using hev) hu,
      List.append_assoc, ih u (h.of_runEvent hu) hrest hut, List.append_assoc]

/-! ## The synchronisers (20_memory.md R73, 42_transmit_queue.md R148, R149) -/

/-- A shift moves every stage on by one. -/
theorem shiftIn_getElem?_succ {α : Type} (v : α) {l : List α} {j : Nat} (hj : j + 1 < l.length) :
    (shiftIn v l)[j + 1]? = l[j]? := by
  rw [shiftIn, List.getElem?_take_of_lt hj, List.getElem?_cons_succ]

theorem shiftIn_getElem?_zero {α : Type} (v : α) {l : List α} (hl : 0 < l.length) : (shiftIn v l)[0]? = some v := by
  rw [shiftIn, List.getElem?_take_of_lt hl, List.getElem?_cons_zero]

theorem lastStage_of_getElem? {α : Type} {d v : α} {l : List α} {j : Nat} (hl : l.length = j + 1)
    (hj : l[j]? = some v) : lastStage d l = v := by
  rw [lastStage, List.getLastD_eq_getLast?, List.getLast?_eq_getElem?, hl, Nat.add_sub_cancel, hj, Option.getD_some]

/-- The stages are a synchroniser: they take their source in at every edge of their own domain, and nothing but a
reset writes them otherwise. -/
def IsSynchroniser {α : Type} (edge : Event → Bool) (source : State → α) (stages : State → List α) : Prop :=
  ∀ ev s t, ev ≠ .reset → runEvent ev s = .next t →
    stages t = if edge ev then shiftIn (source s) (stages s) else stages s

namespace IsSynchroniser

variable {α : Type} {edge : Event → Bool} {source : State → α} {stages : State → List α}

/-- Over a run a value moves on by one stage for each edge of the domain. -/
theorem getElem?_run (h : IsSynchroniser edge source stages) {evs : List Event} {s t : State} {j : Nat}
    (hfree : resetFree evs = true) (ht : runEvents evs s = .next t)
    (hj : j + evs.countP edge < (stages s).length) :
    (stages t).length = (stages s).length ∧ (stages t)[j + evs.countP edge]? = (stages s)[j]? := by
  induction evs generalizing s j with
  | nil =>
    cases ht
    exact ⟨rfl, rfl⟩
  | cons ev evs ih =>
    obtain ⟨u, hu, hut⟩ := bindNext_eq_next.1 ht
    obtain ⟨hev, hrest⟩ := Bool.and_eq_true_iff.1 hfree
    have hstep := h ev s u (by simpa using hev) hu
    cases he : edge ev with
    | true =>
      rw [he, if_pos rfl] at hstep
      rw [List.countP_cons_of_pos he, ← Nat.add_assoc, Nat.add_right_comm] at hj ⊢
      obtain ⟨hlen, hget⟩ := ih hrest hut (j := j + 1) (by rwa [hstep, shiftIn_length])
      rw [hlen, hget, hstep, shiftIn_length]
      exact ⟨rfl, shiftIn_getElem?_succ _ (by omega)⟩
    | false =>
      rw [he, if_neg Bool.false_ne_true] at hstep
      rw [List.countP_cons_of_neg (by simp [he])] at hj ⊢
      rw [← hstep] at hj ⊢
      exact ih hrest hut hj

/-- After as many edges of its domain as it has stages, the last stage holds the source as it was at the first. -/
theorem lastStage_run (h : IsSynchroniser edge source stages) {ev : Event} {evs : List Event} {s t : State} (d : α)
    (ht : runEvents (ev :: evs) s = .next t) (hev : ev ≠ .reset) (he : edge ev = true) (hfree : resetFree evs = true)
    (hlen : evs.countP edge + 1 = (stages s).length) :
    lastStage d (stages t) = source s := by
  obtain ⟨u, hu, hut⟩ := bindNext_eq_next.1 ht
  have hstep := h ev s u hev hu
  rw [he, if_pos rfl] at hstep
  have hlen' : (stages u).length = evs.countP edge + 1 := by rw [hstep, shiftIn_length, hlen]
  obtain ⟨hl, hget⟩ := h.getElem?_run hfree hut (j := 0) (by omega)
  refine lastStage_of_getElem? (hl.trans hlen') ?_
  rw [← Nat.zero_add (evs.countP edge), hget, hstep, shiftIn_getElem?_zero _ (by omega)]

end IsSynchroniser

/-- The write-pointer synchroniser (R34). -/
theorem isSynchroniser_ws :
    IsSynchroniser (· == .engineEdge) (fun s => s.host.wgray) (fun s => s.eng.ws) := by
  intro ev s t hev ht
  obtain ⟨ports, rfl, rfl⟩ | ⟨rfl, e, rfl⟩ := edge_cases hev ht <;> rfl

/-- The run synchroniser (R33). -/
theorem isSynchroniser_runS :
    IsSynchroniser (· == .engineEdge) (fun s => s.host.life == .running) (fun s => s.eng.runS) := by
  intro ev s t hev ht
  obtain ⟨ports, rfl, rfl⟩ | ⟨rfl, e, rfl⟩ := edge_cases hev ht <;> rfl

/-- The read-pointer synchroniser (R32). -/
theorem isSynchroniser_rs : IsSynchroniser isHostEdge (fun s => s.eng.rgray) (fun s => s.host.rs) := by
  intro ev s t hev ht
  obtain ⟨ports, rfl, rfl⟩ | ⟨rfl, e, rfl⟩ := edge_cases hev ht <;> rfl

/-- Settles O47: each of the three is a synchroniser of SYNC_STAGES stages. -/
theorem synchronisersDelayExactly : Obligations.SynchronisersDelayExactly := by
  unfold Obligations.SynchronisersDelayExactly
  refine ⟨fun evs s t h hfree hn ht => ⟨?_, ?_⟩, fun ports evs s t h hfree hn ht => ?_⟩
  · have hlast := isSynchroniser_ws.lastStage_run 0 ht nofun rfl hfree (hn.trans h.wsStages.symm)
    rw [wptrE, hlast, h.wgrayOfWptr, gray2bin_bin2gray]
  · have hlast := isSynchroniser_runS.lastStage_run false ht nofun rfl hfree (hn.trans h.runStages.symm)
    rw [runE, hlast, beq_iff_eq]
  · have hlast := isSynchroniser_rs.lastStage_run 0 ht nofun rfl hfree (hn.trans h.rsStages.symm)
    rw [rptrH, hlast, h.rgrayOfRptr, gray2bin_bin2gray]

end Sys2Proof.Machine

namespace Sys2Proof.Machine

/-! ## The waveform of a word (20_memory.md R64, 41_timing_program.md R125 to R130) -/

/-! ### Ticks in a row (R114, R122) -/

theorem runTicks_succ {n : Nat} {s t u : State} {trace : List Bool} (ht : tick s = .next t)
    (hu : runTicks n t = .next (trace, u)) : runTicks (n + 1) s = .next (t.eng.dout :: trace, u) := by
  simp only [runTicks, ht, hu]

theorem exists_of_runTicks_succ {n : Nat} {s u : State} {trace : List Bool}
    (h : runTicks (n + 1) s = .next (trace, u)) :
    ∃ t rest, tick s = .next t ∧ runTicks n t = .next (rest, u) ∧ trace = t.eng.dout :: rest := by
  simp only [runTicks] at h
  split at h
  · rename_i t ht
    split at h
    · rename_i rest v hv
      cases h
      exact ⟨t, rest, ht, hv, rfl⟩
    · cases h
    · cases h
  · cases h
  · cases h

/-- Two runs of ticks, one after the other. -/
theorem runTicks_add {m n : Nat} {s t u : State} {trace trace' : List Bool} (h : runTicks m s = .next (trace, t))
    (h' : runTicks n t = .next (trace', u)) : runTicks (m + n) s = .next (trace ++ trace', u) := by
  induction m generalizing s trace with
  | zero =>
    cases h
    rwa [Nat.zero_add]
  | succ m ih =>
    obtain ⟨v, rest, htick, hrest, rfl⟩ := exists_of_runTicks_succ h
    rw [Nat.succ_add]
    exact runTicks_succ htick (ih hrest)

theorem tick_delay {s : State} (hd : s.eng.delayCnt ≠ 0) :
    tick s = .next (s.withEng { s.eng with delayCnt := s.eng.delayCnt - 1 }) := by
  rw [tick, if_neg hd]

theorem tick_issue {s : State} {i : Instr} (hd : s.eng.delayCnt = 0) (hi : decodeMicro (fetchWord s) = .ok i) :
    tick s = .next (s.withEng (engAfter i s)) := by
  simp only [tick, if_pos hd, issue, hi, exec_microOp (decodeMicro_isMicroOp hi)]

/-- Delay ticks hold the level and count down to 0. -/
theorem runTicks_delay {d : Nat} {s : State} (hd : s.eng.delayCnt.toNat = d) :
    runTicks d s = .next (List.replicate d s.eng.dout, s.withEng { s.eng with delayCnt := 0 }) := by
  induction d generalizing s with
  | zero =>
    have h0 : s.eng.delayCnt = 0 := BitVec.eq_of_toNat_eq hd
    rw [← h0]
    rfl
  | succ d ih =>
    have hne : s.eng.delayCnt ≠ 0 := fun h0 => by simp [h0] at hd
    have hpred : (s.eng.delayCnt - 1).toNat = d := by
      have hone : (1 : BitVec 4).toNat = 1 := rfl
      rw [BitVec.toNat_sub_of_le (by rw [BitVec.le_def]; omega)]
      omega
    have hrun := runTicks_succ (tick_delay hne) (ih hpred)
    exact hrun

/-- A micro-op that issues drives its level for one tick and its delay. -/
theorem runTicks_microOp {s : State} {i : Instr} {e : EngineSide} {side : Bool} {delay : BitVec 4} {pc : BitVec 5}
    {n : Nat} (hd : s.eng.delayCnt = 0) (hi : decodeMicro (fetchWord s) = .ok i)
    (he : engAfter i s = e.issued side delay pc) (hn : delay.toNat + 1 = n) :
    runTicks n s = .next (List.replicate n side, s.withEng (e.issued side 0 pc)) := by
  subst hn
  have htick := tick_issue hd hi
  rw [he] at htick
  exact runTicks_succ htick (runTicks_delay rfl)

/-! ### The canonical program, word by word (R126) -/

theorem decodeMicro_outX_low : ∀ delay : BitVec 4,
    decodeMicro (microWord outXMatch false delay 0) = .ok (.outX false delay) := by decide

theorem decodeMicro_jmpNotX_three : ∀ delay : BitVec 4,
    decodeMicro (microWord jmpNotXMatch true delay 3) = .ok (.jmpNotX true delay 3) := by decide

theorem decodeMicro_jmp_zero : ∀ delay : BitVec 4,
    decodeMicro (microWord jmpMatch true delay 0) = .ok (.jmp true delay 0) := by decide

theorem decodeMicro_nop_low : ∀ delay : BitVec 4,
    decodeMicro (microWord nopMatch false delay 0) = .ok (.nop false delay) := by decide

/-- A delay of one tick less than a legal Ti, which the tick that issues completes (R122). -/
theorem toNat_delay_add_one {n : Nat} (hpos : 1 ≤ n) (hle : n ≤ 16) : (BitVec.ofNat 4 (n - 1)).toNat + 1 = n := by
  rw [BitVec.toNat_ofNat, Nat.mod_eq_of_lt (by omega)]
  omega

section
variable {s : State} (hprog : Installed (canonicalProgram s.build) s.host)
include hprog

theorem len_of_canonical : s.host.len = 4 := BitVec.eq_of_toNat_eq hprog.1

theorem decode_canonical_zero (hpc : s.eng.pc = 0) :
    decodeMicro (fetchWord s) = .ok (.outX false (BitVec.ofNat 4 (s.build.t3 - 1))) := by
  rw [fetchWord, hpc]
  exact (congrArg decodeMicro (hprog.2 0 (show 0 < 4 by decide))).trans (decodeMicro_outX_low _)

theorem decode_canonical_one (hpc : s.eng.pc = 1) :
    decodeMicro (fetchWord s) = .ok (.jmpNotX true (BitVec.ofNat 4 (s.build.t1 - 1)) 3) := by
  rw [fetchWord, hpc]
  exact (congrArg decodeMicro (hprog.2 1 (show 1 < 4 by decide))).trans (decodeMicro_jmpNotX_three _)

theorem decode_canonical_two (hpc : s.eng.pc = 2) :
    decodeMicro (fetchWord s) = .ok (.jmp true (BitVec.ofNat 4 (s.build.t2 - 1)) 0) := by
  rw [fetchWord, hpc]
  exact (congrArg decodeMicro (hprog.2 2 (show 2 < 4 by decide))).trans (decodeMicro_jmp_zero _)

theorem decode_canonical_three (hpc : s.eng.pc = 3) :
    decodeMicro (fetchWord s) = .ok (.nop false (BitVec.ofNat 4 (s.build.t2 - 1))) := by
  rw [fetchWord, hpc]
  exact (congrArg decodeMicro (hprog.2 3 (show 3 < 4 by decide))).trans (decodeMicro_nop_low _)

end

/-! ### One bit period (R127) -/

/-- The engine side after one bit period of the canonical program: a bit shifted into X, the level at the bit, and the
OUT at index 0 to issue again. -/
def EngineSide.sendBit (dir : ShiftDir) (e : EngineSide) : EngineSide :=
  (e.shiftBit dir).issued (frontBit dir e.osr) 0 0

/-- An OUT that does not stall refills if it has to and shifts. -/
theorem outStep_of_view {b : Build} {mem : Memory 32} {len : BitVec 6} {side : Bool} {delay : BitVec 4}
    {e : EngineSide} (hview : osrExhausted e = true → emptyE e = false) :
    outStep b mem len side delay e = ((e.refilled b mem).shiftBit b.shiftDir).issued side delay (nextPc len e.pc) := by
  rw [EngineSide.refilled]
  obtain ⟨hx, he, -⟩ | ⟨hx, -, ho⟩ | ⟨hx, ho⟩ := outStep_cases b mem len side delay e
  · cases he.symm.trans (hview hx)
  · rw [ho, if_pos hx]
  · rw [ho, if_neg (by simp [hx])]

theorem xIsZero_shiftBit (dir : ShiftDir) (e : EngineSide) : xIsZero (e.shiftBit dir) = !frontBit dir e.osr := by
  rw [xIsZero, EngineSide.shiftBit_x]
  cases frontBit dir e.osr <;> rfl

/-- From the OUT at index 0, the canonical program sends the front bit of the loaded word in one period. -/
theorem runTicks_bitPeriod {s : State} (hprog : Installed (canonicalProgram s.build) s.host) (hpc : s.eng.pc = 0)
    (hd : s.eng.delayCnt = 0) (hview : osrExhausted s.eng = true → emptyE s.eng = false) {e : EngineSide}
    (he : e = s.eng.refilled s.build s.host.fifoMem) :
    runTicks Config.cyclesPerBit s =
      .next (bitWaveform s.build (frontBit s.build.shiftDir e.osr), s.withEng (e.sendBit s.build.shiftDir)) := by
  obtain ⟨h1, h2, h3, h1', h2', h3', hsum⟩ := s.build.timing_bounds
  have hlen := len_of_canonical hprog
  have hlow : runTicks s.build.t3 s =
      .next (List.replicate s.build.t3 false, s.withEng ((e.shiftBit s.build.shiftDir).issued false 0 1)) := by
    refine runTicks_microOp hd (decode_canonical_zero hprog hpc) ?_ (toNat_delay_add_one h3 h3')
    rw [engAfter, outStep_of_view hview, ← he, hpc, hlen]
    rfl
  have hhigh : runTicks s.build.t1 (s.withEng ((e.shiftBit s.build.shiftDir).issued false 0 1)) =
      .next (List.replicate s.build.t1 true, s.withEng ((e.shiftBit s.build.shiftDir).issued true 0
        (if frontBit s.build.shiftDir e.osr then 2 else 3))) := by
    refine runTicks_microOp rfl (decode_canonical_one hprog rfl) ?_ (toNat_delay_add_one h1 h1')
    change ((e.shiftBit s.build.shiftDir).issued false 0 1).issued true _
      (if xIsZero (e.shiftBit s.build.shiftDir) then 3 else nextPc s.host.len 1) = _
    rw [xIsZero_shiftBit, hlen]
    cases frontBit s.build.shiftDir e.osr <;> rfl
  have hbit : runTicks s.build.t2 (s.withEng ((e.shiftBit s.build.shiftDir).issued true 0
        (if frontBit s.build.shiftDir e.osr then 2 else 3))) =
      .next (List.replicate s.build.t2 (frontBit s.build.shiftDir e.osr),
        s.withEng (e.sendBit s.build.shiftDir)) := by
    rw [EngineSide.sendBit]
    cases frontBit s.build.shiftDir e.osr with
    | true => exact runTicks_microOp rfl (decode_canonical_two hprog rfl) rfl (toNat_delay_add_one h2 h2')
    | false =>
      refine runTicks_microOp rfl (decode_canonical_three hprog rfl) ?_ (toNat_delay_add_one h2 h2')
      rw [engAfter, State.withEng_host, hlen]
      rfl
  have hrun := runTicks_add (runTicks_add hlow hhigh) hbit
  rwa [show s.build.t3 + s.build.t1 + s.build.t2 = Config.cyclesPerBit by omega] at hrun

/-! ### One word (R64, R130) -/

theorem iterate_shiftedOut_msbFirst (w : Word) (n : Nat) : (shiftedOut .msbFirst)^[n] w = w <<< n := by
  induction n with
  | zero => simp
  | succ n ih => rw [Function.iterate_succ_apply', ih, shiftedOut, BitVec.shiftLeft_add]

theorem iterate_shiftedOut_lsbFirst (w : Word) (n : Nat) : (shiftedOut .lsbFirst)^[n] w = w >>> n := by
  induction n with
  | zero => simp
  | succ n ih => rw [Function.iterate_succ_apply', ih, shiftedOut, BitVec.shiftRight_add]

/-- The first `n` bits that leave a word. -/
def frontBits (dir : ShiftDir) (n : Nat) (w : Word) : List Bool :=
  (List.range n).map fun k => frontBit dir ((shiftedOut dir)^[k] w)

theorem frontBits_succ (dir : ShiftDir) (n : Nat) (w : Word) :
    frontBits dir (n + 1) w = frontBits dir n w ++ [frontBit dir ((shiftedOut dir)^[n] w)] := by
  simp [frontBits, List.range_succ]

theorem frontBits_eq_cons (dir : ShiftDir) (n : Nat) (w : Word) :
    frontBits dir (n + 1) w = frontBit dir w :: frontBits dir n (shiftedOut dir w) := by
  simp [frontBits, List.range_succ_eq_map, Function.comp_def]

/-- All 32 of them are the word's bits in SHIFT_DIR order. -/
theorem bitsOut_eq_frontBits (dir : ShiftDir) (w : Word) : bitsOut dir w = frontBits dir Config.wordBits w := by
  refine List.map_congr_left fun k hk => ?_
  have hk32 : k < 32 := List.mem_range.1 hk
  cases dir with
  | msbFirst =>
    simp [frontBit, iterate_shiftedOut_msbFirst, show ¬31 < k by omega,
      BitVec.getLsbD_eq_getElem (show 31 - k < 32 by omega)]
  | lsbFirst => simp [frontBit, iterate_shiftedOut_lsbFirst]

/-- The last bit to leave is the one at the other end of the word (R64). -/
theorem frontBit_iterate_last (dir : ShiftDir) (w : Word) :
    frontBit dir ((shiftedOut dir)^[31] w) = if dir = .msbFirst then w[0] else w[31] := by
  cases dir with
  | msbFirst =>
    rw [iterate_shiftedOut_msbFirst]
    simp [frontBit]
  | lsbFirst =>
    rw [iterate_shiftedOut_lsbFirst]
    simp [frontBit]

theorem iterate_shiftedOut_word (dir : ShiftDir) (w : Word) : (shiftedOut dir)^[32] w = 0 := by
  cases dir with
  | msbFirst => exact (iterate_shiftedOut_msbFirst w 32).trans (BitVec.shiftLeft_eq_zero le_rfl)
  | lsbFirst => exact (iterate_shiftedOut_lsbFirst w 32).trans (BitVec.ushiftRight_eq_zero le_rfl)

section
variable (dir : ShiftDir) (e : EngineSide) (n : Nat)

theorem iterate_sendBit_osr : ((EngineSide.sendBit dir)^[n] e).osr = (shiftedOut dir)^[n] e.osr := by
  induction n with
  | zero => rfl
  | succ n ih => rw [Function.iterate_succ_apply', Function.iterate_succ_apply', ← ih]; rfl

theorem iterate_sendBit_rptr : ((EngineSide.sendBit dir)^[n] e).rptr = e.rptr := by
  induction n with
  | zero => rfl
  | succ n ih => rw [Function.iterate_succ_apply', ← ih]; rfl

theorem iterate_sendBit_osrCnt : ((EngineSide.sendBit dir)^[n] e).osrCnt = e.osrCnt + BitVec.ofNat 6 n := by
  induction n with
  | zero => simp
  | succ n ih => rw [Function.iterate_succ_apply', BitVec.ofNat_add, ← BitVec.add_assoc, ← ih]; rfl

/-- Sending bits leaves the OUT at index 0 to issue. -/
theorem iterate_sendBit_at_out (hpc : e.pc = 0) (hd : e.delayCnt = 0) :
    ((EngineSide.sendBit dir)^[n] e).pc = 0 ∧ ((EngineSide.sendBit dir)^[n] e).delayCnt = 0 := by
  cases n with
  | zero => exact ⟨hpc, hd⟩
  | succ n =>
    rw [Function.iterate_succ_apply']
    exact ⟨rfl, rfl⟩

theorem iterate_sendBit_x :
    ((EngineSide.sendBit dir)^[n + 1] e).x = wordOfBit (frontBit dir ((shiftedOut dir)^[n] e.osr)) := by
  rw [Function.iterate_succ_apply', ← iterate_sendBit_osr]
  rfl

end

/-- The canonical program sends the bits left in OSR one after the other, without a gap. -/
theorem runTicks_bits {s : State} (hprog : Installed (canonicalProgram s.build) s.host) (hpc : s.eng.pc = 0)
    (hd : s.eng.delayCnt = 0) {n : Nat} (hn : s.eng.osrCnt.toNat + n ≤ Config.wordBits) :
    runTicks (n * Config.cyclesPerBit) s =
      .next ((frontBits s.build.shiftDir n s.eng.osr).flatMap (bitWaveform s.build),
        s.withEng ((EngineSide.sendBit s.build.shiftDir)^[n] s.eng)) := by
  induction n with
  | zero => rfl
  | succ n ih =>
    have hlt : s.eng.osrCnt.toNat + n < 32 := hn
    obtain ⟨hpc', hd'⟩ := iterate_sendBit_at_out s.build.shiftDir s.eng n hpc hd
    have hx : osrExhausted ((EngineSide.sendBit s.build.shiftDir)^[n] s.eng) = false := by
      rw [Bool.eq_false_iff, Ne, osrExhausted_iff, iterate_sendBit_osrCnt, BitVec.toNat_add, BitVec.toNat_ofNat]
      omega
    have hbit := runTicks_bitPeriod (s := s.withEng ((EngineSide.sendBit s.build.shiftDir)^[n] s.eng)) hprog hpc' hd'
      (fun hx' => by cases hx.symm.trans hx') (by rw [EngineSide.refilled, State.withEng_eng, if_neg (by simp [hx])])
    rw [iterate_sendBit_osr] at hbit
    rw [Nat.succ_mul, frontBits_succ, List.flatMap_append, List.flatMap_singleton, Function.iterate_succ_apply']
    exact runTicks_add (ih (by omega)) hbit

/-- From an exhausted OSR with a word in view, 32 bit periods send the word. -/
theorem runTicks_word {s : State} (hprog : Installed (canonicalProgram s.build) s.host) (hpc : s.eng.pc = 0)
    (hd : s.eng.delayCnt = 0) (hx : osrExhausted s.eng = true) (hempty : emptyE s.eng = false) {e : EngineSide}
    (he : e = s.eng.load s.build s.host.fifoMem) :
    runTicks (Config.wordBits * Config.cyclesPerBit) s =
      .next ((bitsOut s.build.shiftDir e.osr).flatMap (bitWaveform s.build),
        s.withEng ((EngineSide.sendBit s.build.shiftDir)^[32] e)) := by
  have hfirst := runTicks_bitPeriod hprog hpc hd (fun _ => hempty) (e := e) (by rw [EngineSide.refilled, if_pos hx, he])
  have hcnt : (e.sendBit s.build.shiftDir).osrCnt.toNat + 31 ≤ Config.wordBits := by
    rw [he]
    exact le_rfl
  have hrest := runTicks_bits (s := s.withEng (e.sendBit s.build.shiftDir)) hprog rfl rfl hcnt
  have hrun := runTicks_add hfirst hrest
  rw [bitsOut_eq_frontBits, show Config.wordBits = 31 + 1 from rfl, frontBits_eq_cons, List.flatMap_cons,
    Function.iterate_succ_apply, Nat.succ_mul, Nat.add_comm]
  exact hrun

/-- Settles O54, from `runTicks_word` and what 32 shifts leave. -/
theorem canonicalWordWaveform : Obligations.CanonicalWordWaveform := by
  unfold Obligations.CanonicalWordWaveform
  intro s w hprog hpc hd hcnt hempty hw
  have hx : osrExhausted s.eng = true := (osrExhausted_iff _).2 (congrArg BitVec.toNat hcnt)
  have hrun := runTicks_word hprog hpc hd hx hempty rfl
  obtain ⟨hpc', hd'⟩ := iterate_sendBit_at_out s.build.shiftDir (s.eng.load s.build s.host.fifoMem) 32 hpc hd
  have hosr : (s.eng.load s.build s.host.fifoMem).osr = w := hw.symm
  rw [hosr] at hrun
  refine ⟨_, hrun, State.withEng_host .., hpc', hd', ?osr, ?osrCnt, ?rptr, ?x⟩
  case osr => rw [State.withEng_eng, iterate_sendBit_osr, hosr, iterate_shiftedOut_word]
  case osrCnt => rw [State.withEng_eng, iterate_sendBit_osrCnt, EngineSide.load_osrCnt]; rfl
  case rptr => rw [State.withEng_eng, iterate_sendBit_rptr, EngineSide.load_rptr]
  case x => rw [State.withEng_eng, iterate_sendBit_x, hosr, frontBit_iterate_last]

end Sys2Proof.Machine

namespace Sys2Proof.Machine

/-! ## Encoding: words as fields, the rows of the table, ports as numbers (30_encoding.md) -/

/-! ### A micro-op word as its five fields (R81) -/

/-- The word whose fields are `op`, `side`, `delay`, `f1` and `f2`. -/
def wordOfFields (op : BitVec 3) (side : Bool) (delay : BitVec 4) (f1 : BitVec 3) (f2 : BitVec 5) : MicroWord :=
  op ++ BitVec.ofBool side ++ delay ++ f1 ++ f2

theorem wordOfFields_toNat (op : BitVec 3) (side : Bool) (delay : BitVec 4) (f1 : BitVec 3) (f2 : BitVec 5) :
    (wordOfFields op side delay f1 f2).toNat =
      op.toNat * 2 ^ 13 + (BitVec.ofBool side).toNat * 2 ^ 12 + delay.toNat * 2 ^ 8 + f1.toNat * 2 ^ 5 + f2.toNat := by
  simp only [wordOfFields, toNat_append_eq_add]
  omega

theorem opField_toNat (w : MicroWord) : (opField w).toNat = w.toNat / 2 ^ 13 % 2 ^ 3 := toNat_extractLsb' w 13 3

theorem sideField_toNat (w : MicroWord) : (BitVec.ofBool (sideField w)).toNat = w.toNat / 2 ^ 12 % 2 :=
  ((getElem_eq_iff_toNat w 12 (by decide) _).1 rfl).symm

theorem delayField_toNat (w : MicroWord) : (delayField w).toNat = w.toNat / 2 ^ 8 % 2 ^ 4 := toNat_extractLsb' w 8 4

theorem f1Field_toNat (w : MicroWord) : (f1Field w).toNat = w.toNat / 2 ^ 5 % 2 ^ 3 := toNat_extractLsb' w 5 3

theorem f2Field_toNat (w : MicroWord) : (f2Field w).toNat = w.toNat / 2 ^ 0 % 2 ^ 5 := toNat_extractLsb' w 0 5

section
variable (op op' : BitVec 3) (side side' : Bool) (delay delay' : BitVec 4) (f1 f1' : BitVec 3) (f2 f2' : BitVec 5)

@[simp] theorem opField_wordOfFields : opField (wordOfFields op side delay f1 f2) = op := by
  apply BitVec.eq_of_toNat_eq
  rw [opField_toNat, wordOfFields_toNat]
  omega

@[simp] theorem sideField_wordOfFields : sideField (wordOfFields op side delay f1 f2) = side := by
  rw [sideField, getElem_eq_iff_toNat, wordOfFields_toNat]
  omega

@[simp] theorem delayField_wordOfFields : delayField (wordOfFields op side delay f1 f2) = delay := by
  have hlt : delay.toNat < 2 ^ 4 := delay.isLt
  apply BitVec.eq_of_toNat_eq
  rw [delayField_toNat, wordOfFields_toNat]
  omega

@[simp] theorem f1Field_wordOfFields : f1Field (wordOfFields op side delay f1 f2) = f1 := by
  apply BitVec.eq_of_toNat_eq
  rw [f1Field_toNat, wordOfFields_toNat]
  omega

@[simp] theorem f2Field_wordOfFields : f2Field (wordOfFields op side delay f1 f2) = f2 := by
  apply BitVec.eq_of_toNat_eq
  rw [f2Field_toNat, wordOfFields_toNat]
  omega

/-- Masking works field by field. -/
theorem wordOfFields_and :
    wordOfFields op side delay f1 f2 &&& wordOfFields op' side' delay' f1' f2' =
      wordOfFields (op &&& op') (side && side') (delay &&& delay') (f1 &&& f1') (f2 &&& f2') := by
  unfold wordOfFields
  iterate 4 rw [BitVec.and_append]
  rw [BitVec.ofBool_and_ofBool]

/-- Joining works field by field. -/
theorem wordOfFields_or :
    wordOfFields op side delay f1 f2 ||| wordOfFields op' side' delay' f1' f2' =
      wordOfFields (op ||| op') (side || side') (delay ||| delay') (f1 ||| f1') (f2 ||| f2') := by
  unfold wordOfFields
  iterate 4 rw [BitVec.or_append]
  rw [BitVec.ofBool_or_ofBool]

/-- A word has one value of each field. -/
theorem wordOfFields_inj :
    wordOfFields op side delay f1 f2 = wordOfFields op' side' delay' f1' f2' ↔
      op = op' ∧ side = side' ∧ delay = delay' ∧ f1 = f1' ∧ f2 = f2' := by
  constructor
  · intro h
    exact ⟨by simpa using congrArg opField h, by simpa using congrArg sideField h,
      by simpa using congrArg delayField h, by simpa using congrArg f1Field h, by simpa using congrArg f2Field h⟩
  · rintro ⟨rfl, rfl, rfl, rfl, rfl⟩
    rfl

/-- The encoder puts the side-set bit and the delay into fields that the match leaves 0 (R94). -/
theorem microWord_wordOfFields :
    microWord (wordOfFields op false 0#4 f1 f2') side delay f2 = wordOfFields op side delay f1 (f2' ||| f2) := by
  have hside : ∀ side, (BitVec.ofBool side).setWidth 16 <<< 12 = wordOfFields 0#3 side 0#4 0#3 0#5 := by decide
  have hdelay : ∀ delay : BitVec 4, delay.setWidth 16 <<< 8 = wordOfFields 0#3 false delay 0#3 0#5 := by decide
  have hf2 : ∀ f2 : BitVec 5, f2.setWidth 16 = wordOfFields 0#3 false 0#4 0#3 f2 := by decide
  rw [microWord, hside, hdelay, hf2, wordOfFields_or, wordOfFields_or, wordOfFields_or]
  simp

end

/-- Every word is the word of its fields. -/
theorem wordOfFields_fields (w : MicroWord) :
    wordOfFields (opField w) (sideField w) (delayField w) (f1Field w) (f2Field w) = w := by
  have hlt : w.toNat < 2 ^ 16 := w.isLt
  apply BitVec.eq_of_toNat_eq
  rw [wordOfFields_toNat, opField_toNat, sideField_toNat, delayField_toNat, f1Field_toNat, f2Field_toNat]
  omega

/-! ### The rows of the table by fields (R87) -/

/-- A mask that reads `op` and `f1` whole, and nothing else. -/
theorem and_opF1Mask_iff (w : MicroWord) (op f1 : BitVec 3) :
    w &&& wordOfFields 7#3 false 0#4 7#3 0#5 = wordOfFields op false 0#4 f1 0#5 ↔
      opField w = op ∧ f1Field w = f1 := by
  conv_lhs => rw [← wordOfFields_fields w, wordOfFields_and, wordOfFields_inj]
  rw [show 7#3 = BitVec.allOnes 3 from rfl, BitVec.and_allOnes, BitVec.and_allOnes]
  simp

/-- A mask that reads `op`, `f1` and `f2` whole, and nothing else. -/
theorem and_opF1F2Mask_iff (w : MicroWord) (op f1 : BitVec 3) (f2 : BitVec 5) :
    w &&& wordOfFields 7#3 false 0#4 7#3 31#5 = wordOfFields op false 0#4 f1 f2 ↔
      opField w = op ∧ f1Field w = f1 ∧ f2Field w = f2 := by
  conv_lhs => rw [← wordOfFields_fields w, wordOfFields_and, wordOfFields_inj]
  rw [show 7#3 = BitVec.allOnes 3 from rfl, show 31#5 = BitVec.allOnes 5 from rfl]
  iterate 3 rw [BitVec.and_allOnes]
  simp

/-- The decoder reads a micro-op off the fields of the four rows. -/
theorem decodeMicro_eq (w : MicroWord) :
    decodeMicro w =
      if opField w = 0#3 ∧ f1Field w = 0#3 then .ok (.jmp (sideField w) (delayField w) (f2Field w))
      else if opField w = 0#3 ∧ f1Field w = 1#3 then .ok (.jmpNotX (sideField w) (delayField w) (f2Field w))
      else if opField w = 3#3 ∧ f1Field w = 1#3 ∧ f2Field w = 1#5 then .ok (.outX (sideField w) (delayField w))
      else if opField w = 5#3 ∧ f1Field w = 2#3 ∧ f2Field w = 2#5 then .ok (.nop (sideField w) (delayField w))
      else .error (reservedKind w) := by
  simp only [← and_opF1Mask_iff, ← and_opF1F2Mask_iff]
  rfl

theorem encode_jmp (side : Bool) (delay : BitVec 4) (target : BitVec 5) :
    encode (.jmp side delay target) = .imem (wordOfFields 0#3 side delay 0#3 target) := by
  rw [encode, show jmpMatch = wordOfFields 0#3 false 0#4 0#3 0#5 from rfl, microWord_wordOfFields, BitVec.zero_or]

theorem encode_jmpNotX (side : Bool) (delay : BitVec 4) (target : BitVec 5) :
    encode (.jmpNotX side delay target) = .imem (wordOfFields 0#3 side delay 1#3 target) := by
  rw [encode, show jmpNotXMatch = wordOfFields 0#3 false 0#4 1#3 0#5 from rfl, microWord_wordOfFields, BitVec.zero_or]

theorem encode_outX (side : Bool) (delay : BitVec 4) :
    encode (.outX side delay) = .imem (wordOfFields 3#3 side delay 1#3 1#5) := by
  rw [encode, show outXMatch = wordOfFields 3#3 false 0#4 1#3 1#5 from rfl, microWord_wordOfFields, BitVec.or_zero]

theorem encode_nop (side : Bool) (delay : BitVec 4) :
    encode (.nop side delay) = .imem (wordOfFields 5#3 side delay 2#3 2#5) := by
  rw [encode, show nopMatch = wordOfFields 5#3 false 0#4 2#3 2#5 from rfl, microWord_wordOfFields, BitVec.or_zero]

/-! ### Decoding what was encoded (R88, R94, R95) -/

@[simp] theorem ctrlWord_reserved (reserved : BitVec 30) (startBit configureBit : Bool) :
    (ctrlWord reserved startBit configureBit).extractLsb' 2 30 = reserved := by
  apply BitVec.eq_of_toNat_eq
  rw [toNat_extractLsb', ctrlWord_toNat]
  omega

/-- Settles O7: the fields of a micro-op's word, and the command bits of a write, say which operation it is. -/
theorem decodeEncodeRoundTrip : Obligations.DecodeEncodeRoundTrip := by
  unfold Obligations.DecodeEncodeRoundTrip
  intro i hwf
  cases i with
  | jmp side delay target => simp [encode_jmp, decode, decodeMicro_eq]
  | jmpNotX side delay target => simp [encode_jmpNotX, decode, decodeMicro_eq]
  | outX side delay => simp [encode_outX, decode, decodeMicro_eq]
  | nop side delay => simp [encode_nop, decode, decodeMicro_eq]
  | regRead index => rfl
  | regWrite index wdata pinGrant =>
    obtain hi | ⟨h0, h1⟩ : index ≠ 0#6 ∨ wdata[0] = false ∧ wdata[1] = false := by
      simpa [Instr.wellFormed] using hwf
    · simp [encode, decode, decodeBus, hi]
    · simp [encode, decode, decodeBus, h0, h1]
  | configure startBit reserved pinGrant => simp [encode, decode, decodeBus]
  | start reserved => simp [encode, decode, decodeBus]
  | push data => rfl

/-! ### The admitted words (R87, R89) -/

/-- An admitted word is the encoding of its meaning. -/
theorem encode_of_decodeMicro {w : MicroWord} {i : Instr} (h : decodeMicro w = .ok i) : encode i = .imem w := by
  have hw := wordOfFields_fields w
  rw [decodeMicro_eq] at h
  split_ifs at h with hjmp hjmpNotX houtX hnop
  · simp only [hjmp] at hw
    cases h
    rw [encode_jmp, hw]
  · simp only [hjmpNotX] at hw
    cases h
    rw [encode_jmpNotX, hw]
  · simp only [houtX] at hw
    cases h
    rw [encode_outX, hw]
  · simp only [hnop] at hw
    cases h
    rw [encode_nop, hw]

/-- The low byte of a word is `f1` and `f2`. -/
theorem lowByte_eq_iff (w : MicroWord) :
    w.extractLsb' 0 8 = 0b01000010#8 ↔ f1Field w = 2#3 ∧ f2Field w = 2#5 := by
  simp only [← BitVec.toNat_inj, f1Field_toNat, f2Field_toNat, toNat_extractLsb', BitVec.toNat_ofNat]
  omega

/-- A word is admitted exactly when its fields are those of a row. -/
theorem admitted_iff_fields (w : MicroWord) :
    admitted w = true ↔
      (opField w = 0#3 ∧ (f1Field w = 0#3 ∨ f1Field w = 1#3)) ∨
        (opField w = 3#3 ∧ f1Field w = 1#3 ∧ f2Field w = 1#5) ∨
        (opField w = 5#3 ∧ f1Field w = 2#3 ∧ f2Field w = 2#5) := by
  rw [admitted, decodeMicro_eq]
  split_ifs with hjmp hjmpNotX houtX hnop
  · simp [hjmp]
  · simp [hjmpNotX]
  · simp [houtX]
  · simp [hnop]
  · simp only [false_iff]
    tauto

/-- Settles O8, from the rows by fields. -/
theorem admittedWordsExactly : Obligations.AdmittedWordsExactly := by
  unfold Obligations.AdmittedWordsExactly
  intro w
  refine ⟨?_, fun i h => ⟨decodeMicro_isMicroOp h, encode_of_decodeMicro h⟩⟩
  rw [lowByte_eq_iff]
  exact admitted_iff_fields w

/-! ### One number per instruction (log 8) -/

theorem wordOfPorts_toNat (p : HostIn) :
    (wordOfPorts p).toNat =
      p.tx.data.toNat * 2 ^ 41 + (BitVec.ofBool p.tx.push).toNat * 2 ^ 40 +
        (BitVec.ofBool p.bus.pinGrant).toNat * 2 ^ 39 + p.bus.wdata.toNat * 2 ^ 7 +
        (BitVec.ofBool p.bus.we).toNat * 2 ^ 6 + p.bus.addr.toNat := by
  simp only [wordOfPorts, toNat_append_eq_add]
  omega

/-- The ports of a host edge can be read back from their number. -/
theorem portsOfWord_wordOfPorts (p : HostIn) : portsOfWord (wordOfPorts p) = p := by
  have hword := wordOfPorts_toNat p
  have haddr : (wordOfPorts p).extractLsb' 0 6 = p.bus.addr := by
    apply BitVec.eq_of_toNat_eq
    rw [toNat_extractLsb', hword]
    omega
  have hwe : (wordOfPorts p)[6] = p.bus.we := by
    rw [getElem_eq_iff_toNat, hword]
    omega
  have hwdata : (wordOfPorts p).extractLsb' 7 32 = p.bus.wdata := by
    apply BitVec.eq_of_toNat_eq
    rw [toNat_extractLsb', hword]
    omega
  have hgrant : (wordOfPorts p)[39] = p.bus.pinGrant := by
    rw [getElem_eq_iff_toNat, hword]
    omega
  have hpush : (wordOfPorts p)[40] = p.tx.push := by
    rw [getElem_eq_iff_toNat, hword]
    omega
  have hdata : (wordOfPorts p).extractLsb' 41 32 = p.tx.data := by
    apply BitVec.eq_of_toNat_eq
    rw [toNat_extractLsb', hword]
    omega
  rw [portsOfWord, haddr, hwe, hwdata, hgrant, hpush, hdata]

theorem codeOfTableWord_micro (w : MicroWord) : codeOfTableWord 16 w.toNat = .imem w := by
  rw [codeOfTableWord, if_pos le_rfl, Nat.mod_eq_of_lt w.isLt, BitVec.ofNat_toNat, BitVec.setWidth_eq]

/-- A port word stands for the push it presents, or else for the bus port's operation. -/
theorem codeOfTableWord_ports (p : HostIn) :
    codeOfTableWord 80 (wordOfPorts p).toNat = if p.tx.push then .tx p.tx else .bus p.bus := by
  have hlt : (wordOfPorts p).toNat < 2 ^ 80 := lt_trans (wordOfPorts p).isLt (by decide)
  rw [codeOfTableWord, if_neg (by decide), Nat.mod_eq_of_lt hlt, BitVec.ofNat_toNat, BitVec.setWidth_eq,
    portsOfWord_wordOfPorts]

/-- The push port's code always presents a push. -/
theorem push_of_encode_tx {i : Instr} {p : TxIn} (h : encode i = .tx p) : p.push = true := by
  cases i <;> cases h
  rfl

/-- The table number of an instruction stands for its code. -/
theorem codeOfTableWord_tableWordOf (i : Instr) :
    codeOfTableWord (tableWordOf i).1 (tableWordOf i).2 = encode i := by
  rw [tableWordOf]
  split
  case h_1 w h => exact (codeOfTableWord_micro w).trans h.symm
  case h_2 p h => exact (codeOfTableWord_ports (portsOfBus p)).trans h.symm
  case h_3 p h => exact (codeOfTableWord_ports (portsOfTx p)).trans ((if_pos (push_of_encode_tx h)).trans h.symm)

/-- Settles O9: the table number stands for the code, and the code decodes to the instruction. -/
theorem tableWordRoundTrip : Obligations.TableWordRoundTrip := by
  unfold Obligations.TableWordRoundTrip
  intro i hwf
  rw [decodeTableWord, codeOfTableWord_tableWordOf, decodeEncodeRoundTrip i hwf]

/-! ### Words of 95_test_vectors.md -/

/-- Settles O10: eight closed words. -/
theorem specWordsDecode : Obligations.SpecWordsDecode := by
  unfold Obligations.SpecWordsDecode
  decide

/-! ### Both ports at a host edge (R95, R160) -/

theorem runTx_push {p : TxIn} (hp : p.push = true) (s : State) : runTx p s = exec (.push p.data) s := by
  simp [runTx, decodeTx, hp]

theorem runTx_idle {p : TxIn} (hp : p.push = false) (s : State) : runTx p s = .next s := by
  simp [runTx, decodeTx, hp]

/-- Settles O13: both ports' operations complete, and the edge commits what they left. -/
theorem hostEdgeRunsBothPorts : Obligations.HostEdgeRunsBothPorts := by
  unfold Obligations.HostEdgeRunsBothPorts
  intro s rest ports hin
  obtain ⟨bus, hbus, -, -, -⟩ := exec_decodeBus ports.bus (s.withInputs rest)
  obtain ⟨tx, htx, -, -, -⟩ := runTx_eq ports.tx (s.withInputs rest)
  refine ⟨bus, tx, hbus, ?push, ?idle, ?step⟩
  case push => exact fun hp => (runTx_push hp _).symm.trans htx
  case idle =>
    intro hp
    rw [runTx_idle hp] at htx
    cases htx
    rfl
  case step => rw [step_listed hin, runEvent, hostEdge, hbus, bindNext_next, htx, mapNext_next]

/-! ### The assembler's worked example (R94) -/

/-- Settles O59: the label pass gives do_zero the value 3, the second pass gives the delay T1 - 1 the value 1. -/
theorem workedExampleAssembles : Obligations.WorkedExampleAssembles := by
  unfold Obligations.WorkedExampleAssembles
  refine ⟨?program, ?word⟩
  case program => decide
  case word =>
    rw [Assembler.wordsOf, encode_jmpNotX]
    rfl

end Sys2Proof.Machine

namespace Sys2Proof.Machine

/-! ### The clock divisor (R101, R102, R104) -/

/-- The quotient of a 32-bit FCLK is at most 536 (R102). -/
theorem fclk_div_kdiv_le (fclk : BitVec Config.fclkBits) : fclk.toNat / Config.kdiv ≤ 536 := by
  have hlt : fclk.toNat < 2 ^ 32 := fclk.isLt
  rw [show Config.kdiv = 8000000 from rfl]
  omega

/-- CLKDIV's 16 bits hold the whole quotient: `zext_16` cuts nothing off (R101, R102). -/
theorem divCalc_toNat (fclk : BitVec Config.fclkBits) : (divCalc fclk).toNat = fclk.toNat / Config.kdiv := by
  have hlt : fclk.toNat / Config.kdiv < 2 ^ 16 := (fclk_div_kdiv_le fclk).trans_lt (by decide)
  rw [divCalc, BitVec.toNat_ofNat, Nat.mod_eq_of_lt hlt]

/-- Settles O52: the divisor is the quotient by KDIV, which brackets FCLK and is at most 536. -/
theorem divisorTruncates : Obligations.DivisorTruncates := by
  unfold Obligations.DivisorTruncates
  intro fclk
  have hkdiv : 0 < Config.kdiv := by decide
  have hupper : fclk.toNat < Config.kdiv * (fclk.toNat / Config.kdiv + 1) := Nat.lt_mul_div_succ _ hkdiv
  rw [Nat.mul_comm] at hupper
  rw [divCalc_toNat]
  exact ⟨Nat.div_mul_le_self _ _, hupper, fclk_div_kdiv_le fclk⟩

end Sys2Proof.Machine

namespace Sys2Proof.Machine

/-! ## The bit stream (41_timing_program.md R125) -/

/-- The bits that leave a word first do not depend on how many leave after them. -/
theorem frontBits_take {dir : ShiftDir} {k n : Nat} (hk : k ≤ n) (w : Word) :
    (frontBits dir n w).take k = frontBits dir k w := by
  rw [frontBits, ← List.map_take, List.take_range, Nat.min_eq_left hk, frontBits]

/-- The bits an engine side has still to shift out of OSR, the next one first. -/
def EngineSide.bitsLeft (dir : ShiftDir) (e : EngineSide) : List Bool :=
  frontBits dir (Config.wordBits - e.osrCnt.toNat) e.osr

theorem pendingBits_eq_bitsLeft (s : State) : pendingBits s = s.eng.bitsLeft s.build.shiftDir := by
  rw [pendingBits, bitsOut_eq_frontBits, frontBits_take (Nat.sub_le _ _), EngineSide.bitsLeft]

theorem bitsLeft_of_exhausted {dir : ShiftDir} {e : EngineSide} (h : osrExhausted e = true) : e.bitsLeft dir = [] := by
  rw [EngineSide.bitsLeft, (osrExhausted_iff e).1 h]
  rfl

/-- A refill leaves all bits of the word at the read pointer's slot. -/
theorem bitsLeft_load (dir : ShiftDir) (b : Build) (mem : Memory 32) (e : EngineSide) :
    (e.load b mem).bitsLeft dir = bitsOut dir (mem.read (slotOf b e.rptr)) :=
  (bitsOut_eq_frontBits dir _).symm

/-- A shift takes the next bit off. -/
theorem bitsLeft_eq_cons (dir : ShiftDir) {e : EngineSide} (h : e.osrCnt.toNat < Config.wordBits) :
    e.bitsLeft dir = frontBit dir e.osr :: (e.shiftBit dir).bitsLeft dir := by
  rw [EngineSide.bitsLeft, EngineSide.bitsLeft, shiftBit_osrCnt_toNat h, EngineSide.shiftBit_osr, ← frontBits_eq_cons]
  congr 1
  omega

theorem SameShift.bitsLeft_eq {e e' : EngineSide} (h : SameShift e e') (dir : ShiftDir) :
    e'.bitsLeft dir = e.bitsLeft dir := by
  rw [EngineSide.bitsLeft, EngineSide.bitsLeft, h.osrCnt, h.osr]

theorem valuesWrittenToX_of_outIssues {s t : State} (hout : outIssues s = true)
    (ht : runEvent .engineEdge s = .next t) : valuesWrittenToX .engineEdge s = [t.eng.x] := by
  rw [runEvent] at ht
  simp only [valuesWrittenToX, hout, if_true, ht]

theorem valuesWrittenToX_of_not_outIssues {s : State} (hout : outIssues s = false) :
    valuesWrittenToX .engineEdge s = [] := by
  simp [valuesWrittenToX, hout]

/-- The bits in OSR and those of a popped word are the bits that the refilled OSR holds. -/
theorem pendingBits_append_popped {s : State} (hout : outIssues s = true) :
    pendingBits s ++ (poppedWords .engineEdge s).flatMap (bitsOut s.build.shiftDir) =
      (s.eng.refilled s.build s.host.fifoMem).bitsLeft s.build.shiftDir := by
  rw [pendingBits_eq_bitsLeft, poppedWords, hout, Bool.true_and, EngineSide.refilled]
  cases hx : osrExhausted s.eng with
  | true => simp [bitsLeft_of_exhausted hx, bitsLeft_load]
  | false => simp

/-- An engine edge moves at most one bit from the stream into X. -/
theorem Inv.bitStream_engineEdge {s t : State} (h : Inv s) (ht : runEvent .engineEdge s = .next t) :
    (pendingBits s ++ (poppedWords .engineEdge s).flatMap (bitsOut s.build.shiftDir)).map wordOfBit =
      valuesWrittenToX .engineEdge s ++ (pendingBits t).map wordOfBit := by
  have hbuild : t.build = s.build := by
    obtain ⟨e, rfl⟩ := engineEdge_frame ht
    rfl
  rw [pendingBits_eq_bitsLeft t, hbuild]
  obtain ⟨hout, -, hshift⟩ | ⟨hout, hshift⟩ := engineEdge_shift ht
  · rw [pendingBits_append_popped hout, valuesWrittenToX_of_outIssues hout ht, hshift.bitsLeft_eq, hshift.x,
      bitsLeft_eq_cons _ (refilled_osrCnt_lt h.osrCntInRange)]
    rfl
  · rw [poppedWords, hout, valuesWrittenToX_of_not_outIssues hout, hshift.bitsLeft_eq, pendingBits_eq_bitsLeft]
    simp

/-- One event: what it takes from the stream of bits it leaves in X. -/
theorem Inv.bitStream_runEvent {ev : Event} {s t : State} (h : Inv s) (hev : ev ≠ .reset)
    (ht : runEvent ev s = .next t) :
    t.build = s.build ∧
    (pendingBits s ++ (poppedWords ev s).flatMap (bitsOut s.build.shiftDir)).map wordOfBit =
      valuesWrittenToX ev s ++ (pendingBits t).map wordOfBit := by
  obtain ⟨ports, rfl, rfl⟩ | ⟨rfl, e, rfl⟩ := edge_cases hev ht
  · refine ⟨rfl, ?_⟩
    rw [poppedWords, List.flatMap_nil, List.append_nil]
    rfl
  · exact ⟨rfl, h.bitStream_engineEdge ht⟩

/-- Settles O46, by induction on the run: each event keeps the balance, and the invariant. -/
theorem bitStreamIsThePoppedWords : Obligations.BitStreamIsThePoppedWords := by
  unfold Obligations.BitStreamIsThePoppedWords
  intro evs s t h hfree ht
  induction evs generalizing s with
  | nil =>
    cases ht
    simp [collect]
  | cons ev evs ih =>
    obtain ⟨u, hu, hut⟩ := bindNext_eq_next.1 ht
    obtain ⟨hev, hrest⟩ := Bool.and_eq_true_iff.1 hfree
    obtain ⟨hbuild, hone⟩ := h.bitStream_runEvent (by simpa using hev) hu
    have hmore := ih u (h.of_runEvent hu) hrest hut
    rw [hbuild] at hmore
    rw [collect_cons _ hu, collect_cons _ hu, List.flatMap_append, ← List.append_assoc, List.map_append, hone,
      List.append_assoc, ← List.map_append, hmore, List.append_assoc]

/-! ## When the ticks fall (41_timing_program.md R112, R113) -/

/-- The run level has crossed once no stage of its synchroniser holds a 0 any more. -/
theorem Inv.runE_iff {s : State} (h : Inv s) : runE s.eng = true ↔ s.eng.runS.count false = 0 := by
  rw [List.count_eq_zero]
  constructor
  · intro hr hmem
    cases (h.runLevel_full hr).2 false hmem
  · intro hnone
    by_contra hr
    rw [Bool.not_eq_true] at hr
    exact hnone (hr ▸ lastStage_mem false h.runS_ne_nil)

/-- A RUNNING block `n` engine edges after START, with CLKDIV = `d`: the first edges fill the run synchroniser, the
others turn the divider. -/
structure EdgesAfterStart (b : Build) (d n : Nat) (s : State) : Prop where
  inv : Inv s
  running : s.host.life = .running
  build : s.build = b
  clkdiv : s.host.clkdiv.toNat = d
  runLevel : s.eng.runS.count false = b.syncStages - n
  divCnt : s.eng.divCnt.toNat = (n - b.syncStages) % d

/-- START finds the run level and the divider at 0 (R113, R169). -/
theorem edgesAfterStart_of_start {s t : State} {ports : HostIn} (h : Inv s) (hl : s.host.life = .configured)
    (ht : runEvent (.hostEdge ports) s = .next t) (hlt : t.host.life = .running) :
    EdgesAfterStart s.build s.host.clkdiv.toNat 0 t := by
  have hinv := h.of_runEvent ht
  have hnot : s.host.life ≠ .running := by simp [hl]
  obtain ⟨run, write, he⟩ := h.idleBeforeFirstTick (h.runE_of_not_running hnot)
  have hrun : s.eng.runS.count false = s.build.syncStages := by
    rw [← h.runStages, List.count_eq_length]
    exact fun r hr => (h.runLevelSource hnot r hr).symm
  have hlock : LockedAt s.host s.host := ⟨by simp [hl], rfl, rfl, rfl, rfl, rfl, rfl⟩
  have hclkdiv := (hlock.hostAfter ports).clkdiv
  rw [runEvent, hostEdge_eq] at ht
  cases ht
  refine ⟨hinv, hlt, rfl, congrArg BitVec.toNat hclkdiv, hrun, ?_⟩
  rw [Nat.zero_sub, Nat.zero_mod, State.withLastOut_eng, State.withHost_eng, he]
  rfl

/-- A host edge is no engine edge, whatever it presents. -/
theorem EdgesAfterStart.hostEdge {b : Build} {d n : Nat} {s t : State} {ports : HostIn} (h : EdgesAfterStart b d n s)
    (ht : runEvent (.hostEdge ports) s = .next t) : EdgesAfterStart b d n t := by
  have hinv := h.inv.of_runEvent ht
  rw [runEvent, hostEdge_eq, hostAfter_of_running h.running] at ht
  cases ht
  exact ⟨hinv, h.running, h.build, h.clkdiv, h.runLevel, h.divCnt⟩

/-- An engine edge fills one more stage, or turns the divider once the stages are full. -/
theorem EdgesAfterStart.engineEdge {b : Build} {d n : Nat} {s t : State} (h : EdgesAfterStart b d n s)
    (ht : runEvent .engineEdge s = .next t) : EdgesAfterStart b d (n + 1) t := by
  have hinv := h.inv.of_runEvent ht
  have hcount := count_false_shiftIn_true h.inv.runS_ne_nil
  have hdiv := divNext_toNat (h.inv.divCntInRange h.running)
  have hlevel := h.runLevel
  obtain ⟨e, rfl⟩ := engineEdge_frame ht
  have hrun : (s.host.life == .running) = true := by simp [h.running]
  cases hr : runE s.eng with
  | true =>
    have hfull := h.inv.runE_iff.1 hr
    rw [show lastStage false s.eng.runS = true from hr, if_pos rfl] at hcount
    refine ⟨hinv, h.running, h.build, h.clkdiv, ?_, ?_⟩
    · rw [State.withEng_eng, clockEngine_runS, hrun]
      omega
    · rw [State.withEng_eng, clockEngine_divCnt, if_pos hr, hdiv, h.divCnt, h.clkdiv, Nat.mod_add_mod]
      congr 1
      omega
  | false =>
    have hnot : s.eng.runS.count false ≠ 0 := fun h0 => by cases hr.symm.trans (h.inv.runE_iff.2 h0)
    rw [show lastStage false s.eng.runS = false from hr, if_neg Bool.false_ne_true] at hcount
    refine ⟨hinv, h.running, h.build, h.clkdiv, ?_, ?_⟩
    · rw [State.withEng_eng, clockEngine_runS, hrun]
      omega
    · rw [State.withEng_eng, clockEngine_divCnt, hr, if_neg Bool.false_ne_true, h.divCnt]
      congr 1
      omega

theorem EdgesAfterStart.run {b : Build} {d n : Nat} {evs : List Event} {s t : State} (h : EdgesAfterStart b d n s)
    (hfree : resetFree evs = true) (ht : runEvents evs s = .next t) : EdgesAfterStart b d (n + engineEdges evs) t := by
  induction evs generalizing n s with
  | nil =>
    cases ht
    exact h
  | cons ev evs ih =>
    obtain ⟨u, hu, hut⟩ := bindNext_eq_next.1 ht
    obtain ⟨hev, hrest⟩ := Bool.and_eq_true_iff.1 hfree
    cases ev with
    | hostEdge ports => exact ih (h.hostEdge hu) hrest hut
    | engineEdge =>
      rw [show engineEdges (.engineEdge :: evs) = engineEdges evs + 1 from List.countP_cons_of_pos rfl,
        Nat.add_comm (engineEdges evs), ← Nat.add_assoc]
      exact ih (h.engineEdge hu) hrest hut
    | reset => cases hev

/-- Settles O50: `EdgesAfterStart` holds along the run, and says when the run level has crossed and the divider is
at 0. -/
theorem ticksFallEveryClkdivEdges : Obligations.TicksFallEveryClkdivEdges := by
  unfold Obligations.TicksFallEveryClkdivEdges
  intro ports evs s started t h hl hstart hrunning hfree ht
  have hrun := (edgesAfterStart_of_start h hl hstart hrunning).run hfree ht
  rw [Nat.zero_add] at hrun
  rw [tickDue, Bool.and_eq_true, hrun.inv.runE_iff, hrun.runLevel, Nat.sub_eq_zero_iff_le, beq_iff_eq,
    ← BitVec.toNat_inj, hrun.divCnt, Nat.dvd_iff_mod_eq_zero]
  rfl

end Sys2Proof.Machine

namespace Sys2Proof.Machine

/-! ## The micro-ops and their timing (41_timing_program.md) -/

/-! ### No step of a block that meets the invariant stops (R121, R124, R194) -/

/-- Every event completes in a state that meets the invariant: only a RUNNING block comes to a tick, and its program is
validated. -/
theorem Inv.runEvent_next {s : State} (h : Inv s) (ev : Event) : ∃ t, runEvent ev s = .next t := by
  by_cases hl : s.host.life = .running
  · by_cases hev : ev = .reset
    · exact ⟨_, by rw [hev, runEvent]⟩
    · obtain ⟨t, ht, -⟩ := (h.ticking hl).runEvent_next hev
      exact ⟨t, ht⟩
  · cases ev with
    | hostEdge ports => exact ⟨_, hostEdge_eq ports s⟩
    | engineEdge => exact ⟨_, engineEdge_noTick (by simp [tickDue, h.runE_of_not_running hl])⟩
    | reset => exact ⟨_, rfl⟩

/-- Settles O5: a step is one event, and every event completes. -/
theorem stepNeverStops : Obligations.StepNeverStops := by
  unfold Obligations.StepNeverStops
  intro s h
  obtain ⟨hb, hh, he⟩ := takeEvent_block s
  exact (h.of_block hb hh he).runEvent_next _

/-- Settles O6: the invariant holds along every run from reset, and a validated program has R124's properties. -/
theorem runningInvariants : Obligations.RunningInvariants := by
  unfold Obligations.RunningInvariants
  intro b evs t ht hl
  have h : Inv t := runEvents_keeps (fun _ _ _ hs hst => hs.of_runEvent hst) (invariantAtReset b) ht
  obtain ⟨⟨-, -, hwords⟩, -⟩ := h.programOk (by simp [hl])
  refine ⟨h.pcInProgram hl, fun a ha => ?_, fun a side delay dest ha hjump => ?_, h.osrCntInRange, ?_, h.xIsBit⟩
  · exact (admitted_iff _).2 (decodeMicro_of_checkWord_none (hwords a ha))
  · exact target_lt_of_checkWord_none (hwords a ha) hjump
  · exact Nat.le_of_lt_succ t.eng.delayCnt.isLt

/-! ### The engine edge (R110, R111, R114, R115, R121) -/

/-- Settles O12: the tick is `exec` of the fetched micro-op, which completes. -/
theorem engineEdgeRunsFetchedWord : Obligations.EngineEdgeRunsFetchedWord := by
  unfold Obligations.EngineEdgeRunsFetchedWord
  intro s rest i hin hdue hd hi
  refine ⟨_, exec_microOp (decodeMicro_isMicroOp hi) _, ?_⟩
  rw [step_listed hin]
  exact engineEdge_issue hdue hd hi

/-- A word that is not admitted has no meaning. -/
theorem exists_error_of_not_admitted {w : MicroWord} (h : admitted w = false) : ∃ r, decodeMicro w = .error r := by
  cases hw : decodeMicro w with
  | ok i => cases h.symm.trans ((admitted_iff w).2 ⟨i, hw⟩)
  | error r => exact ⟨r, rfl⟩

/-- Settles O15, from the engine edge that fetches a reserved word. -/
theorem reservedWordFaults : Obligations.ReservedWordFaults := by
  unfold Obligations.ReservedWordFaults
  intro s hdue hd hw
  obtain ⟨r, hr⟩ := exists_error_of_not_admitted hw
  exact engineEdge_reserved hdue hd hr

/-- Settles O17: such an edge only clocks the synchronisers and the divider, and the divider follows the run level. -/
theorem offTickEdgeChangesNothingElse : Obligations.OffTickEdgeChangesNothingElse := by
  unfold Obligations.OffTickEdgeChangesNothingElse
  intro s hno
  refine ⟨_, engineEdge_noTick hno, rfl, rfl, rfl, rfl, rfl, rfl, rfl, rfl, rfl, rfl, rfl, fun hr => ?_⟩
  rw [State.withEng_eng, clockEngine_divCnt, hr, if_neg Bool.false_ne_true]

/-- Settles O18, which `tick_delay` says. -/
theorem delayTickOnlyCountsDown : Obligations.DelayTickOnlyCountsDown := by
  unfold Obligations.DelayTickOnlyCountsDown
  intro s hd
  exact tick_delay hd

/-! ### A placed micro-op (log 9) -/

theorem wellFormed_of_isMicroOp {i : Instr} (hi : i.isMicroOp = true) : i.wellFormed = true := by
  cases i with
  | jmp | jmpNotX | outX | nop => rfl
  | regRead | regWrite | configure | start | push => cases hi

/-- The code of a micro-op is a word of IMEM that decodes to it. -/
theorem encode_of_isMicroOp {i : Instr} (hi : i.isMicroOp = true) :
    ∃ w, encode i = .imem w ∧ decodeMicro w = .ok i := by
  have hround := decodeEncodeRoundTrip i (wellFormed_of_isMicroOp hi)
  cases i with
  | jmp | jmpNotX | outX | nop => exact ⟨_, rfl, hround⟩
  | regRead | regWrite | configure | start | push => cases hi

theorem withFetchWord_tableWordOf (s : State) (i : Instr) :
    s.withFetchWord (tableWordOf i).1 (tableWordOf i).2 = placeCode (encode i) s := by
  rw [State.withFetchWord, codeOfTableWord_tableWordOf]

/-- Placing a micro-op makes the next engine edge a tick. -/
theorem tickDue_placeMicro (w : MicroWord) {s : State} (hs : s.eng.runS ≠ []) :
    tickDue (placeMicro w s).eng = true := by
  have hmem : lastStage false (s.eng.runS.map fun _ => true) ∈ s.eng.runS.map fun _ => true :=
    lastStage_mem false (by simpa using hs)
  obtain ⟨-, -, hlast⟩ := List.mem_map.1 hmem
  rw [tickDue, runE, placeMicro, ← hlast]
  rfl

/-- A placed word is the one fetched. -/
theorem fetchWord_placeMicro (w : MicroWord) {s : State} (hwf : s.host.imem.wf = true) :
    fetchWord (placeMicro w s) = w :=
  Memory.read_write_same hwf _ w

/-- Settles O16: the placed state lists an engine edge, which is a tick and issues the placed word. -/
theorem placedMicroOpRunsNext : Obligations.PlacedMicroOpRunsNext := by
  unfold Obligations.PlacedMicroOpRunsNext
  intro s i hi hwf hs
  obtain ⟨w, hw, hdec⟩ := encode_of_isMicroOp hi
  rw [withFetchWord_tableWordOf, hw, placeCode]
  refine ⟨_, exec_microOp hi _, ?_⟩
  have hissue : decodeMicro (fetchWord (placeMicro w s)) = .ok i := by rw [fetchWord_placeMicro w hwf, hdec]
  rw [step_listed (rest := s.env.inputs) rfl]
  exact engineEdge_issue (tickDue_placeMicro w hs) rfl hissue

/-! ### Each micro-op by itself (R116 to R120) -/

/-- Settles O19: JMP's row by its fields; the rest is its meaning. -/
theorem jmpResult : Obligations.JmpResult := by
  unfold Obligations.JmpResult
  refine ⟨fun w hw => ?_, fun _ _ _ _ => rfl⟩
  have hrow := (and_opF1Mask_iff w 0#3 0#3).1 hw
  rw [decodeMicro_eq, if_pos hrow]
  rfl

/-- Settles O20: JMP !X's row by its fields, and the two cases of its condition. -/
theorem jmpNotXResult : Obligations.JmpNotXResult := by
  unfold Obligations.JmpNotXResult
  refine ⟨fun w hw => ?_, fun side delay target s => ⟨fun hx => ?_, fun hx => ?_⟩⟩
  · obtain ⟨hop, hf1⟩ := (and_opF1Mask_iff w 0#3 1#3).1 hw
    rw [decodeMicro_eq, if_neg (by simp [hf1]), if_pos ⟨hop, hf1⟩]
    rfl
  · rw [exec_microOp rfl, engAfter, if_pos (by simpa [xIsZero] using hx)]
    rfl
  · rw [exec_microOp rfl, engAfter, if_neg (by simpa [xIsZero] using hx)]
    rfl

/-- Settles O21: 5 bits hold every index below a LEN of at most 32. -/
theorem sequentialSuccessor : Obligations.SequentialSuccessor := by
  unfold Obligations.SequentialSuccessor
  intro len pc hlen hpc
  refine ⟨fun hlast => ?_, fun hne => ?_, nextPc_lt hlen hpc⟩
  · rw [nextPc, if_pos (by omega)]
  · have hnext : (pc + 1).toNat = (pc.toNat + 1) % 32 := BitVec.toNat_add pc 1
    rw [nextPc, if_neg (by omega), hnext]
    omega

/-- Settles O22: NOP's row by its fields; the rest is its meaning. -/
theorem nopResult : Obligations.NopResult := by
  unfold Obligations.NopResult
  refine ⟨fun w hw => ?_, fun _ _ _ => rfl⟩
  obtain ⟨hop, hf1, hf2⟩ := (and_opF1F2Mask_iff w 5#3 2#3 2#5).1 hw
  rw [decodeMicro_eq, if_neg (by simp [hop]), if_neg (by simp [hop]), if_neg (by simp [hop]), if_pos ⟨hop, hf1, hf2⟩]
  rfl

theorem wordOfBit_toNat (bit : Bool) : (wordOfBit bit).toNat = (BitVec.ofBool bit).toNat := by
  cases bit <;> rfl

/-- The front bit of a word as a word (R64, R117). -/
theorem wordOfBit_frontBit (dir : ShiftDir) (w : Word) :
    wordOfBit (frontBit dir w) = if dir = .msbFirst then w >>> 31 else w &&& 1 := by
  cases dir with
  | msbFirst =>
    have hlt : w.toNat < 2 ^ 32 := w.isLt
    have hbit := (getElem_eq_iff_toNat w 31 (by decide) w[31]).1 rfl
    apply BitVec.eq_of_toNat_eq
    rw [if_pos rfl, BitVec.toNat_ushiftRight, Nat.shiftRight_eq_div_pow, wordOfBit_toNat, frontBit, ← hbit]
    omega
  | lsbFirst => exact BitVec.and_one_eq_setWidth_ofBool_getLsbD.symm

theorem shiftedOut_eq (dir : ShiftDir) (w : Word) :
    shiftedOut dir w = if dir = .msbFirst then w <<< 1 else w >>> 1 := by
  cases dir <;> rfl

/-- What a shift makes of an engine side, in R117's words. -/
theorem shiftBit_eq (dir : ShiftDir) (e : EngineSide) :
    e.shiftBit dir = { e with
      osr := if dir = .msbFirst then e.osr <<< 1 else e.osr >>> 1
      osrCnt := e.osrCnt + 1
      x := if dir = .msbFirst then e.osr >>> 31 else e.osr &&& 1 } := by
  rw [EngineSide.shiftBit, shiftedOut_eq, wordOfBit_frontBit]

/-- Settles O23: OUT's row by its fields, and the three cases of `outStep`. -/
theorem outXResult : Obligations.OutXResult := by
  unfold Obligations.OutXResult
  refine ⟨fun w hw => ?_, fun side delay s => ?_⟩
  · obtain ⟨hop, hf1, hf2⟩ := (and_opF1F2Mask_iff w 3#3 1#3 1#5).1 hw
    rw [decodeMicro_eq, if_neg (by simp [hop]), if_neg (by simp [hop]), if_pos ⟨hop, hf1, hf2⟩]
    rfl
  · have hexec : exec (.outX side delay) s = .next (s.withEng (engAfter (.outX side delay) s)) := exec_microOp rfl s
    have hx : osrExhausted s.eng = true ↔ s.eng.osrCnt = 32 := by
      rw [osrExhausted_iff, ← BitVec.toNat_inj]
      rfl
    have he : emptyE s.eng = true ↔ s.eng.rptr = gray2bin (lastStage 0 s.eng.ws) := beq_iff_eq
    rw [hexec, engAfter]
    obtain ⟨hx', he', ho⟩ | ⟨hx', he', ho⟩ | ⟨hx', ho⟩ :=
      outStep_cases s.build s.host.fifoMem s.host.len side delay s.eng
    · refine ⟨fun _ _ => by rw [ho]; rfl, fun _ _ hne => absurd (he.1 he') hne, fun hne => absurd (hx.1 hx') hne⟩
    · refine ⟨fun _ hv => ?_, fun src _ _ hsrc => ?_, fun hne => absurd (hx.1 hx') hne⟩
      · cases he'.symm.trans (he.2 hv)
      · rw [ho, shiftBit_eq, hsrc]
        rfl
    · have hne : s.eng.osrCnt ≠ 32 := fun h32 => by cases hx'.symm.trans (hx.2 h32)
      refine ⟨fun h32 => absurd h32 hne, fun _ h32 => absurd h32 hne, fun _ => ?_⟩
      rw [ho, shiftBit_eq]
      rfl

/-! ### How long a micro-op lasts (R114, R122) -/

theorem toNat_delay_sub_one {delay : BitVec 4} (hd : delay ≠ 0) : (delay - 1).toNat + 1 = delay.toNat := by
  have hpos : 1 ≤ delay.toNat := Nat.pos_of_ne_zero fun h0 => hd (BitVec.eq_of_toNat_eq h0)
  have hpred : (delay - 1).toNat = delay.toNat - 1 := BitVec.toNat_sub_of_le hpos
  omega

/-- Some of the delay ticks hold the level and count down by their number. -/
theorem runTicks_some_delay {k : Nat} {s : State} (hk : k ≤ s.eng.delayCnt.toNat) :
    runTicks k s = .next (List.replicate k s.eng.dout,
      s.withEng { s.eng with delayCnt := BitVec.ofNat 4 (s.eng.delayCnt.toNat - k) }) := by
  induction k generalizing s with
  | zero =>
    rw [Nat.sub_zero, BitVec.ofNat_toNat, BitVec.setWidth_eq]
    rfl
  | succ k ih =>
    have hne : s.eng.delayCnt ≠ 0 := fun h0 => by simp [h0] at hk
    have hpred := toNat_delay_sub_one hne
    have hrest := ih (s := s.withEng { s.eng with delayCnt := s.eng.delayCnt - 1 }) (by
      change k ≤ (s.eng.delayCnt - 1).toNat
      omega)
    rw [State.withEng_eng, show (s.eng.delayCnt - 1).toNat - k = s.eng.delayCnt.toNat - (k + 1) by omega] at hrest
    have hrun := runTicks_succ (tick_delay hne) hrest
    exact hrun

/-- A micro-op that does not stall drives its word's side bit and loads its word's delay. -/
theorem engAfter_dout_delayCnt {i : Instr} {w : MicroWord} {s : State} (hi : decodeMicro w = .ok i)
    (hns : ¬((∃ side delay, i = .outX side delay) ∧ osrExhausted s.eng = true ∧ emptyE s.eng = true)) :
    (engAfter i s).dout = sideField w ∧ (engAfter i s).delayCnt = delayField w := by
  rw [decodeMicro_eq] at hi
  split_ifs at hi <;> cases hi
  · exact ⟨rfl, rfl⟩
  · exact ⟨rfl, rfl⟩
  · have hview : osrExhausted s.eng = true → emptyE s.eng = false := fun hx =>
      Bool.eq_false_iff.2 fun he => hns ⟨⟨_, _, rfl⟩, hx, he⟩
    rw [engAfter, outStep_of_view hview]
    exact ⟨rfl, rfl⟩
  · exact ⟨rfl, rfl⟩

/-- An OUT that finds no word drives its level and nothing else. -/
theorem engAfter_stall {s : State} {side : Bool} {delay : BitVec 4} (hx : osrExhausted s.eng = true)
    (he : emptyE s.eng = true) : engAfter (.outX side delay) s = s.eng.drive side := by
  rw [engAfter, outStep, hx, he]
  rfl

theorem sideField_of_outX {w : MicroWord} {side : Bool} {delay : BitVec 4}
    (hi : decodeMicro w = .ok (.outX side delay)) : sideField w = side := by
  rw [decodeMicro_eq] at hi
  split_ifs at hi <;> cases hi
  rfl

theorem tick_stall {s : State} {side : Bool} {delay : BitVec 4} (hd : s.eng.delayCnt = 0)
    (hi : decodeMicro (fetchWord s) = .ok (.outX side delay)) (hx : osrExhausted s.eng = true)
    (he : emptyE s.eng = true) : tick s = .next (s.withEng (s.eng.drive side)) := by
  rw [tick_issue hd hi, engAfter_stall hx he]

/-- A stall lasts as long as no word comes into view. -/
theorem runTicks_stall {n : Nat} {s : State} {side : Bool} {delay : BitVec 4} (hd : s.eng.delayCnt = 0)
    (hi : decodeMicro (fetchWord s) = .ok (.outX side delay)) (hx : osrExhausted s.eng = true)
    (he : emptyE s.eng = true) :
    runTicks (n + 1) s = .next (List.replicate (n + 1) side, s.withEng (s.eng.drive side)) := by
  induction n generalizing s with
  | zero => exact runTicks_succ (tick_stall hd hi hx he) rfl
  | succ n ih => exact runTicks_succ (tick_stall hd hi hx he) (ih (s := s.withEng (s.eng.drive side)) hd hi hx he)

/-- Settles O49: the issuing tick by `engAfter`, then its delay ticks; and the ticks of a stall. -/
theorem microOpDuration : Obligations.MicroOpDuration := by
  unfold Obligations.MicroOpDuration
  rintro s i w rfl hi hd
  refine ⟨fun hns => ?_, fun n hout hx he => ?_⟩
  · obtain ⟨hside, hdelay⟩ := engAfter_dout_delayCnt hi hns
    refine ⟨_, tick_issue hd hi, hside, hdelay, fun k hk => ?_⟩
    have hrun := runTicks_some_delay (k := k) (s := s.withEng (engAfter i s)) (by rwa [State.withEng_eng, hdelay])
    rwa [State.withEng_eng, hside, hdelay] at hrun
  · obtain ⟨side, delay, rfl⟩ := hout
    have hrun := runTicks_stall (n := n) hd hi hx he
    rwa [← sideField_of_outX hi] at hrun

/-! ### The canonical program's words (R126) -/

/-- The delay of a legal Ti, in 4 bits or in 16. -/
theorem setWidth_ofNat_delay {n : Nat} (hn : n ≤ 16) :
    (BitVec.ofNat 4 (n - 1)).setWidth 16 = BitVec.ofNat 16 (n - 1) := by
  apply BitVec.eq_of_toNat_eq
  rw [BitVec.toNat_setWidth, BitVec.toNat_ofNat, BitVec.toNat_ofNat]
  omega

/-- Settles O11: the words differ from their rows' matches in the side bit, the target and the delay. -/
theorem canonicalProgramWords : Obligations.CanonicalProgramWords := by
  unfold Obligations.CanonicalProgramWords
  refine ⟨by decide, fun b => ?_⟩
  obtain ⟨-, -, -, h1, h2, h3, -⟩ := b.timing_bounds
  have hout : ∀ d : BitVec 4, microWord outXMatch false d 0 = 0x6021#16 ||| (d.setWidth 16 <<< 8) := by decide
  have hjmpNotX : ∀ d : BitVec 4, microWord jmpNotXMatch true d 3 = 0x1023#16 ||| (d.setWidth 16 <<< 8) := by decide
  have hjmp : ∀ d : BitVec 4, microWord jmpMatch true d 0 = 0x1000#16 ||| (d.setWidth 16 <<< 8) := by decide
  have hnop : ∀ d : BitVec 4, microWord nopMatch false d 0 = 0xA042#16 ||| (d.setWidth 16 <<< 8) := by decide
  rw [canonicalProgram, hout, hjmpNotX, hjmp, hnop, setWidth_ofNat_delay h1, setWidth_ofNat_delay h2,
    setWidth_ofNat_delay h3]

/-! ### One bit period (R127) -/

/-- Settles O53, from `runTicks_bitPeriod`. -/
theorem canonicalBitPeriod : Obligations.CanonicalBitPeriod := by
  unfold Obligations.CanonicalBitPeriod
  intro s bit hprog hpc hd hview hbit
  have hosr : (s.eng.refilled s.build s.host.fifoMem).osr =
      if osrExhausted s.eng = true then s.host.fifoMem.read (s.eng.rptr.toNat % s.build.fifoDepth) else s.eng.osr :=
    apply_ite EngineSide.osr _ _ _
  have hrun := runTicks_bitPeriod hprog hpc hd hview rfl
  rw [hosr, ← hbit] at hrun
  refine ⟨_, hrun, rfl, rfl, rfl, ?_, ?_⟩
  · rw [hbit, ← hosr]
    rfl
  · rw [hbit, ← hosr]
    rfl

end Sys2Proof.Machine

namespace Sys2Proof.Machine

/-! ## The trace decodes to the bits (41_timing_program.md R127, R128, R131) -/

/-! ### Trains of bit waveforms -/

/-- A trace made of bit waveforms with LOW ticks between them, and the bits it sends. -/
inductive BitTrain (b : Build) : List Bool → List Bool → Prop
  | nil : BitTrain b [] []
  | low {trace bits : List Bool} (h : BitTrain b trace bits) : BitTrain b (false :: trace) bits
  | bit {trace bits : List Bool} (v : Bool) (h : BitTrain b trace bits) :
    BitTrain b (bitWaveform b v ++ trace) (v :: bits)

theorem highRunsFrom_low (n : Nat) (trace : List Bool) :
    highRunsFrom 0 (List.replicate n false ++ trace) = highRunsFrom 0 trace := by
  induction n with
  | zero => rfl
  | succ n ih => exact ih

theorem highRunsFrom_high (run n : Nat) (trace : List Bool) :
    highRunsFrom run (List.replicate n true ++ trace) = highRunsFrom (run + n) trace := by
  induction n generalizing run with
  | zero => rfl
  | succ n ih =>
    rw [List.replicate_succ, List.cons_append, highRunsFrom, ih, Nat.add_right_comm, Nat.add_assoc]

/-- A HIGH run ends at the next LOW tick or with the trace. -/
theorem highRunsFrom_run {run : Nat} (hrun : 0 < run) {trace : List Bool} (h : trace.head? ≠ some true) :
    highRunsFrom run trace = run :: highRunsFrom 0 trace := by
  obtain ⟨r, rfl⟩ := Nat.exists_eq_add_of_lt hrun
  cases trace with
  | nil => rfl
  | cons level trace =>
    cases level with
    | false => rfl
    | true => exact absurd rfl h

/-- A bit period begins LOW, and so does every train. -/
theorem BitTrain.head?_ne_true {b : Build} {trace bits : List Bool} (h : BitTrain b trace bits) :
    trace.head? ≠ some true := by
  cases h with
  | nil => nofun
  | low h => nofun
  | bit v h =>
    obtain ⟨-, -, h3, -⟩ := b.timing_bounds
    obtain ⟨n, hn⟩ := Nat.exists_eq_add_of_le' h3
    rw [bitWaveform, hn]
    nofun

/-- The HIGH run of one bit period, whatever LOW follows. -/
theorem highRunsFrom_bitWaveform (b : Build) (v : Bool) {trace : List Bool} (h : trace.head? ≠ some true) :
    highRunsFrom 0 (bitWaveform b v ++ trace) = (if v then b.t1 + b.t2 else b.t1) :: highRunsFrom 0 trace := by
  obtain ⟨h1, h2, -⟩ := b.timing_bounds
  rw [bitWaveform, List.append_assoc, List.append_assoc, highRunsFrom_low, highRunsFrom_high, Nat.zero_add]
  cases v with
  | true => rw [highRunsFrom_high, highRunsFrom_run (by omega) h, if_pos rfl]
  | false =>
    obtain ⟨n, hn⟩ := Nat.exists_eq_add_of_le' h2
    rw [highRunsFrom_run h1 (by rw [hn]; nofun), highRunsFrom_low, if_neg Bool.false_ne_true]

theorem bitOfRun_bit (b : Build) (v : Bool) : bitOfRun b (if v then b.t1 + b.t2 else b.t1) = some v := by
  obtain ⟨-, h2, -⟩ := b.timing_bounds
  cases v with
  | true => rw [bitOfRun, if_pos rfl, if_pos rfl]
  | false => rw [bitOfRun, if_neg Bool.false_ne_true, if_neg (by omega), if_pos rfl]

/-- The trace of a train decodes to its bits. -/
theorem BitTrain.decodeTrace_eq {b : Build} {trace bits : List Bool} (h : BitTrain b trace bits) :
    decodeTrace b trace = bits.map some := by
  induction h with
  | nil => rfl
  | low h ih => exact ih
  | bit v h ih =>
    rw [decodeTrace, highRunsFrom_bitWaveform b v h.head?_ne_true, List.map_cons, bitOfRun_bit, List.map_cons, ← ih,
      decodeTrace]

theorem BitTrain.lows {b : Build} {trace bits : List Bool} (h : BitTrain b trace bits) (n : Nat) :
    BitTrain b (List.replicate n false ++ trace) bits := by
  induction n with
  | zero => exact h
  | succ n ih => exact ih.low

/-- Bit waveforms after stalls, and a last stall. -/
theorem bitTrain_sent (b : Build) (sent : List (Nat × Bool)) (stall : Nat) :
    BitTrain b (sent.flatMap (fun p => List.replicate p.1 false ++ bitWaveform b p.2) ++ List.replicate stall false)
      (sent.map Prod.snd) := by
  induction sent with
  | nil => simpa using BitTrain.nil.lows stall
  | cons p sent ih =>
    rw [List.flatMap_cons, List.append_assoc, List.append_assoc]
    exact (ih.bit p.2).lows p.1

/-- Bit waveforms without a gap. -/
theorem bitTrain_flatMap (b : Build) (bits : List Bool) : BitTrain b (bits.flatMap (bitWaveform b)) bits := by
  induction bits with
  | nil => exact .nil
  | cons v bits ih => exact ih.bit v

/-! ### The levels that are still due in a bit period -/

/-- The levels that a bit period of the canonical program drives from the micro-op at `pc` on. -/
def levelsFrom (b : Build) (pc : BitVec 5) (bit : Bool) : List Bool :=
  if pc = 1 then List.replicate b.t1 true ++ List.replicate b.t2 bit
  else if pc = 2 then List.replicate b.t2 true
  else if pc = 3 then List.replicate b.t2 false
  else []

/-- The levels that the ticks drive before the OUT at index 0 is to issue again: those of the delay that is left, and
those of the micro-ops from pc on, for the bit in X. -/
def levelsDue (s : State) : List Bool :=
  List.replicate s.eng.delayCnt.toNat s.eng.dout ++ levelsFrom s.build s.eng.pc (!xIsZero s.eng)

theorem levelsDue_of_no_delay {s : State} (hd : s.eng.delayCnt = 0) :
    levelsDue s = levelsFrom s.build s.eng.pc (!xIsZero s.eng) := by
  rw [levelsDue, hd]
  rfl

/-- Where the OUT at index 0 is to issue, no level is due. -/
theorem levelsDue_at_out {s : State} (hpc : s.eng.pc = 0) (hd : s.eng.delayCnt = 0) : levelsDue s = [] := by
  rw [levelsDue_of_no_delay hd, hpc]
  rfl

/-- A micro-op that has issued has driven the first of its levels. -/
theorem levelsDue_issued (s : State) (e : EngineSide) (side : Bool) {delay : BitVec 4} (pc : BitVec 5) {n : Nat}
    (hn : delay.toNat + 1 = n) :
    side :: levelsDue (s.withEng (clockEngine s (e.issued side delay pc))) =
      List.replicate n side ++ levelsFrom s.build pc (!xIsZero e) := by
  subst hn
  rfl

/-- What an event between `s` and `t` sends, as the levels of its tick and the values it writes to X: a part of the
period that is under way, a LOW of a stall, or the beginning of the period of a bit just written to X. -/
inductive Sends (s t : State) : List Bool → List (BitVec Config.xBits) → Prop
  | goesOn {levels : List Bool} (h : levelsDue s = levels ++ levelsDue t) : Sends s t levels []
  | stalls (hs : levelsDue s = []) (ht : levelsDue t = []) : Sends s t [false] []
  | begins {levels : List Bool} (bit : Bool) (hs : levelsDue s = [])
      (ht : levels ++ levelsDue t = bitWaveform s.build bit) : Sends s t levels [wordOfBit bit]

/-- An event before a train makes a train. -/
theorem Sends.bitTrain {s t : State} {levels bits rest : List Bool} {values : List (BitVec Config.xBits)}
    (h : Sends s t levels values) (hrest : BitTrain s.build rest bits) :
    ∃ bits' rest', levels ++ (levelsDue t ++ rest) = levelsDue s ++ rest' ∧ BitTrain s.build rest' bits' ∧
      values ++ bits.map wordOfBit = bits'.map wordOfBit := by
  cases h with
  | goesOn h => exact ⟨bits, rest, by rw [h, List.append_assoc], hrest, rfl⟩
  | stalls hs ht => exact ⟨bits, false :: rest, by rw [hs, ht]; rfl, hrest.low, rfl⟩
  | begins bit hs ht =>
    exact ⟨bit :: bits, bitWaveform s.build bit ++ rest, by rw [hs, ← ht, List.append_assoc]; rfl, hrest.bit bit, rfl⟩

/-! ### Events of a block that runs the canonical program -/

/-- Every word of the canonical program is admitted, and its jumps go to indices below 4 (R126). -/
theorem checkWord_canonicalProgram {b : Build} {w : MicroWord} (hw : w ∈ canonicalProgram b) :
    checkWord 4 w = none := by
  have hout : ∀ d : BitVec 4, checkWord 4 (microWord outXMatch false d 0) = none := by decide
  have hjmpNotX : ∀ d : BitVec 4, checkWord 4 (microWord jmpNotXMatch true d 3) = none := by decide
  have hjmp : ∀ d : BitVec 4, checkWord 4 (microWord jmpMatch true d 0) = none := by decide
  have hnop : ∀ d : BitVec 4, checkWord 4 (microWord nopMatch false d 0) = none := by decide
  simp only [canonicalProgram, List.mem_cons, List.not_mem_nil, or_false] at hw
  obtain rfl | rfl | rfl | rfl := hw
  exacts [hout _, hjmpNotX _, hjmp _, hnop _]

/-- The canonical program is a program that CONFIGURE admits (R168). -/
theorem programOk_of_canonical {b : Build} {h : HostSide} (hprog : Installed (canonicalProgram b) h) : ProgramOk h := by
  obtain ⟨hlen, hwords⟩ := hprog
  have hlen4 : h.len.toNat = 4 := hlen
  rw [ProgramOk, hlen4]
  refine ⟨by decide, by decide, fun a ha => ?_⟩
  rw [hwords a ha, List.getD_eq_getElem _ _ ha]
  exact checkWord_canonicalProgram (List.getElem_mem ha)

/-- The canonical program is installed and locked, and pc is in it. -/
structure RunsCanonical (s : State) : Prop where
  installed : Installed (canonicalProgram s.build) s.host
  locked : s.host.life ≠ .uninit
  pcInProgram : s.eng.pc.toNat < s.host.len.toNat

/-- Every event but a reset leaves the program, its lock and pc in it. -/
theorem RunsCanonical.of_runEvent {ev : Event} {s t : State} (h : RunsCanonical s) (hev : ev ≠ .reset)
    (ht : runEvent ev s = .next t) : t.build = s.build ∧ RunsCanonical t := by
  have hlock : LockedAt s.host t.host :=
    LockedAt.of_runEvent ev s t hev ⟨h.locked, rfl, rfl, rfl, rfl, rfl, rfl⟩ ht
  have hpc : t.build = s.build ∧ t.eng.pc.toNat < s.host.len.toNat := by
    obtain ⟨ports, -, rfl⟩ | ⟨-, -, rfl⟩ | ⟨-, -, -, rfl⟩ | ⟨i, -, -, -, hi, rfl⟩ | ⟨hr, -⟩ := runEvent_cases ht
    · exact ⟨rfl, h.pcInProgram⟩
    · exact ⟨rfl, h.pcInProgram⟩
    · exact ⟨rfl, h.pcInProgram⟩
    · exact ⟨rfl, engAfter_pc_lt (programOk_of_canonical h.installed) h.pcInProgram hi⟩
    · exact absurd hr hev
  obtain ⟨hbuild, hpc⟩ := hpc
  obtain ⟨hlen, hwords⟩ := h.installed
  refine ⟨hbuild, ⟨?_, ?_⟩, hlock.life, ?_⟩
  · rw [hlock.len, hbuild, hlen]
  · rw [hlock.imem, hbuild]
    exact hwords
  · rw [hlock.len]
    exact hpc

theorem RunsCanonical.pc_cases {s : State} (h : RunsCanonical s) :
    s.eng.pc = 0 ∨ s.eng.pc = 1 ∨ s.eng.pc = 2 ∨ s.eng.pc = 3 := by
  have hlt := h.pcInProgram
  rw [len_of_canonical h.installed] at hlt
  have hsmall : ∀ pc : BitVec 5, pc.toNat < 4 → pc = 0 ∨ pc = 1 ∨ pc = 2 ∨ pc = 3 := by decide
  exact hsmall _ hlt

theorem tickLevels_of_tick {s t : State} (hdue : tickDue s.eng = true) (ht : runEvent .engineEdge s = .next t) :
    tickLevels .engineEdge s = [t.eng.dout] := by
  rw [runEvent] at ht
  simp only [tickLevels, hdue, if_true, ht]

theorem tickLevels_of_no_tick {s : State} (hno : tickDue s.eng = false) : tickLevels .engineEdge s = [] := by
  simp [tickLevels, hno]

/-- A delay tick drives the first of the levels due. -/
theorem levelsDue_delay {s : State} (hd : s.eng.delayCnt ≠ 0) :
    levelsDue s =
      s.eng.dout :: levelsDue (s.withEng (clockEngine s { s.eng with delayCnt := s.eng.delayCnt - 1 })) := by
  rw [levelsDue, levelsDue, ← toNat_delay_sub_one hd, List.replicate_succ]
  rfl

/-- The OUT at index 0 stalls LOW, or begins the period of the bit it writes to X. -/
theorem sends_out {s : State} {i : Instr} (hprog : Installed (canonicalProgram s.build) s.host) (hpc : s.eng.pc = 0)
    (hd : s.eng.delayCnt = 0) (hi : decodeMicro (fetchWord s) = .ok i) :
    Sends s (s.withEng (clockEngine s (engAfter i s))) [(engAfter i s).dout]
      (if shiftsBit i s.eng then [(engAfter i s).x] else []) := by
  cases (decode_canonical_zero hprog hpc).symm.trans hi
  have hs := levelsDue_at_out hpc hd
  cases hstall : osrExhausted s.eng && emptyE s.eng with
  | true =>
    obtain ⟨hx, he⟩ := Bool.and_eq_true_iff.1 hstall
    rw [engAfter_stall hx he, shiftsBit, hstall]
    exact .stalls hs (levelsDue_at_out hpc hd)
  | false =>
    have hview : osrExhausted s.eng = true → emptyE s.eng = false := fun hx => by simpa [hx] using hstall
    obtain ⟨-, -, h3, -, -, h3', -⟩ := s.build.timing_bounds
    rw [engAfter, outStep_of_view hview, hpc, len_of_canonical hprog, shiftsBit, hstall]
    refine .begins _ hs ?_
    refine (levelsDue_issued s _ false _ (toNat_delay_add_one h3 h3')).trans ?_
    rw [xIsZero_shiftBit, Bool.not_not, bitWaveform, List.append_assoc]
    rfl

/-- The other three micro-ops drive the rest of the period. -/
theorem sends_rest {s : State} {i : Instr} (hprog : Installed (canonicalProgram s.build) s.host)
    (hpc : s.eng.pc = 1 ∨ s.eng.pc = 2 ∨ s.eng.pc = 3) (hd : s.eng.delayCnt = 0)
    (hi : decodeMicro (fetchWord s) = .ok i) :
    shiftsBit i s.eng = false ∧ Sends s (s.withEng (clockEngine s (engAfter i s))) [(engAfter i s).dout] [] := by
  obtain ⟨h1, h2, -, h1', h2', -⟩ := s.build.timing_bounds
  have hlen := len_of_canonical hprog
  have hdue := levelsDue_of_no_delay hd
  obtain hpc | hpc | hpc := hpc <;> rw [hpc] at hdue
  · cases (decode_canonical_one hprog hpc).symm.trans hi
    refine ⟨rfl, .goesOn (hdue.trans ?_)⟩
    refine .trans ?_ (levelsDue_issued s _ true _ (toNat_delay_add_one h1 h1')).symm
    rw [hpc, hlen]
    cases xIsZero s.eng <;> rfl
  · cases (decode_canonical_two hprog hpc).symm.trans hi
    refine ⟨rfl, .goesOn (hdue.trans ?_)⟩
    refine .trans ?_ (levelsDue_issued s _ true _ (toNat_delay_add_one h2 h2')).symm
    exact (List.append_nil _).symm
  · cases (decode_canonical_three hprog hpc).symm.trans hi
    refine ⟨rfl, .goesOn (hdue.trans ?_)⟩
    refine .trans ?_ (levelsDue_issued s _ false _ (toNat_delay_add_one h2 h2')).symm
    rw [hpc, hlen]
    exact (List.append_nil _).symm

/-- What an engine edge that issues sends. -/
theorem RunsCanonical.sends_issue {s : State} {i : Instr} (h : RunsCanonical s) (hdue : tickDue s.eng = true)
    (hd : s.eng.delayCnt = 0) (hi : decodeMicro (fetchWord s) = .ok i) :
    Sends s (s.withEng (clockEngine s (engAfter i s))) (tickLevels .engineEdge s)
      (valuesWrittenToX .engineEdge s) := by
  have ht : runEvent .engineEdge s = .next (s.withEng (clockEngine s (engAfter i s))) := engineEdge_issue hdue hd hi
  have hvalues : valuesWrittenToX .engineEdge s = if shiftsBit i s.eng then [(engAfter i s).x] else [] := by
    have hout := outIssues_of_issue hdue hd hi
    cases hb : shiftsBit i s.eng with
    | true => exact valuesWrittenToX_of_outIssues (hout.trans hb) ht
    | false => exact valuesWrittenToX_of_not_outIssues (hout.trans hb)
  rw [tickLevels_of_tick hdue ht, hvalues]
  obtain hpc | hpc := h.pc_cases
  · exact sends_out h.installed hpc hd hi
  · obtain ⟨hshift, hsends⟩ := sends_rest h.installed hpc hd hi
    rw [hshift]
    exact hsends

/-- What every event but a reset sends. -/
theorem RunsCanonical.sends_runEvent {ev : Event} {s t : State} (h : RunsCanonical s) (hev : ev ≠ .reset)
    (ht : runEvent ev s = .next t) : Sends s t (tickLevels ev s) (valuesWrittenToX ev s) := by
  obtain ⟨ports, rfl, rfl⟩ | ⟨rfl, hno, rfl⟩ | ⟨rfl, hdue, hd, rfl⟩ | ⟨i, rfl, hdue, hd, hi, rfl⟩ | ⟨hr, -⟩ :=
    runEvent_cases ht
  · exact .goesOn rfl
  · rw [tickLevels_of_no_tick hno, valuesWrittenToX_of_not_outIssues (outIssues_of_no_issue (by simp [hno]))]
    exact .goesOn rfl
  · rw [tickLevels_of_tick hdue ht,
      valuesWrittenToX_of_not_outIssues (outIssues_of_no_issue (by simpa using fun _ => hd))]
    exact .goesOn (levelsDue_delay hd)
  · exact h.sends_issue hdue hd hi
  · exact absurd hr hev

/-- A run that ends where the OUT at index 0 is to issue sends the rest of the period under way and then the bits that
it writes to X. -/
theorem RunsCanonical.sends_run {evs : List Event} {s t : State} (h : RunsCanonical s) (hfree : resetFree evs = true)
    (ht : runEvents evs s = .next t) (hpc : t.eng.pc = 0) (hd : t.eng.delayCnt = 0) :
    ∃ bits rest, collect tickLevels evs s = levelsDue s ++ rest ∧ BitTrain s.build rest bits ∧
      collect valuesWrittenToX evs s = bits.map wordOfBit := by
  induction evs generalizing s with
  | nil =>
    cases ht
    exact ⟨[], [], by rw [levelsDue_at_out hpc hd]; rfl, .nil, rfl⟩
  | cons ev evs ih =>
    obtain ⟨u, hu, hut⟩ := bindNext_eq_next.1 ht
    obtain ⟨hfirst, hrest⟩ := Bool.and_eq_true_iff.1 hfree
    have hev : ev ≠ .reset := by simpa using hfirst
    obtain ⟨hbuild, hnext⟩ := h.of_runEvent hev hu
    obtain ⟨bits, rest, hlevels, htrain, hvalues⟩ := ih hnext hrest hut
    rw [hbuild] at htrain
    rw [collect_cons _ hu, collect_cons _ hu, hlevels, hvalues]
    exact (h.sends_runEvent hev hu).bitTrain htrain

theorem wordOfBit_ne_zero (bit : Bool) : (wordOfBit bit != 0) = bit := by cases bit <;> rfl

/-- Settles O55: each of the three traces is a train of the bits. -/
theorem traceDecodesToBits : Obligations.TraceDecodesToBits := by
  unfold Obligations.TraceDecodesToBits
  refine ⟨?run, ?word, ?train⟩
  case run =>
    intro evs s t hprog hl hpc hd hfree ht hpc' hd'
    have h : RunsCanonical s := ⟨hprog, hl, by rw [hpc, len_of_canonical hprog]; decide⟩
    obtain ⟨bits, rest, hlevels, htrain, hvalues⟩ := h.sends_run hfree ht hpc' hd'
    rw [hlevels, levelsDue_at_out hpc hd, List.nil_append, htrain.decodeTrace_eq, hvalues, List.map_map]
    exact List.map_congr_left fun bit _ => congrArg some (wordOfBit_ne_zero bit).symm
  case word =>
    intro s w hprog hpc hd hcnt hempty hw
    obtain ⟨t, hrun, -⟩ := canonicalWordWaveform s w hprog hpc hd hcnt hempty hw
    exact ⟨_, t, hrun, (bitTrain_flatMap s.build _).decodeTrace_eq⟩
  case train =>
    intro b sent stall
    rw [(bitTrain_sent b sent stall).decodeTrace_eq, List.map_map]
    rfl

end Sys2Proof.Machine

namespace Sys2Proof.Machine

/-! ## The transmit queue's occupancy and its push (42_transmit_queue.md R140, R145) -/

/-- Every run from reset ends in a state that meets the invariant. -/
theorem inv_of_run_from_reset {b : Build} {evs : List Event} {t : State}
    (ht : runEvents evs (State.resetOf b) = .next t) : Inv t :=
  runEvents_keeps (fun _ _ _ hs hst => hs.of_runEvent hst) (invariantAtReset b) ht

/-- Settles O44: each view of a pointer lags the pointer on the invariant's path, which fits into FIFO_DEPTH. -/
theorem occupancyOrder : Obligations.OccupancyOrder := by
  unfold Obligations.OccupancyOrder
  intro b evs t ht
  have h : Inv t := inv_of_run_from_reset ht
  exact ⟨Nat.zero_le _, h.occE_le_occ, h.occ_le_occH, h.occH_le_depth⟩

/-- No push is accepted where there is no queue (UNINIT, FAULT) or the host's view of it is full. -/
theorem txOk_eq_false_iff (b : Build) (h : HostSide) :
    txOk b h = false ↔ h.life = .uninit ∨ h.life = .fault ∨ occH b h = b.fifoDepth := by
  rw [← Bool.not_eq_true, txOk_iff]
  cases h.life <;> simp

/-- A push that finds `tx_ok` enqueues its word. -/
theorem exec_push_accepted {s : State} (hok : txOk s.build s.host = true) (data : Word) :
    exec (.push data) s =
      .next ((s.withHost (s.host.enqueue s.build data)).withLastOut { s.env.lastOut with txOk := true }) := by
  have hpush : exec (.push data) s = execPush data s := rfl
  rw [hpush, execPush, HostSide.push, if_pos hok, hok]

/-- A push that does not find `tx_ok` only reports so. -/
theorem exec_push_rejected {s : State} (hno : txOk s.build s.host = false) (data : Word) :
    exec (.push data) s = .next (s.withLastOut { s.env.lastOut with txOk := false }) := by
  have hpush : exec (.push data) s = execPush data s := rfl
  rw [hpush, execPush, HostSide.push, hno, if_neg Bool.false_ne_true]
  rfl

/-- Settles O34: the two cases of a push by `tx_ok`. -/
theorem pushResult : Obligations.PushResult := by
  unfold Obligations.PushResult
  intro data s
  refine ⟨fun hlife hroom => ?accepted, fun hclosed => ?rejected⟩
  case accepted => exact exec_push_accepted ((txOk_iff ..).2 ⟨hlife, hroom⟩) data
  case rejected => exact exec_push_rejected ((txOk_eq_false_iff ..).2 hclosed) data

end Sys2Proof.Machine

namespace Sys2Proof.Machine

/-! ## Commands, their checks and the lifecycle (43_engine_control.md) -/

/-! ### Validate (R164, R182) -/

theorem divCalc_eq_zero_iff (fclk : BitVec Config.fclkBits) : divCalc fclk = 0 ↔ fclk.toNat < 8000000 := by
  rw [← BitVec.toNat_inj, divCalc_toNat]
  exact Nat.div_eq_zero_iff_lt (by decide)

theorem validate_pin (h : HostSide) : validate false h = some (.pin, 0) := rfl

theorem validate_divZero {h : HostSide} (hdiv : divCalc h.fclk = 0) : validate true h = some (.divZero, 0) := by
  rw [validate, if_neg (by decide), if_pos hdiv]

theorem validate_progSize {h : HostSide} (hdiv : divCalc h.fclk ≠ 0)
    (hlen : h.len = 0 ∨ Config.imemDepth < h.len.toNat) : validate true h = some (.progSize, 0) := by
  rw [validate, if_neg (by decide), if_neg hdiv, if_pos hlen]

/-- Past the first three checks, Validate is the scan of the program. -/
theorem validate_program {h : HostSide} (hdiv : divCalc h.fclk ≠ 0)
    (hlen : ¬ (h.len = 0 ∨ Config.imemDepth < h.len.toNat)) :
    validate true h = scanProgram h.imem h.len.toNat h.len.toNat 0 := by
  rw [validate, if_neg (by decide), if_neg hdiv, if_neg hlen]

/-- PIN is the first check, so no program passes without the pin. -/
theorem grant_of_validate_none {grant : Bool} {h : HostSide} (hv : validate grant h = none) : grant = true := by
  cases grant with
  | false => cases hv
  | true => rfl

/-- A word fails as PROG_ILLEGAL exactly when it is reserved. -/
theorem checkWord_eq_progIllegal_iff (len : Nat) (w : MicroWord) :
    checkWord len w = some .progIllegal ↔ admitted w = false := by
  cases hw : decodeMicro w with
  | error r => simp [checkWord, admitted, hw]
  | ok i => cases i <;> simp [checkWord, admitted, hw]

/-- A word fails as PROG_TARGET exactly when it is a jump at or beyond LEN. -/
theorem checkWord_eq_progTarget_iff (len : Nat) (w : MicroWord) :
    checkWord len w = some .progTarget ↔
      ∃ side delay dest, len ≤ BitVec.toNat (w := 5) dest ∧
        (decodeMicro w = .ok (.jmp side delay dest) ∨ decodeMicro w = .ok (.jmpNotX side delay dest)) := by
  cases hw : decodeMicro w with
  | error r => simp [checkWord, hw]
  | ok i => cases i <;> simp [checkWord, hw]

/-- A word passes or fails in one of the two ways. -/
theorem checkWord_eq_none_iff (len : Nat) (w : MicroWord) :
    checkWord len w = none ↔ ¬ checkWord len w = some .progIllegal ∧ ¬ checkWord len w = some .progTarget := by
  cases hw : decodeMicro w with
  | error r => simp [checkWord, hw]
  | ok i => cases i <;> simp [checkWord, hw]

/-- The scan answers the failing word that has only passing words before it. -/
theorem scanProgram_eq_some {imem : Memory Config.instrBits} {len n a k : Nat} {e : ConfigError} (hk : k < n)
    (hfail : checkWord len (imem.read (a + k)) = some e)
    (hpass : ∀ j, j < k → checkWord len (imem.read (a + j)) = none) :
    scanProgram imem len n a = some (e, BitVec.ofNat 5 (a + k)) := by
  cases hscan : scanProgram imem len n a with
  | none => cases hfail.symm.trans ((scanProgram_none_iff ..).1 hscan k hk)
  | some found =>
    obtain ⟨k', -, haddr, hfail', hpass'⟩ := scanProgram_some (e := found.1) (addr := found.2) hscan
    obtain hlt | rfl | hgt := Nat.lt_trichotomy k k'
    · cases hfail.symm.trans (hpass' k hlt)
    · cases hfail.symm.trans hfail'
      rw [← haddr]
    · cases hfail'.symm.trans (hpass k' hgt)

section

variable {h : HostSide} (hdiv : divCalc h.fclk ≠ 0) (hlen : ¬ (h.len = 0 ∨ Config.imemDepth < h.len.toNat))
include hdiv hlen

/-- Past the first three checks, Validate passes when every program word does. -/
theorem validate_program_none_iff :
    validate true h = none ↔ ∀ a, a < h.len.toNat → checkWord h.len.toNat (h.imem.read a) = none := by
  simp only [validate_program hdiv hlen, scanProgram_none_iff, Nat.zero_add]

/-- Past the first three checks, Validate answers the first failing program word. -/
theorem validate_program_some {a : Nat} {e : ConfigError} (ha : a < h.len.toNat)
    (hpass : ∀ k, k < a → checkWord h.len.toNat (h.imem.read k) = none)
    (hfail : checkWord h.len.toNat (h.imem.read a) = some e) : validate true h = some (e, BitVec.ofNat 5 a) := by
  rw [validate_program hdiv hlen]
  simpa only [Nat.zero_add] using
    scanProgram_eq_some (a := 0) ha (by rwa [Nat.zero_add]) (by simpa only [Nat.zero_add] using hpass)

end

/-- Settles O29: the first three checks by the equations of `validate`, the program by what its scan answers. -/
theorem validateFindsFirstFailure : Obligations.ValidateFindsFirstFailure := by
  unfold Obligations.ValidateFindsFirstFailure
  intro h
  have hdivisor (hf : 8000000 ≤ h.fclk.toNat) : divCalc h.fclk ≠ 0 := by
    rw [ne_eq, divCalc_eq_zero_iff, not_lt]
    exact hf
  have hlength : h.len = 0 ∨ Config.imemDepth < h.len.toNat ↔ h.len.toNat = 0 ∨ 32 < h.len.toNat := by
    rw [← BitVec.toNat_inj]
    rfl
  refine ⟨validate_pin h, fun hf => validate_divZero ((divCalc_eq_zero_iff _).2 hf),
    fun hf hlen => validate_progSize (hdivisor hf) (hlength.2 hlen), ?program⟩
  case program =>
    intro hf hpos hle illegal target hillegal htarget
    have hdiv := hdivisor hf
    have hlen : ¬ (h.len = 0 ∨ Config.imemDepth < h.len.toNat) := by
      rw [hlength]
      omega
    have hill a : illegal a ↔ checkWord h.len.toNat (h.imem.read a) = some .progIllegal :=
      (hillegal a).trans (checkWord_eq_progIllegal_iff ..).symm
    have htar a : target a ↔ checkWord h.len.toNat (h.imem.read a) = some .progTarget :=
      (htarget a).trans (checkWord_eq_progTarget_iff ..).symm
    simp only [hill, htar, ← checkWord_eq_none_iff]
    exact ⟨validate_program_none_iff hdiv hlen, fun a ha hbefore =>
      ⟨validate_program_some hdiv hlen ha hbefore, validate_program_some hdiv hlen ha hbefore⟩⟩

/-! ### CONFIGURE and START (R166 to R170) -/

theorem exec_configure (startBit grant : Bool) (reserved : BitVec 30) (s : State) :
    exec (.configure startBit reserved grant) s = .next (s.withHost (s.host.writeCtrl true startBit grant)) := rfl

theorem exec_start (reserved : BitVec 30) (s : State) :
    exec (.start reserved) s = .next (s.withHost (s.host.writeCtrl false true false)) := rfl

theorem writeCtrl_uninit {h : HostSide} (hl : h.life = .uninit) (startBit grant : Bool) :
    h.writeCtrl true startBit grant = h.configure grant := by
  simp [HostSide.writeCtrl, hl]

/-- Without CONFIGURE in UNINIT or START in CONFIGURED a write of CTRL does nothing. -/
theorem writeCtrl_eq_self {h : HostSide} {configureBit startBit : Bool}
    (hc : ¬ (configureBit = true ∧ h.life = .uninit)) (hs : ¬ (startBit = true ∧ h.life = .configured))
    (grant : Bool) : h.writeCtrl configureBit startBit grant = h := by
  rw [HostSide.writeCtrl, if_neg hc, if_neg hs]

theorem configure_of_validate_none {grant : Bool} {h : HostSide} (hv : validate grant h = none) :
    h.configure grant = { h with clkdiv := divCalc h.fclk, life := .configured } := by
  rw [HostSide.configure, hv]

theorem configure_of_validate_some {grant : Bool} {h : HostSide} {code : ConfigError} {addr : BitVec 5}
    (hv : validate grant h = some (code, addr)) :
    h.configure grant =
      { h with clkdiv := divCalc h.fclk, err := configErrorCode code, errAddr := addr, life := .fault } := by
  rw [HostSide.configure, hv]
  rfl

/-- Settles O28: CONFIGURE by Validate's answer in UNINIT, and a write of CTRL without effect elsewhere. -/
theorem configureResult : Obligations.ConfigureResult := by
  unfold Obligations.ConfigureResult
  intro sb g r s
  rw [exec_configure]
  refine ⟨fun hl hv => ?success, fun code addr hl hv => ?failure, fun hl hsb => ?locked⟩
  case success =>
    rw [writeCtrl_uninit hl, configure_of_validate_none hv]
    rfl
  case failure =>
    rw [writeCtrl_uninit hl, configure_of_validate_some hv]
    rfl
  case locked =>
    rw [writeCtrl_eq_self (fun hc => hl hc.2) (by simp [hsb])]
    rfl

/-- Settles O31: only a `Validate()` without a failure leaves CONFIGURED, and its checks are the guarantees. -/
theorem successfulConfigureGuarantees : Obligations.SuccessfulConfigureGuarantees := by
  unfold Obligations.SuccessfulConfigureGuarantees
  intro sb g r s t hl ht hconfigured
  rw [exec_configure, writeCtrl_uninit hl] at ht
  cases ht
  rw [State.withHost_host] at hconfigured ⊢
  obtain ⟨hv, hc⟩ | ⟨code, addr, -, hc⟩ := configure_cases g s.host
  · obtain ⟨⟨hpos, hle, hwords⟩, hdiv⟩ := programOk_of_validate_none hv
    rw [hc]
    refine ⟨grant_of_validate_none hv, hdiv, hpos, hle, fun a ha => ?_, fun a side delay dest ha hjump => ?_, rfl,
      Bool.true_and _⟩
    · exact (admitted_iff _).2 (decodeMicro_of_checkWord_none (hwords a ha))
    · exact target_lt_of_checkWord_none (hwords a ha) hjump
  · rw [hc] at hconfigured
    cases hconfigured

/-- Settles O32: START is the write of CTRL with bit 1 alone. -/
theorem startResult : Obligations.StartResult := by
  unfold Obligations.StartResult
  intro r s
  rw [exec_start]
  refine ⟨fun hl => ?configured, fun hl => ?other⟩
  case configured =>
    rw [writeCtrl_configured hl]
    rfl
  case other =>
    rw [writeCtrl_eq_self (by simp) fun hs => hl hs.2]
    rfl

/-! ### Register writes (R161, R162) -/

theorem eq_zero_of_hostRegOf_ctrl : ∀ {i : BitVec 6}, hostRegOf i = .ctrl → i = 0 := by decide

theorem eq_two_of_hostRegOf_fclk : ∀ {i : BitVec 6}, hostRegOf i = .fclk → i = 2 := by decide

theorem eq_four_of_hostRegOf_progcfg : ∀ {i : BitVec 6}, hostRegOf i = .progcfg → i = 4 := by decide

theorem writeReg_ctrl (v : Word) (grant : Bool) (h : HostSide) :
    h.writeReg 0 v grant = h.writeCtrl v[0] v[1] grant := rfl

theorem writeReg_fclk {h : HostSide} (hl : h.life = .uninit) (v : Word) (grant : Bool) :
    h.writeReg 2 v grant = { h with fclk := v } := if_pos hl

theorem writeReg_progcfg {h : HostSide} (hl : h.life = .uninit) (v : Word) (grant : Bool) :
    h.writeReg 4 v grant = { h with len := v.extractLsb' 0 6 } := by
  rw [← BitVec.setWidth_eq_extractLsb' (by decide)]
  exact if_pos hl

theorem writeReg_imem {h : HostSide} (hl : h.life = .uninit) {i : BitVec 6} (hi : 32 ≤ i.toNat) (v : Word)
    (grant : Bool) :
    h.writeReg i v grant = { h with imem := h.imem.write (i.toNat - 32) (v.extractLsb' 0 16) } := by
  rw [← BitVec.setWidth_eq_extractLsb' (by decide)]
  simp only [HostSide.writeReg, hostRegOf_imem_of_le hi, if_pos hl]

/-- A write of another index than CTRL, FCLK, PROGCFG and the words of IMEM is ignored. -/
theorem writeReg_readOnly {i : BitVec 6} (hctrl : i ≠ 0) (hfclk : i ≠ 2) (hprogcfg : i ≠ 4) (himem : i.toNat < 32)
    (v : Word) (grant : Bool) (h : HostSide) : h.writeReg i v grant = h := by
  obtain ⟨-, hr, -⟩ | ⟨-, hr, -⟩ | ⟨a, -, hr, -⟩ | ⟨-, hr, -⟩ | ⟨-, hr, -⟩ | hw := writeReg_cases i v grant h
  · exact absurd (eq_two_of_hostRegOf_fclk hr) hfclk
  · exact absurd (eq_four_of_hostRegOf_progcfg hr) hprogcfg
  · exact absurd hr (hostRegOf_ne_imem himem a)
  · exact absurd (eq_zero_of_hostRegOf_ctrl hr) hctrl
  · exact absurd (eq_zero_of_hostRegOf_ctrl hr) hctrl
  · exact hw

/-- Outside UNINIT a write of another index than CTRL is ignored. -/
theorem writeReg_locked {h : HostSide} (hl : h.life ≠ .uninit) {i : BitVec 6} (hctrl : i ≠ 0) (v : Word)
    (grant : Bool) : h.writeReg i v grant = h := by
  obtain ⟨hu, -⟩ | ⟨hu, -⟩ | ⟨-, hu, -⟩ | ⟨hu, -⟩ | ⟨-, hr, -⟩ | hw := writeReg_cases i v grant h
  iterate 4 exact absurd hu hl
  · exact absurd (eq_zero_of_hostRegOf_ctrl hr) hctrl
  · exact hw

/-- Settles O27: `writeReg`, index by index. -/
theorem regWriteResult : Obligations.RegWriteResult := by
  unfold Obligations.RegWriteResult
  intro i v g s
  refine ⟨s.host.writeReg i v g, rfl, ?configure, ?start, ?noCommand, ?fclk, ?progcfg, ?imem, ?readOnly, ?locked⟩
  case configure =>
    rintro rfl h0 hl
    rw [writeReg_ctrl, h0, writeCtrl_uninit hl]
  case start =>
    rintro rfl h1 hl
    rw [writeReg_ctrl, h1, writeCtrl_configured hl]
    rfl
  case noCommand =>
    rintro rfl hc hs
    rw [writeReg_ctrl, writeCtrl_eq_self hc hs]
  case fclk =>
    rintro rfl hl
    exact writeReg_fclk hl v g
  case progcfg =>
    rintro rfl hl
    exact writeReg_progcfg hl v g
  case imem => exact fun hi hl => writeReg_imem hl hi v g
  case readOnly => exact fun hctrl hfclk hprogcfg himem => writeReg_readOnly hctrl hfclk hprogcfg himem v g s.host
  case locked => exact fun hctrl hl => writeReg_locked hl hctrl v g

/-! ### Both ports at one host edge (R160, R188) -/

/-- Settles O38: the three edges leave `hostAfter` of their ports, which takes each register from one port only. -/
theorem sameEdgeOperationsAreIndependent : Obligations.SameEdgeOperationsAreIndependent := by
  unfold Obligations.SameEdgeOperationsAreIndependent
  intro bus tx s t onlyBus onlyTx ht hbus htx
  rw [runEvent, hostEdge_eq] at ht hbus htx
  cases ht
  cases hbus
  cases htx
  exact ⟨rfl, rfl, rfl⟩

/-! ### STATUS at the next host edge (R173) -/

/-- Engine edges leave what the host reads alone. -/
theorem runEvents_engineEdges_frame {n : Nat} {s t : State}
    (ht : runEvents (List.replicate n .engineEdge) s = .next t) : t.build = s.build ∧ t.host = s.host := by
  induction n generalizing s with
  | zero =>
    cases ht
    exact ⟨rfl, rfl⟩
  | succ n ih =>
    obtain ⟨u, hu, hut⟩ := bindNext_eq_next.1 ht
    obtain ⟨e, rfl⟩ := engineEdge_frame hu
    exact (ih hut :)

/-- A read of STATUS at a host edge answers the STATUS of the state before it. -/
theorem busRdata_of_status_read {read : HostIn} (hread : read.bus.addr = 1) {s t : State}
    (ht : runEvent (.hostEdge read) s = .next t) : t.env.lastOut.busRdata = statusWord s.build s.host := by
  rw [runEvent, hostEdge_eq, hread] at ht
  cases ht
  rfl

/-- Settles O39: the read answers the STATUS of the host side that the first edge left. -/
theorem statusVisibleAtNextHostEdge : Obligations.StatusVisibleAtNextHostEdge := by
  unfold Obligations.StatusVisibleAtNextHostEdge
  intro ports read n s t u hread _ hu
  rw [runEvents_append] at hu
  obtain ⟨w, hw, hwu⟩ := bindNext_eq_next.1 hu
  obtain ⟨-, hhost⟩ := runEvents_engineEdges_frame hw
  obtain ⟨u', hu', hlast⟩ := bindNext_eq_next.1 hwu
  cases hlast
  rw [busRdata_of_status_read hread hu', statusWord_life, statusWord_err, statusWord_errAddr, hhost]
  refine ⟨?_, ?_, ?_, ?_, rfl, rfl⟩ <;> intro hl <;> rw [hl] <;> rfl

/-! ### LIFE (R171, R172) -/

theorem configure_life (grant : Bool) (h : HostSide) :
    (h.configure grant).life = if validate grant h = none then .configured else .fault := by
  obtain ⟨hv, hc⟩ | ⟨code, addr, hv, hc⟩ := configure_cases grant h <;> rw [hv, hc]
  · rfl
  · rfl

theorem writeCtrl_life (configureBit startBit grant : Bool) (h : HostSide) :
    (h.writeCtrl configureBit startBit grant).life =
      if configureBit = true ∧ h.life = .uninit then (if validate grant h = none then .configured else .fault)
      else if startBit = true ∧ h.life = .configured then .running
      else h.life := by
  rw [HostSide.writeCtrl]
  split
  · exact configure_life grant h
  · split <;> rfl

/-- Only a write of CTRL changes LIFE. -/
theorem writeReg_life_of_ne_ctrl {i : BitVec 6} (hi : i ≠ 0) (v : Word) (grant : Bool) (h : HostSide) :
    (h.writeReg i v grant).life = h.life := by
  obtain ⟨-, -, hw⟩ | ⟨-, -, hw⟩ | ⟨a, -, -, hw⟩ | ⟨-, hr, -⟩ | ⟨-, hr, -⟩ | hw := writeReg_cases i v grant h
  · rw [hw]
  · rw [hw]
  · rw [hw]
  · exact absurd (eq_zero_of_hostRegOf_ctrl hr) hi
  · exact absurd (eq_zero_of_hostRegOf_ctrl hr) hi
  · rw [hw]

@[simp] theorem hostAfter_life (s : State) (ports : HostIn) :
    (hostAfter s ports).life = (busAfter ports.bus s.host).life := rfl

/-- The rows of R172's table that the bus port makes. -/
theorem busAfter_life (p : BusIn) (h : HostSide) :
    (busAfter p h).life =
      if p.we = true ∧ p.addr = 0 ∧ p.wdata[0] = true ∧ h.life = .uninit then
        (if validate p.pinGrant h = none then .configured else .fault)
      else if p.we = true ∧ p.addr = 0 ∧ p.wdata[1] = true ∧ h.life = .configured then .running
      else h.life := by
  by_cases hwe : p.we = true
  · by_cases haddr : p.addr = 0
    · simp only [busAfter, hwe, haddr, if_true, true_and, writeReg_ctrl, writeCtrl_life]
    · simp only [busAfter, hwe, haddr, if_true, false_and, and_false, if_false,
        writeReg_life_of_ne_ctrl haddr]
  · simp only [busAfter, hwe, false_and, if_false, Bool.false_eq_true]

/-- Settles O40: a host edge leaves the bus operation's LIFE, an engine edge keeps it. -/
theorem lifecycleTable : Obligations.LifecycleTable := by
  unfold Obligations.LifecycleTable
  intro ev s t ht
  cases ev with
  | hostEdge ports =>
    rw [runEvent, hostEdge_eq] at ht
    cases ht
    rw [State.withLastOut_host, State.withHost_host, hostAfter_life]
    exact busAfter_life ports.bus s.host
  | engineEdge =>
    obtain ⟨e, rfl⟩ := engineEdge_frame ht
    rfl
  | reset =>
    cases ht
    rfl

/-- Past UNINIT every event but a reset keeps LIFE or starts the engine. -/
theorem life_cases_of_configured {ev : Event} {s t : State} (hev : ev ≠ .reset) (hl : s.host.life ≠ .uninit)
    (ht : runEvent ev s = .next t) :
    (s.host.life = .configured ∧ t.host.life = .running) ∨ t.host.life = s.host.life := by
  obtain ⟨ports, -, rfl⟩ | ⟨-, e, rfl⟩ := edge_cases hev ht
  · rw [State.withLastOut_host, State.withHost_host, hostAfter_life]
    obtain ⟨hc, hb⟩ | hb := busAfter_cases_of_configured hl ports.bus <;> rw [hb]
    · exact .inl ⟨hc, rfl⟩
    · exact .inr rfl
  · exact .inr rfl

/-- No event but a reset leaves RUNNING or FAULT. -/
theorem life_eq_of_final {l : Life} (hu : l ≠ .uninit) (hc : l ≠ .configured) (ev : Event) (s t : State)
    (hev : ev ≠ .reset) (hl : s.host.life = l) (ht : runEvent ev s = .next t) : t.host.life = l := by
  obtain ⟨hs, -⟩ | hsame := life_cases_of_configured hev (hl ▸ hu) ht
  · exact absurd (hl.symm.trans hs) hc
  · exact hsame.trans hl

theorem life_ne_uninit_of_runEvent (ev : Event) (s t : State) (hev : ev ≠ .reset) (hl : s.host.life ≠ .uninit)
    (ht : runEvent ev s = .next t) : t.host.life ≠ .uninit := by
  obtain ⟨-, hr⟩ | hsame := life_cases_of_configured hev hl ht
  · simp [hr]
  · simpa [hsame] using hl

/-- Settles O41: each of the three is kept by every event but a reset. -/
theorem lifecycleIsIrreversible : Obligations.LifecycleIsIrreversible := by
  unfold Obligations.LifecycleIsIrreversible
  intro evs s t hfree ht
  have hkeep {l : Life} (hu : l ≠ .uninit) (hc : l ≠ .configured) (hl : s.host.life = l) : t.host.life = l :=
    runEvents_keeps_of_resetFree (P := fun u => u.host.life = l) (life_eq_of_final hu hc) hfree hl ht
  exact ⟨hkeep (by decide) (by decide), hkeep (by decide) (by decide),
    fun hl => runEvents_keeps_of_resetFree life_ne_uninit_of_runEvent hfree hl ht⟩

end Sys2Proof.Machine

namespace Sys2Proof.Machine

/-! ## The codes of the configuration faults (60_exceptions.md R181) -/

/-- Settles O30: `configErrorCode` gives each fault its code, one clause per fault. -/
theorem configFaultCodes : Obligations.ConfigFaultCodes := by
  unfold Obligations.ConfigFaultCodes
  exact ⟨rfl, rfl, rfl, rfl, rfl⟩

end Sys2Proof.Machine

namespace Sys2Proof.Machine

/-! ## Quiescence (70_reset_and_hazards.md R214) -/

/-! ### A settled synchroniser -/

/-- A synchroniser whose stages all hold the value at its input keeps them. -/
theorem shiftIn_of_settled {α : Type} {v : α} {l : List α} (h : ∀ x ∈ l, x = v) : shiftIn v l = l := by
  rw [List.eq_replicate_of_mem h, shiftIn_replicate]

/-- The last stage of such a synchroniser holds that value. -/
theorem lastStage_of_settled {α : Type} (d : α) {v : α} {l : List α} (hne : l ≠ []) (h : ∀ x ∈ l, x = v) :
    lastStage d l = v := by
  rw [lastStage, List.getLastD_eq_getLast?, List.getLast?_eq_some_getLast hne, Option.getD_some]
  exact h _ (List.getLast_mem hne)

/-! ### What a quiescent block sees and does -/

namespace Quiescent

variable {side : Bool} {delay : BitVec Config.delayBits} {s t : State}

/-- The condition reads the host side and no more of the engine side than what R214 lets stand. -/
theorem of_frame (q : Quiescent side delay s) (hhost : t.host = s.host)
    (heng : t.eng = { s.eng with runS := t.eng.runS, divCnt := t.eng.divCnt, dout := t.eng.dout }) :
    Quiescent side delay t := by
  obtain ⟨b, h, e, v⟩ := t
  cases hhost
  dsimp only at heng
  rw [heng]
  exact ⟨q.running, q.drained, q.wsSettled, q.rsSettled, q.atOut, q.exhausted, q.noDelay⟩

/-- The engine's view is empty: the write pointer it sees has come to its own read pointer (R143). -/
theorem emptyE_eq_true (q : Quiescent side delay s) (h : Inv s) : emptyE s.eng = true := by
  rw [emptyE, wptrE, lastStage_of_settled 0 h.ws_ne_nil q.wsSettled, h.wgrayOfWptr, gray2bin_bin2gray,
    q.drained, beq_self_eq_true]

theorem osrExhausted_eq_true (q : Quiescent side delay s) : osrExhausted s.eng = true := beq_iff_eq.2 q.exhausted

/-- The host's view is empty too, and an empty queue is not full (R142). -/
theorem txOk_eq_true (q : Quiescent side delay s) (h : Inv s) : txOk s.build s.host = true := by
  have hocc : occH s.build s.host = 0 := by
    rw [occH, rptrH, lastStage_of_settled 0 h.rs_ne_nil q.rsSettled, h.rgrayOfRptr, gray2bin_bin2gray, q.drained,
      ptrDist_self]
  exact (txOk_iff _ _).2 ⟨.inr q.running, hocc ▸ s.build.depth_pos.ne⟩

/-- A host edge without a push leaves the host side as it is. -/
theorem hostAfter_eq (q : Quiescent side delay s) {ports : HostIn} (hp : ports.tx.push = false) :
    hostAfter s ports = s.host := by
  rw [hostAfter_of_running q.running, shiftIn_of_settled q.rsSettled, txAfter, hp]
  rfl

/-- An engine edge re-issues the stalled OUT if it is a tick, which drives the OUT's level and no more (R111, R117). -/
theorem engineEdge_eq (q : Quiescent side delay s) (h : Inv s) :
    engineEdge s =
      .next (s.withEng (clockEngine s (s.eng.drive (if tickDue s.eng = true then side else s.eng.dout)))) := by
  cases hdue : tickDue s.eng with
  | false => exact engineEdge_noTick hdue
  | true =>
    rw [engineEdge_issue hdue q.noDelay q.atOut, engAfter_stall q.osrExhausted_eq_true (q.emptyE_eq_true h), if_pos rfl]

/-- Clocking the engine moves the run level and the divider only: the write pointer has settled. -/
theorem clockEngine_drive (q : Quiescent side delay s) (level : Bool) :
    clockEngine s (s.eng.drive level) =
      { s.eng with
        runS := (clockEngine s s.eng).runS, divCnt := (clockEngine s s.eng).divCnt, dout := level } := by
  rw [clockEngine, shiftIn_of_settled q.wsSettled]
  rfl

/-- A run level that has filled its synchroniser stays (R113). -/
theorem clockEngine_runS_of_full (q : Quiescent side delay s) (hfull : ∀ r ∈ s.eng.runS, r = true) (e : EngineSide) :
    (clockEngine s e).runS = s.eng.runS := by
  rw [clockEngine_runS, q.running]
  exact shiftIn_of_settled hfull

end Quiescent

/-- Settles O56: a host edge without a push changes neither side; an engine edge re-issues the stalled OUT if it is a
tick, and clocks settled synchronisers. -/
theorem quiescenceLasts : Obligations.QuiescenceLasts := by
  unfold Obligations.QuiescenceLasts
  intro side delay ev s h q hev hpush
  cases ev with
  | hostEdge ports =>
    have hhost : hostAfter s ports = s.host := q.hostAfter_eq (by simpa [pushFree] using hpush)
    refine ⟨_, hostEdge_eq ports s, q.of_frame hhost rfl, hhost, ?_, fun _ => rfl, fun _ => rfl,
      q.txOk_eq_true h⟩
    rw [if_neg (fun htick => nomatch htick.1)]
    rfl
  | engineEdge =>
    have heng := q.clockEngine_drive (if tickDue s.eng = true then side else s.eng.dout)
    refine ⟨_, q.engineEdge_eq h, q.of_frame rfl heng, rfl, ?_, fun hfull => q.clockEngine_runS_of_full hfull _,
      fun hhost => (nomatch hhost), q.txOk_eq_true h⟩
    simp only [true_and]
    exact heng
  | reset => exact absurd rfl hev

end Sys2Proof.Machine
